-- ==== Sys2Proof/Word.lean ====
section
/-! DEFINITION. The word types of the block and the names of the two operand kinds of a command word. -/

namespace Sys2Proof

/-- A byte of a buffer or of a byte string (00_scope.md R16). -/
abbrev Byte := BitVec 8

/-- A 32-bit control register or command word (10_state.md R23 to R27, 30_encoding.md R90). -/
abbrev Word := BitVec 32

/-- A 64-bit length register or buffer index (10_state.md R28 to R30). -/
abbrev DWord := BitVec 64

/-- The hash selection `h`, in the order the HSEL field numbers it (00_scope.md R7, 30_encoding.md R93). -/
inductive HashSel where
  | h224
  | h256
  | h384
  | h512
deriving DecidableEq, Repr

/-- The big-integer registers, in the order the REG field numbers them (10_state.md R21, 30_encoding.md R92). -/
inductive BigReg where
  | opa
  | opb
  | mod
  | res
deriving DecidableEq, Repr

end Sys2Proof
end

