-- ==== Sys2Proof/Syntax.lean ====
section
/-! DEFINITION. The fourteen commands of the opcode table (30_encoding.md R96), one constructor a row. -/

namespace Sys2Proof

/-- A command of the block. Operands other than the hash selection and the register number are implicit
(30_encoding.md R94, R95). -/
inductive Instr where
  /-- MODADD, 40_bigint_modular.md R124. -/
  | modadd
  /-- MODSUB, 40_bigint_modular.md R125. -/
  | modsub
  /-- MODMUL, 40_bigint_modular.md R126. -/
  | modmul
  /-- MODEXP, 40_bigint_modular.md R127. -/
  | modexp
  /-- MRTEST, 41_miller_rabin.md R154. -/
  | mrtest
  /-- MRTESTR, 41_miller_rabin.md R156. -/
  | mrtestr
  /-- RSAXF, 42_rsa_cipher.md R170. -/
  | rsaxf
  /-- MGF1, 43_mgf1.md R180. -/
  | mgf1 (h : HashSel)
  /-- PSSENC, 44_pss.md R200. -/
  | pssenc (h : HashSel)
  /-- PSSDEC, 44_pss.md R212. -/
  | pssdec (h : HashSel)
  /-- SIGN, 44_pss.md R201. -/
  | sign (h : HashSel)
  /-- VERIFY, 44_pss.md R213. -/
  | verify (h : HashSel)
  /-- IMPORT, 40_bigint_modular.md R122. -/
  | importReg (r : BigReg)
  /-- EXPORT, 40_bigint_modular.md R123. -/
  | exportReg (r : BigReg)
deriving DecidableEq, Repr

end Sys2Proof
end

