-- ==== Sys2Proof/WellFormed.lean ====
section
/-! DEFINITION. The one format of a command word, CMD32 (30_encoding.md R90), and the checks that make its fields a
command (30_encoding.md R97). A term of `Instr` carries only operands every value of which is legal (R92, R93), so the
checks stand on the fields. -/

namespace Sys2Proof

/-- The fields of the format CMD32 (30_encoding.md R90). -/
structure Cmd32 where
  op : BitVec 4
  hsel : BitVec 2
  reg : BitVec 2
  reserved : BitVec 24
deriving DecidableEq, Repr

/-- Bits 31:8 must be 0 (30_encoding.md R90, R97). -/
def Cmd32.reservedOk (c : Cmd32) : Bool := c.reserved == 0

/-- OP 0x0 and 0xF are no commands (30_encoding.md R96, R97). -/
def Cmd32.opOk (c : Cmd32) : Bool := c.op != 0x0 && c.op != 0xF

/-- The commands that use a hash: OP 0x8 to 0xC (30_encoding.md R90, R96). -/
def Cmd32.usesHash (c : Cmd32) : Bool := decide (0x8 ≤ c.op.toNat ∧ c.op.toNat ≤ 0xC)

/-- The commands that name a register: OP 0xD and 0xE (30_encoding.md R92, R96). -/
def Cmd32.usesReg (c : Cmd32) : Bool := decide (0xD ≤ c.op.toNat ∧ c.op.toNat ≤ 0xE)

/-- HSEL is 0 unless the command uses a hash (30_encoding.md R93). -/
def Cmd32.hselOk (c : Cmd32) : Bool := c.usesHash || c.hsel == 0

/-- REG is 0 unless the command names a register (30_encoding.md R92). -/
def Cmd32.regOk (c : Cmd32) : Bool := c.usesReg || c.reg == 0

/-- The fields form a command of the opcode map (30_encoding.md R96, R97). -/
def Cmd32.wellFormed (c : Cmd32) : Bool := c.reservedOk && c.opOk && c.hselOk && c.regOk

end Sys2Proof
end

