-- ==== Sys2Proof/Decode.lean ====
section
/-! DEFINITION. From a command word to a command and back (30_encoding.md R90 to R102), and the rows of the opcode map
as data (R96). -/

namespace Sys2Proof

/-- Why a word is illegal (30_encoding.md R97). The host sees one error for all of them, IllegalCommand. -/
inductive IllegalReason where
  /-- a bit of 31:8 is set -/
  | reservedBits
  /-- OP is 0x0 or 0xF -/
  | illegalOp
  /-- HSEL is not 0 and the command uses no hash -/
  | unusedHsel
  /-- REG is not 0 and the command names no register -/
  | unusedReg
deriving DecidableEq, Repr

/-- The fields of a word (30_encoding.md R90; bit numbering 00_scope.md R15). -/
def Cmd32.ofWord (w : Word) : Cmd32 :=
  { op := w.extractLsb' 0 4, hsel := w.extractLsb' 4 2, reg := w.extractLsb' 6 2, reserved := w.extractLsb' 8 24 }

/-- HSEL 0 to 3 (00_scope.md R7). -/
def HashSel.ofBits (b : BitVec 2) : HashSel :=
  match b.toNat with
  | 0 => .h224
  | 1 => .h256
  | 2 => .h384
  | _ => .h512

/-- REG 0 to 3 (10_state.md R21). -/
def BigReg.ofBits (b : BitVec 2) : BigReg :=
  match b.toNat with
  | 0 => .opa
  | 1 => .opb
  | 2 => .mod
  | _ => .res

/-- A command that uses neither HSEL nor REG (30_encoding.md R102, OP 0x1 to 0x7). -/
def Cmd32.plain (c : Cmd32) (i : Instr) : Except IllegalReason Instr :=
  if c.hsel ≠ 0 then .error .unusedHsel else if c.reg ≠ 0 then .error .unusedReg else .ok i

/-- A command that uses HSEL (30_encoding.md R102, OP 0x8 to 0xC). -/
def Cmd32.withHash (c : Cmd32) (f : HashSel → Instr) : Except IllegalReason Instr :=
  if c.reg ≠ 0 then .error .unusedReg else .ok (f (HashSel.ofBits c.hsel))

/-- A command that uses REG (30_encoding.md R102, OP 0xD and 0xE). -/
def Cmd32.withReg (c : Cmd32) (f : BigReg → Instr) : Except IllegalReason Instr :=
  if c.hsel ≠ 0 then .error .unusedHsel else .ok (f (BigReg.ofBits c.reg))

/-- The command the OP field selects, its unused fields checked (30_encoding.md R96, R102). -/
def Cmd32.select (c : Cmd32) : Except IllegalReason Instr :=
  match c.op.toNat with
  | 0x1 => c.plain .modadd
  | 0x2 => c.plain .modsub
  | 0x3 => c.plain .modmul
  | 0x4 => c.plain .modexp
  | 0x5 => c.plain .mrtest
  | 0x6 => c.plain .mrtestr
  | 0x7 => c.plain .rsaxf
  | 0x8 => c.withHash .mgf1
  | 0x9 => c.withHash .pssenc
  | 0xA => c.withHash .pssdec
  | 0xB => c.withHash .sign
  | 0xC => c.withHash .verify
  | 0xD => c.withReg .importReg
  | 0xE => c.withReg .exportReg
  | _ => .error .illegalOp

/-- `Decode(w)` of 30_encoding.md R102, total on 32-bit words. -/
def decode (w : Word) : Except IllegalReason Instr :=
  if (Cmd32.ofWord w).reserved ≠ 0 then .error .reservedBits else (Cmd32.ofWord w).select

/-- The HSEL value of a hash selection (00_scope.md R7). -/
def HashSel.code : HashSel → Nat
  | .h224 => 0
  | .h256 => 1
  | .h384 => 2
  | .h512 => 3

/-- The number of a big-integer register (10_state.md R21). -/
def BigReg.code : BigReg → Nat
  | .opa => 0
  | .opb => 1
  | .mod => 2
  | .res => 3

/-- The OP value of a command (30_encoding.md R96). -/
def Instr.op : Instr → Nat
  | .modadd => 0x1
  | .modsub => 0x2
  | .modmul => 0x3
  | .modexp => 0x4
  | .mrtest => 0x5
  | .mrtestr => 0x6
  | .rsaxf => 0x7
  | .mgf1 _ => 0x8
  | .pssenc _ => 0x9
  | .pssdec _ => 0xA
  | .sign _ => 0xB
  | .verify _ => 0xC
  | .importReg _ => 0xD
  | .exportReg _ => 0xE

/-- The HSEL field of a command, 0 where it uses no hash (30_encoding.md R93). -/
def Instr.hselField : Instr → Nat
  | .mgf1 h | .pssenc h | .pssdec h | .sign h | .verify h => h.code
  | .modadd | .modsub | .modmul | .modexp | .mrtest | .mrtestr | .rsaxf | .importReg _ | .exportReg _ => 0

/-- The REG field of a command, 0 where it names no register (30_encoding.md R92). -/
def Instr.regField : Instr → Nat
  | .importReg r | .exportReg r => r.code
  | .modadd | .modsub | .modmul | .modexp | .mrtest | .mrtestr | .rsaxf | .mgf1 _ | .pssenc _ | .pssdec _ | .sign _
  | .verify _ => 0

/-- The complete word of a command, `OP + 16 * h + 64 * r` (30_encoding.md R96). -/
def encode (i : Instr) : Word := BitVec.ofNat 32 (i.op + 16 * i.hselField + 64 * i.regField)

/-- A command whose word passes the checks of `Cmd32.wellFormed`. -/
def Instr.wellFormed (i : Instr) : Bool := (Cmd32.ofWord (encode i)).wellFormed

/-- A row of the opcode map: the word `w` selects it when `w & mask = pattern` (30_encoding.md R96). -/
structure OpcodeRow where
  mnemonic : String
  pattern : Word
  mask : Word
deriving DecidableEq, Repr

/-- The fourteen rows of the opcode map (30_encoding.md R96). -/
def opcodeRows : List OpcodeRow :=
  [⟨"MODADD", 0x00000001, 0xFFFFFFFF⟩, ⟨"MODSUB", 0x00000002, 0xFFFFFFFF⟩, ⟨"MODMUL", 0x00000003, 0xFFFFFFFF⟩,
   ⟨"MODEXP", 0x00000004, 0xFFFFFFFF⟩, ⟨"MRTEST", 0x00000005, 0xFFFFFFFF⟩, ⟨"MRTESTR", 0x00000006, 0xFFFFFFFF⟩,
   ⟨"RSAXF", 0x00000007, 0xFFFFFFFF⟩, ⟨"MGF1", 0x00000008, 0xFFFFFFCF⟩, ⟨"PSSENC", 0x00000009, 0xFFFFFFCF⟩,
   ⟨"PSSDEC", 0x0000000A, 0xFFFFFFCF⟩, ⟨"SIGN", 0x0000000B, 0xFFFFFFCF⟩, ⟨"VERIFY", 0x0000000C, 0xFFFFFFCF⟩,
   ⟨"IMPORT", 0x0000000D, 0xFFFFFF3F⟩, ⟨"EXPORT", 0x0000000E, 0xFFFFFF3F⟩]

/-- The word selects the row (30_encoding.md R96). -/
def OpcodeRow.selects (row : OpcodeRow) (w : Word) : Bool := w &&& row.mask == row.pattern

/-- The command read from a word whose bits are `w`, the bits above `nbits` being 0: command words are 32 bits, bit 0
the least significant (30_encoding.md R90), so nothing is laid out in bytes. -/
def decodeTableWord (nbits w : Nat) : Option Instr :=
  match decode (BitVec.ofNat 32 (w % 2 ^ nbits)) with
  | .ok i => some i
  | .error _ => none

end Sys2Proof
end

