-- ==== Sys2Proof/Config.lean ====
section
/-! DEFINITION. What an implementation or its surroundings fix and the spec leaves open (00_scope.md R13), each an
uninterpreted constant, so that every claim holds whatever it is. BUS_BASE and the bus protocol change no rule
(20_memory.md R67) and have no counterpart here. -/

namespace Sys2Proof

/-- How far MAXBITS (00_scope.md R6) exceeds 2048. DEDUCED, log entry 7. -/
opaque Config.maxBitsBeyond : Nat

/-- MAXBITS, the largest key size the implementation supports (00_scope.md R6). It is at least the 2048 bits of the
scenario S8 of 95_test_vectors.md, which every implementation must run. DEDUCED, log entry 7; unsafe for a smaller block. -/
def Config.maxBits : Nat := 2048 + Config.maxBitsBeyond

/-- Byte `j` of the digest of a byte string under the selected hash (00_scope.md R9). Nothing else of the hash is
assumed. Log entry 9. -/
opaque Config.hashByte : HashSel → List Byte → Nat → Byte

/-- How far HASH_MAX_IN(h) (00_scope.md R10) exceeds the shortest input the PSS commands need of it
(93_implementation_defined.md U8). Log entry 8. -/
opaque Config.hashMaxInBeyond : HashSel → Nat

/-- The answer of the random source to the `i`-th draw since the beginning (00_scope.md R11), a free value.
Log entry 4. -/
opaque Config.drawAnswer : Nat → Nat

/-- What the `i`-th unspecified host read returns (20_memory.md R71), a free value. Log entry 5. -/
opaque Config.busyRead : Nat → Nat

/-- How far a command had come in its draws when a reset abandoned it (70_reset_and_hazards.md R291), a free value.
Log entry 16. -/
opaque Config.abandonedDraws : Nat → Nat

end Sys2Proof
end

