-- ==== Sys2Proof/Machine/State.lean ====
section
/-! DEFINITION. The state of one block instance (10_state.md R20), the reasons a step can stop, and the state after
reset (10_state.md R37). -/

namespace Sys2Proof.Machine

/-- A byte buffer: address and byte pairs in rising order, none of them 0x00, which is what an unlisted address reads as
(10_state.md R37: every byte 0x00 after reset). -/
abbrev Memory := List Host.Cell

/-- The fields of STATUS (10_state.md R23). The reserved bits have no field: they read as 0 (`Status.word`). -/
structure Status where
  busy : Bool
  done : Bool
  fatal : Bool
  prime : Bool
  err : Byte
deriving DecidableEq, Repr

/-- One move of an agent outside the sequencer's own computation. A list of them says which agent moves next
(20_memory.md R69, R70; log entry 3). -/
inductive Move where
  /-- the host writes the whole value to the register index, or to the byte `offset` of a buffer's index (10_state.md R38) -/
  | write (index : Nat) (offset : DWord) (value : Nat)
  /-- the host reads the register index, or the byte `offset` of a buffer's index -/
  | read (index : Nat) (offset : DWord)
  /-- the block reaches the completion event of the command in flight (20_memory.md R70); nothing happens when idle -/
  | block
  /-- the platform's hardware reset (70_reset_and_hazards.md R290) -/
  | hardwareReset
deriving DecidableEq, Repr

/-- The machine stops with a fault. No command raises one: every command ends (60_exceptions.md R250). -/
inductive Fault where
  /-- Raised by a step whose move is a host write of a value wider than the register: no such access exists at the level
  of the model (20_memory.md R77, 10_state.md R33). Safe: the model stops. Log entry 10. -/
  | hostValueTooWide
deriving DecidableEq, Repr

/-- The model gives no meaning. -/
inductive Refusal where
  /-- Raised by `exec` for an instruction without a meaning yet. Safe. No arm of `exec` raises it. -/
  | notModelled (mnemonic : String)
deriving DecidableEq, Repr

/-- The state. CTRL stores nothing and has no field (10_state.md R24, log entry 12). -/
structure State where
  /-- OPA, OPB, MOD, RES (10_state.md R21) -/
  opa : Nat
  opb : Nat
  mod : Nat
  res : Nat
  /-- STATUS (10_state.md R23) -/
  status : Status
  /-- CMD, the last stored command word (10_state.md R25) -/
  cmd : Word
  /-- KEYBITS, the key size K (10_state.md R26) -/
  keybits : Word
  /-- MR_ROUNDS (10_state.md R27) -/
  mrRounds : Word
  /-- MSGLEN (10_state.md R28) -/
  msglen : DWord
  /-- OUTLEN (10_state.md R29) -/
  outlen : DWord
  /-- MSG, EM, OUT (10_state.md R30 to R32) -/
  msg : Memory
  em : Memory
  out : Memory
  /-- The model's own: the moves to come, oldest first (log entry 3). -/
  schedule : List Move
  /-- The model's own: answers of the random source fixed beforehand, used first (log entry 4). -/
  draws : List Nat
  /-- The model's own: how many draws were consumed (log entry 4). -/
  drawPos : Nat
  /-- The model's own: how many free values of `Config.busyRead` and `Config.abandonedDraws` were taken (log
  entries 5 and 16). -/
  freePos : Nat
  /-- The model's own: what the last host read returned (log entry 11). -/
  readData : Option Nat
deriving DecidableEq, Repr

/-- STATUS after reset (10_state.md R37). -/
def Status.reset : Status := { busy := false, done := false, fatal := false, prime := false, err := 0 }

/-- The state after reset (10_state.md R37), with nothing to come and nothing drawn (log entries 3, 4, 5, 11). -/
def State.reset : State :=
  { opa := 0, opb := 0, mod := 0, res := 0, status := Status.reset, cmd := 0, keybits := 0, mrRounds := 50,
    msglen := 0, outlen := 0, msg := [], em := [], out := [],
    schedule := [], draws := [], drawPos := 0, freePos := 0, readData := none }

end Sys2Proof.Machine
end

