-- ==== Sys2Proof/Machine/Flags.lean ====
section
/-! DEFINITION. STATUS: its 32-bit view, the error codes, and the four ways a command's events write it
(10_state.md R23, 20_memory.md R70, 60_exceptions.md R251 to R256). -/

namespace Sys2Proof.Machine

/-- The recoverable error kinds (60_exceptions.md R251). -/
inductive ErrorKind where
  | messageOutOfRange
  | messageTooLong
  | hashTooLong
  | maskTooLong
  | invalidTrailer
  | invalidLeadingBit
  | invalidPadding
  | hashMismatch
  | widthOverflow
  | illegalCommand
  | badConfig
deriving DecidableEq, Repr

/-- The code of an error kind in STATUS.ERR (60_exceptions.md R251). -/
def ErrorKind.code : ErrorKind → Byte
  | .messageOutOfRange => 0x01
  | .messageTooLong => 0x02
  | .hashTooLong => 0x03
  | .maskTooLong => 0x04
  | .invalidTrailer => 0x05
  | .invalidLeadingBit => 0x06
  | .invalidPadding => 0x07
  | .hashMismatch => 0x08
  | .widthOverflow => 0x09
  | .illegalCommand => 0x0A
  | .badConfig => 0x0B

/-- STATUS as the 32-bit word the host reads: BUSY, DONE, FATAL, PRIME in bits 0 to 3, ERR in bits 15:8, the rest 0
(10_state.md R23). -/
def Status.word (t : Status) : Word :=
  BitVec.ofNat 32 (t.busy.toNat + 2 * t.done.toNat + 4 * t.fatal.toNat + 8 * t.prime.toNat + 256 * t.err.toNat)

/-- What the issue of a command does to STATUS (20_memory.md R70). -/
def Status.issue (t : Status) : Status := { t with busy := true, done := false, prime := false, err := 0 }

/-- What a completion without error does to STATUS (20_memory.md R70). -/
def Status.complete (t : Status) : Status := { t with busy := false, done := true }

/-- What an error completion does to STATUS (60_exceptions.md R253). -/
def Status.completeError (k : ErrorKind) (t : Status) : Status := { t with busy := false, done := true, err := k.code }

/-- What the fatal halt does to STATUS: DONE stays as the issue left it (60_exceptions.md R256). -/
def Status.halt (t : Status) : Status := { t with busy := false, fatal := true }

/-- The answer of a primality test (41_miller_rabin.md R150, R154, R156). -/
def Status.withPrime (p : Bool) (t : Status) : Status := { t with prime := p }

end Sys2Proof.Machine
end

