-- ==== Sys2Proof/Machine/Ops.lean ====
section
/-! DEFINITION. The operations every command shares: byte strings and their integers, the byte buffers, the hash and the
draws, and the events of a command: issue, completion, error completion, fatal halt, reset. -/

namespace Sys2Proof.Machine

/-! ### Byte strings and integers (00_scope.md R16, R17; big-endian, 20_memory.md R62) -/

/-- `OS2IP(X)`: the first byte is the most significant (00_scope.md R17). -/
def os2ip (X : List Byte) : Nat := X.foldl (fun acc b => 256 * acc + b.toNat) 0

/-- `I2OSP(v, n)` (00_scope.md R17), zero-padded at the front. The spec defines it for `v < 256^n` only, and every
rule that uses it has checked that; beyond, this total function gives the low `n` bytes (log entry 13). -/
def i2osp (v : Nat) : Nat → List Byte
  | 0 => []
  | n + 1 => BitVec.ofNat 8 (v / 256 ^ n) :: i2osp v n

/-- `zeros(n)` (00_scope.md R16). -/
def zeros (n : Nat) : List Byte := List.replicate n 0

/-- `xor(X, Y)` of two strings of equal length (00_scope.md R16). -/
def xorBytes (X Y : List Byte) : List Byte := List.zipWith (· ^^^ ·) X Y

/-- `X[a..b)` (00_scope.md R16). -/
def slice (X : List Byte) (a b : Nat) : List Byte := (X.take b).drop a

/-- `X[0] <- X[0] & 0x7F` (44_pss.md R199, R208). -/
def clearTopBit : List Byte → List Byte
  | [] => []
  | b :: rest => (b &&& 0x7F) :: rest

/-! ### Byte buffers (20_memory.md R60, 00_scope.md R18) -/

/-- The byte at index `a`; an unlisted index holds 0x00 (10_state.md R37). -/
def Memory.read (m : Memory) (a : Nat) : Byte :=
  match m with
  | [] => 0
  | (a', b) :: rest => if a = a' then b else Memory.read rest a

/-- Write of one byte, keeping the form of `Memory`. -/
def Memory.write (m : Memory) (a : Nat) (b : Byte) : Memory :=
  match m with
  | [] => if b = 0 then [] else [(a, b)]
  | (a', b') :: rest =>
    if a < a' then (if b = 0 then (a', b') :: rest else (a, b) :: (a', b') :: rest)
    else if a = a' then (if b = 0 then rest else (a, b) :: rest)
    else (a', b') :: Memory.write rest a b

/-- `MemRead(S + a, n)`: lowest index first (00_scope.md R18). -/
def Memory.readBytes (m : Memory) (a n : Nat) : List Byte := (List.range n).map fun i => m.read (a + i)

/-- `MemWrite(S + a, len(X), X)` (00_scope.md R18). -/
def Memory.writeBytes (m : Memory) (a : Nat) (X : List Byte) : Memory :=
  match X with
  | [] => m
  | b :: rest => Memory.writeBytes (m.write a b) (a + 1) rest

/-- The form of a buffer: addresses strictly rising and every listed byte other than 0x00. -/
def Memory.wf (m : Memory) : Bool :=
  match m with
  | [] => true
  | (a, b) :: rest => b != 0 && rest.all (fun c => decide (a < c.1)) && Memory.wf rest

/-- Every listed address is below `n`. -/
def Memory.below (m : Memory) (n : Nat) : Bool := m.all fun c => decide (c.1 < n)

/-! ### Key size, hash and draws -/

/-- `K` (00_scope.md R5). -/
def State.keySize (s : State) : Nat := s.keybits.toNat

/-- `kLen = K / 8` (00_scope.md R5). -/
def State.kLen (s : State) : Nat := s.keySize / 8

/-- `K` is a legal key size (00_scope.md R5). -/
def legalKeySize (K : Nat) : Bool := decide (0 < K) && K % 8 == 0 && decide (K ≤ Config.maxBits)

/-- KEYBITS holds a legal key size. -/
def State.legal (s : State) : Bool := legalKeySize s.keySize

/-- The digest length in bytes (00_scope.md R7). -/
def hLen : HashSel → Nat
  | .h224 => 28
  | .h256 => 32
  | .h384 => 48
  | .h512 => 64

/-- `Hash_h`: total, and its output has exactly `hLen h` bytes (00_scope.md R9; log entry 9). -/
def hash (h : HashSel) (X : List Byte) : List Byte := (List.range (hLen h)).map (Config.hashByte h X)

/-- `HASH_MAX_IN(h)` (00_scope.md R10), at least `8 + 2 * hLen h` by the side condition of
93_implementation_defined.md U8 (log entry 8). -/
def hashMaxIn (h : HashSel) : Nat := 8 + 2 * hLen h + Config.hashMaxInBeyond h

/-- The answer to the `i`-th of the draws still to come: the answers fixed beforehand, then the free values
(00_scope.md R11; log entry 4). -/
def State.draw (s : State) (i : Nat) : Nat := (s.draws[i]?).getD (Config.drawAnswer (s.drawPos + i))

/-- `n` draws are consumed (10_state.md R36). -/
def State.consumeDraws (s : State) (n : Nat) : State := { s with draws := s.draws.drop n, drawPos := s.drawPos + n }

/-- `Draw(n)` from an answer: `n` bytes, every string of `n` bytes being some answer's (00_scope.md R11). -/
def drawBytes (n answer : Nat) : List Byte := i2osp answer n

/-- `DrawNat(lo, hi)` from an answer: an answer in the range stands for itself, and the others are folded into the
range (41_miller_rabin.md R157, 93_implementation_defined.md U5; log entry 4). -/
def drawNat (lo hi answer : Nat) : Nat := lo + (answer - lo) % (hi - lo + 1)

/-! ### The events of a command -/

/-- Issue of the word `w` (20_memory.md R70). No snapshot is stored: while BUSY = 1 no access changes an operand
(20_memory.md R71; log entry 2). -/
def State.issue (w : Word) (s : State) : State := { s with cmd := w, status := s.status.issue }

/-- Completion without error, the outputs being written in `s` (20_memory.md R70). -/
def State.complete (s : State) : State := { s with status := s.status.complete }

/-- Error completion (60_exceptions.md R253): what the block has for taking an exception. Nothing but STATUS changes. -/
def State.completeError (k : ErrorKind) (s : State) : State := { s with status := s.status.completeError k }

/-- The fatal halt (60_exceptions.md R256). It is a state and not a `Fault`: register accesses and reset still work in
it. Log entry 1. -/
def State.halt (s : State) : State := { s with status := s.status.halt }

/-- What a reset does to the block's own state: every register and buffer takes its reset value (10_state.md R37), and what
stands outside the block stays (log entry 11). There is no return from an error or from the fatal halt but a reset
(60_exceptions.md R259). -/
def State.resetBlock (s : State) : State :=
  { State.reset with schedule := s.schedule, draws := s.draws, drawPos := s.drawPos, freePos := s.freePos,
                     readData := s.readData }

/-- What every command does first once decoded: BadConfig unless KEYBITS is legal (60_exceptions.md R255). -/
def State.whenLegal (s : State) (body : State → State) : Host.Outcome State Fault Refusal :=
  .next (if s.legal then body s else s.completeError .badConfig)

end Sys2Proof.Machine
end

