-- ==== Sys2Proof/Machine/Operands.lean ====
section
/-! DEFINITION. Where the commands take their operands and put their results (30_encoding.md R95, 20_memory.md R61,
46_control_load_store_system.md R242, R243). -/

namespace Sys2Proof.Machine

/-- `x[i]` (00_scope.md R18). -/
def State.getBig (s : State) : BigReg → Nat
  | .opa => s.opa
  | .opb => s.opb
  | .mod => s.mod
  | .res => s.res

/-- `x[i] <- v` (00_scope.md R18). -/
def State.setBig (s : State) (r : BigReg) (v : Nat) : State :=
  match r with
  | .opa => { s with opa := v }
  | .opb => { s with opb := v }
  | .mod => { s with mod := v }
  | .res => { s with res := v }

/-- `RES <- v` (00_scope.md R18). -/
def State.setRes (s : State) (v : Nat) : State := { s with res := v }

/-- `MemRead(MSG + 0, MSGLEN)`: the message, the seed or the imported string (46_control_load_store_system.md R243). -/
def State.message (s : State) : List Byte := s.msg.readBytes 0 s.msglen.toNat

/-- `MemRead(EM + 0, kLen)` (46_control_load_store_system.md R243). -/
def State.encoded (s : State) : List Byte := s.em.readBytes 0 s.kLen

/-- `MemWrite(EM + 0, len(X), X)` (46_control_load_store_system.md R243). -/
def State.putEm (s : State) (X : List Byte) : State := { s with em := s.em.writeBytes 0 X }

/-- `MemWrite(OUT + 0, len(X), X)` (46_control_load_store_system.md R243). -/
def State.putOut (s : State) (X : List Byte) : State := { s with out := s.out.writeBytes 0 X }

/-- `STATUS.PRIME <- p` (41_miller_rabin.md R150). -/
def State.setPrime (s : State) (p : Bool) : State := { s with status := s.status.withPrime p }

end Sys2Proof.Machine
end

