-- ==== Sys2Proof/Machine/BigInt.lean ====
section
/-! DEFINITION. IMPORT, EXPORT and the four modular operations (40_bigint_modular.md). -/

namespace Sys2Proof.Machine

/-- The loop of `ModExp`, once per bit of `e`, least significant first (40_bigint_modular.md R128). -/
def modExpLoop (m : Nat) : Nat → Nat → Nat → Nat → Nat
  | 0, acc, _, _ => acc
  | fuel + 1, acc, p, e =>
    if e = 0 then acc
    else modExpLoop m fuel (if e % 2 = 1 then acc * p % m else acc) (p * p % m) (e / 2)

/-- `ModExp(base, exp, m)` (40_bigint_modular.md R128); the loop runs up to the highest set bit of `exp`. -/
def modExp (base exp m : Nat) : Nat := modExpLoop m (exp.log2 + 1) (1 % m) (base % m) exp

/-- The four modular operations: the fatal halt on a zero modulus, else `RES` (40_bigint_modular.md R121). -/
def State.modular (f : Nat → Nat → Nat → Nat) (s : State) : State :=
  if s.mod = 0 then s.halt else (s.setRes (f s.opa s.opb s.mod)).complete

/-- MODADD (40_bigint_modular.md R124). -/
def execModadd (s : State) : Host.Outcome State Fault Refusal :=
  s.whenLegal (State.modular fun a b m => (a + b) % m)

/-- MODSUB (40_bigint_modular.md R125). -/
def execModsub (s : State) : Host.Outcome State Fault Refusal :=
  s.whenLegal (State.modular fun a b m => (a % m + m - b % m) % m)

/-- MODMUL (40_bigint_modular.md R126). -/
def execModmul (s : State) : Host.Outcome State Fault Refusal :=
  s.whenLegal (State.modular fun a b m => (a * b) % m)

/-- MODEXP (40_bigint_modular.md R127). -/
def execModexp (s : State) : Host.Outcome State Fault Refusal :=
  s.whenLegal (State.modular modExp)

/-- IMPORT (40_bigint_modular.md R122). -/
def execImport (r : BigReg) (s : State) : Host.Outcome State Fault Refusal :=
  s.whenLegal fun s =>
    if 2 ^ s.keySize ≤ os2ip s.message then s.completeError .widthOverflow
    else (s.setBig r (os2ip s.message)).complete

/-- EXPORT (40_bigint_modular.md R123). -/
def execExport (r : BigReg) (s : State) : Host.Outcome State Fault Refusal :=
  s.whenLegal fun s =>
    if 256 ^ s.outlen.toNat ≤ s.getBig r then s.completeError .widthOverflow
    else (s.putOut (i2osp (s.getBig r) s.outlen.toNat)).complete

end Sys2Proof.Machine
end

