-- ==== Sys2Proof/Machine/Cipher.lean ====
section
/-! DEFINITION. The RSA cipher: RSAXF (42_rsa_cipher.md). -/

namespace Sys2Proof.Machine

/-- `rsa_transform(m, k, n)`: the range check on the unreduced operand, then `m ^ k mod n` (42_rsa_cipher.md R170,
R171). A zero modulus fails the range check (R172). -/
def rsaTransform (m k n : Nat) : Except ErrorKind Nat :=
  if n ≤ m then .error .messageOutOfRange else .ok (modExp m k n)

/-- RSAXF (42_rsa_cipher.md R170). -/
def execRsaxf (s : State) : Host.Outcome State Fault Refusal :=
  s.whenLegal fun s =>
    match rsaTransform s.opa s.opb s.mod with
    | .error k => s.completeError k
    | .ok v => (s.setRes v).complete

end Sys2Proof.Machine
end

