-- ==== Sys2Proof/Machine/Mgf.lean ====
section
/-! DEFINITION. The mask generator: MGF1 (43_mgf1.md). The functions take the hash as an argument, so that the spec's toy
hash can be put in its place. -/

namespace Sys2Proof.Machine

/-- The loop of `Mgf_h` at counter `i` with `T` gathered (43_mgf1.md R181). -/
def mgfLoop (H : List Byte → List Byte) (seed : List Byte) (L : Nat) : Nat → Nat → List Byte → List Byte
  | 0, _, T => T
  | fuel + 1, i, T => if T.length < L then mgfLoop H seed L fuel (i + 1) (T ++ H (seed ++ i2osp i 4)) else T

/-- `Mgf_h(seed, L)` (43_mgf1.md R181). A digest has at least one byte, so `L` turns of the loop are enough. -/
def mgf (H : List Byte → List Byte) (seed : List Byte) (L : Nat) : List Byte := (mgfLoop H seed L L 0 []).take L

/-- MGF1 (43_mgf1.md R180, R182). -/
def execMgf1 (h : HashSel) (s : State) : Host.Outcome State Fault Refusal :=
  s.whenLegal fun s =>
    if 2 ^ 32 * hLen h < s.outlen.toNat then s.completeError .maskTooLong
    else (s.putOut (mgf (hash h) s.message s.outlen.toNat)).complete

end Sys2Proof.Machine
end

