-- ==== Sys2Proof/Machine/MillerRabin.lean ====
section
/-! DEFINITION. The Miller-Rabin engine: MRTEST and MRTESTR (41_miller_rabin.md). -/

namespace Sys2Proof.Machine

/-- The fixed witness set, in order (00_scope.md R12). -/
def witnesses : List Nat := [2, 3, 5, 7, 11, 13, 17, 19, 23, 29, 31, 37]

/-- The answers of the pre-check (41_miller_rabin.md R151). -/
inductive PreCheck where
  | reject
  | accept
  | test
deriving DecidableEq, Repr

/-- `PreCheck(n)` (41_miller_rabin.md R151). -/
def preCheck (n : Nat) : PreCheck :=
  if n < 2 then .reject else if n = 2 then .accept else if n % 2 = 0 then .reject else .test

/-- Halve while even: how often, and what is left. -/
def halvings : Nat → Nat → Nat × Nat
  | 0, m => (0, m)
  | fuel + 1, m => if m % 2 = 0 then ((halvings fuel (m / 2)).1 + 1, (halvings fuel (m / 2)).2) else (0, m)

/-- `(k, q)` with `n - 1 = 2^k * q` and `q` odd, for odd `n >= 3` (41_miller_rabin.md R152). -/
def decompose (n : Nat) : Nat × Nat := halvings ((n - 1).log2 + 1) (n - 1)

/-- The squarings of a witness round: true when one of the next `j` gives `n - 1` (41_miller_rabin.md R153). -/
def squaresReach (n : Nat) : Nat → Nat → Bool
  | 0, _ => false
  | j + 1, t => if t * t % n = n - 1 then true else squaresReach n j (t * t % n)

/-- `MRRound(n, k, q, a)`: true for Inconclusive, false for Composite (41_miller_rabin.md R153). -/
def mrRound (n k q a : Nat) : Bool :=
  if modExp a q n = 1 ∨ modExp a q n = n - 1 then true else squaresReach n (k - 1) (modExp a q n)

/-- The witness loop: a witness `a >= n - 1` is skipped, and the first Composite decides (41_miller_rabin.md R154,
90_conflicts.md C4). -/
def witnessLoop (n k q : Nat) : List Nat → Bool
  | [] => true
  | a :: rest =>
    if n - 1 ≤ a then witnessLoop n k q rest
    else if mrRound n k q a then witnessLoop n k q rest else false

/-- The answer of MRTEST (41_miller_rabin.md R154). -/
def mrTest (n : Nat) : Bool :=
  match preCheck n with
  | .reject => false
  | .accept => true
  | .test => witnessLoop n (decompose n).1 (decompose n).2 witnesses

/-- The rounds of MRTESTR: at most `R` more, the next base coming from answer `i`; the verdict, and the number of answers
used in all (41_miller_rabin.md R156, R157). -/
def baseLoop (n k q : Nat) (draw : Nat → Nat) : Nat → Nat → Bool × Nat
  | 0, i => (true, i)
  | R + 1, i => if mrRound n k q (drawNat 2 (n - 2) (draw i)) then baseLoop n k q draw R (i + 1) else (false, i + 1)

/-- The answer of MRTESTR and the number of draws it consumes (41_miller_rabin.md R156). -/
def mrTestRandom (n R : Nat) (draw : Nat → Nat) : Bool × Nat :=
  if n = 3 then (true, 0)
  else match preCheck n with
    | .reject => (false, 0)
    | .accept => (true, 0)
    | .test => baseLoop n (decompose n).1 (decompose n).2 draw R 0

/-- MRTEST (41_miller_rabin.md R154). -/
def execMrtest (s : State) : Host.Outcome State Fault Refusal :=
  s.whenLegal fun s => (s.setPrime (mrTest s.opa)).complete

/-- MRTESTR (41_miller_rabin.md R156). -/
def execMrtestr (s : State) : Host.Outcome State Fault Refusal :=
  s.whenLegal fun s =>
    ((s.consumeDraws (mrTestRandom s.opa s.mrRounds.toNat s.draw).2).setPrime
      (mrTestRandom s.opa s.mrRounds.toNat s.draw).1).complete

end Sys2Proof.Machine
end

