-- ==== Sys2Proof/Machine/Pss.lean ====
section
/-! DEFINITION. The PSS commands: PSSENC, PSSDEC, SIGN, VERIFY (44_pss.md). The encoder and the decoder take the hash
`H` with its digest length `hl` as arguments, so that the spec's toy hash can be put in its place. -/

namespace Sys2Proof.Machine

/-- `dbLen = kLen - hLen - 1` (44_pss.md R191). -/
def dbLen (kl hl : Nat) : Nat := kl - hl - 1

/-- `psLen = kLen - 2 * hLen - 2` (44_pss.md R191). -/
def psLen (kl hl : Nat) : Nat := kl - 2 * hl - 2

/-- The setup checks, in order (44_pss.md R192). -/
def pssSetup (h : HashSel) (s : State) : Option ErrorKind :=
  if s.kLen < 2 * hLen h + 9 then some .hashTooLong
  else if hashMaxIn h < s.msglen.toNat then some .messageTooLong
  else none

/-- `M' = zeros(8) ‖ mHash ‖ salt` (44_pss.md R194). -/
def mPrime (mHash salt : List Byte) : List Byte := zeros 8 ++ mHash ++ salt

/-- `DB = zeros(psLen) ‖ 0x01 ‖ salt` (44_pss.md R197). -/
def dataBlock (kl hl : Nat) (salt : List Byte) : List Byte := zeros (psLen kl hl) ++ [0x01] ++ salt

/-- `PssEncode` (44_pss.md R202). -/
def pssEncode (H : List Byte → List Byte) (hl kl : Nat) (M salt : List Byte) : List Byte :=
  let digest := H (mPrime (H M) salt)
  clearTopBit (xorBytes (dataBlock kl hl salt) (mgf H digest (dbLen kl hl)) ++ digest ++ [0xBC])

/-- `DB` as the decoder recovers it (44_pss.md R207, R208, 92_eei_decisions.md D42). -/
def recoverDB (H : List Byte → List Byte) (hl kl : Nat) (EM : List Byte) : List Byte :=
  clearTopBit (xorBytes (slice EM 0 (dbLen kl hl))
    (mgf H (slice EM (dbLen kl hl) (dbLen kl hl + hl)) (dbLen kl hl)))

/-- `PssDecode` (44_pss.md R203): the first check that fails, or none for Valid. -/
def pssDecode (H : List Byte → List Byte) (hl kl : Nat) (M EM : List Byte) : Option ErrorKind :=
  if EM[kl - 1]?.getD 0 ≠ 0xBC then some .invalidTrailer
  else if EM[0]?.getD 0 &&& 0x80 ≠ 0 then some .invalidLeadingBit
  else
    let DB := recoverDB H hl kl EM
    if slice DB 0 (psLen kl hl) ≠ zeros (psLen kl hl) ∨ DB[psLen kl hl]?.getD 0 ≠ 0x01 then some .invalidPadding
    else if H (mPrime (H M) (slice DB (dbLen kl hl - hl) (dbLen kl hl))) ≠
        slice EM (dbLen kl hl) (dbLen kl hl + hl) then some .hashMismatch
    else none

/-- The encoding of the message under the selected hash with the next draw as salt (44_pss.md R193, R195, R202). -/
def State.encodeNext (h : HashSel) (s : State) : List Byte :=
  pssEncode (hash h) (hLen h) s.kLen s.message (drawBytes (hLen h) (s.draw 0))

/-- The end of a decoding command: STATUS only (44_pss.md R212, R213). -/
def State.completeDecode (h : HashSel) (EM : List Byte) (s : State) : State :=
  match pssDecode (hash h) (hLen h) s.kLen s.message EM with
  | some k => s.completeError k
  | none => s.complete

/-- The four PSS commands: the setup checks, then the command's body (44_pss.md R192). -/
def State.whenFits (h : HashSel) (body : State → State) (s : State) : State :=
  match pssSetup h s with
  | some k => s.completeError k
  | none => body s

/-- PSSENC (44_pss.md R200). -/
def execPssenc (h : HashSel) (s : State) : Host.Outcome State Fault Refusal :=
  s.whenLegal (State.whenFits h fun s => ((s.consumeDraws 1).putEm (s.encodeNext h)).complete)

/-- PSSDEC (44_pss.md R212). -/
def execPssdec (h : HashSel) (s : State) : Host.Outcome State Fault Refusal :=
  s.whenLegal (State.whenFits h fun s => s.completeDecode h s.encoded)

/-- SIGN (44_pss.md R201): the salt is drawn before the range check. -/
def execSign (h : HashSel) (s : State) : Host.Outcome State Fault Refusal :=
  s.whenLegal (State.whenFits h fun s =>
    match rsaTransform (os2ip (s.encodeNext h)) s.opb s.mod with
    | .error k => (s.consumeDraws 1).completeError k
    | .ok v => ((s.consumeDraws 1).setRes v).complete)

/-- VERIFY (44_pss.md R213). -/
def execVerify (h : HashSel) (s : State) : Host.Outcome State Fault Refusal :=
  s.whenLegal (State.whenFits h fun s =>
    match rsaTransform s.opa s.opb s.mod with
    | .error k => s.completeError k
    | .ok v => s.completeDecode h (i2osp v s.kLen))

end Sys2Proof.Machine
end

