-- ==== Sys2Proof/Machine/Dispatch.lean ====
section
/-! DEFINITION. The completion of a decoded command in a state where it is in flight (20_memory.md R70). -/

namespace Sys2Proof.Machine

def exec (i : Instr) (s : State) : Host.Outcome State Fault Refusal :=
  match i with
  | .modadd => Sys2Proof.Machine.execModadd s
  | .modsub => Sys2Proof.Machine.execModsub s
  | .modmul => Sys2Proof.Machine.execModmul s
  | .modexp => Sys2Proof.Machine.execModexp s
  | .mrtest => Sys2Proof.Machine.execMrtest s
  | .mrtestr => Sys2Proof.Machine.execMrtestr s
  | .rsaxf => Sys2Proof.Machine.execRsaxf s
  | .mgf1 h => Sys2Proof.Machine.execMgf1 h s
  | .pssenc h => Sys2Proof.Machine.execPssenc h s
  | .pssdec h => Sys2Proof.Machine.execPssdec h s
  | .sign h => Sys2Proof.Machine.execSign h s
  | .verify h => Sys2Proof.Machine.execVerify h s
  | .importReg r => Sys2Proof.Machine.execImport r s
  | .exportReg r => Sys2Proof.Machine.execExport r s

end Sys2Proof.Machine
end

