-- ==== Sys2Proof/Machine/Events.lean ====
section
/-! DEFINITION. The two ways a command in flight is over: its completion event (20_memory.md R70) and the reset that
abandons it (70_reset_and_hazards.md R290, R291). -/

namespace Sys2Proof.Machine

/-- The completion event of the word in CMD: an illegal word ends with IllegalCommand and changes nothing else
(30_encoding.md R97), a command does what it does. -/
def completeWord (s : State) : Host.Outcome State Fault Refusal :=
  match decode s.cmd with
  | .ok i => exec i s
  | .error _ => .next (s.completeError .illegalCommand)

/-- How many draws the command in flight consumes on the way to its completion event; 0 when idle (10_state.md R36). -/
def State.pendingDraws (s : State) : Nat :=
  if s.status.busy then
    match completeWord s with
    | .next t => t.drawPos - s.drawPos
    | .fault _ => 0
    | .refused _ => 0
  else 0

/-- The random source once the command in flight is abandoned: the draws already consumed stay consumed
(70_reset_and_hazards.md R291). How far the command had come is open, so how many they are, from none to all it would have
consumed, is a free value. Log entry 16. -/
def State.abandonCommand (s : State) : State :=
  if s.pendingDraws = 0 then s
  else { s.consumeDraws (Config.abandonedDraws s.freePos % (s.pendingDraws + 1)) with freePos := s.freePos + 1 }

/-- Reset, of either kind and in every state: the command in flight is abandoned, and the block's state takes its reset
value (70_reset_and_hazards.md R290, R291). -/
def State.resetEvent (s : State) : State := s.abandonCommand.resetBlock

end Sys2Proof.Machine
end

