-- ==== Sys2Proof/Machine/Access.lean ====
section
/-! DEFINITION. The host's register and buffer accesses (10_state.md R21 to R38, 20_memory.md R64, R66, R71,
46_control_load_store_system.md R245). -/

namespace Sys2Proof.Machine

/-- What a register index names (10_state.md R38). -/
inductive Port where
  | ctrl
  | status
  | cmd
  | keybits
  | mrRounds
  | msglen
  | outlen
  | big (r : BigReg)
  | msg
  | em
  | out
  | reserved
deriving DecidableEq, Repr

/-- The index table (10_state.md R38). -/
def Port.ofIndex (index : Nat) : Port :=
  match index with
  | 0x00 => .ctrl
  | 0x01 => .status
  | 0x02 => .cmd
  | 0x03 => .keybits
  | 0x04 => .mrRounds
  | 0x05 => .msglen
  | 0x06 => .outlen
  | 0x10 => .big .opa
  | 0x11 => .big .opb
  | 0x12 => .big .mod
  | 0x13 => .big .res
  | 0x20 => .msg
  | 0x21 => .em
  | 0x22 => .out
  | _ => .reserved

/-- The width in bits of a value at a port (10_state.md R38), none where the spec gives none: a reserved index, and a
big-integer register while KEYBITS is not legal. -/
def Port.width (p : Port) (s : State) : Option Nat :=
  match p with
  | .ctrl | .status | .cmd | .keybits | .mrRounds => some 32
  | .msglen | .outlen => some 64
  | .big _ => if s.legal then some s.keySize else none
  | .msg | .em | .out => some 8
  | .reserved => none

/-- The value fits the width of the port. -/
def Port.fits (p : Port) (v : Nat) (s : State) : Bool :=
  match p.width s with
  | some n => decide (v < 2 ^ n)
  | none => true

/-- Every write but one to CTRL is ignored while BUSY = 1 (20_memory.md R71). -/
def State.ifIdle (s : State) (f : State → State) : State := if s.status.busy then s else f s

/-- A KEYBITS write stores the value and zeroes the big-integer registers and EM (10_state.md R26, R34). -/
def State.setKeybits (v : Word) (s : State) : State :=
  { s with keybits := v, opa := 0, opb := 0, mod := 0, res := 0, em := [] }

/-- A write to MR_ROUNDS (10_state.md R27). -/
def State.setMrRounds (v : Word) (s : State) : State := { s with mrRounds := v }

/-- A write to MSGLEN (10_state.md R28). -/
def State.setMsglen (v : DWord) (s : State) : State := { s with msglen := v }

/-- A write to OUTLEN (10_state.md R29). -/
def State.setOutlen (v : DWord) (s : State) : State := { s with outlen := v }

/-- A write of one byte of MSG (10_state.md R30). -/
def State.setMsgByte (a : Nat) (b : Byte) (s : State) : State := { s with msg := s.msg.write a b }

/-- A write of one byte of EM, ignored while KEYBITS is not legal and at an index `>= kLen` (10_state.md R31, R33,
20_memory.md R64). -/
def State.setEmByte (a : Nat) (b : Byte) (s : State) : State :=
  if s.legal && decide (a < s.kLen) then { s with em := s.em.write a b } else s

/-- A write of a big-integer register by the host: RES is read only, and nothing is stored while KEYBITS is not legal
(10_state.md R21, R33). -/
def State.hostSetBig (r : BigReg) (v : Nat) (s : State) : State :=
  match r with
  | .res => s
  | .opa | .opb | .mod => if s.legal then s.setBig r v else s

/-- A write to CMD: it issues a command unless FATAL = 1 (10_state.md R25). -/
def State.writeCmd (w : Word) (s : State) : State := if s.status.fatal then s else s.issue w

/-- What a host write does, row by row of 46_control_load_store_system.md R245. The value fits the port. -/
def hostWrite (p : Port) (offset : DWord) (v : Nat) (s : State) : State :=
  match p with
  | .ctrl => if v % 2 = 1 then s.resetEvent else s
  | .status => s
  | .cmd => s.ifIdle (State.writeCmd (BitVec.ofNat 32 v))
  | .keybits => s.ifIdle (State.setKeybits (BitVec.ofNat 32 v))
  | .mrRounds => s.ifIdle (State.setMrRounds (BitVec.ofNat 32 v))
  | .msglen => s.ifIdle (State.setMsglen (BitVec.ofNat 64 v))
  | .outlen => s.ifIdle (State.setOutlen (BitVec.ofNat 64 v))
  | .big r => s.ifIdle (State.hostSetBig r v)
  | .msg => s.ifIdle (State.setMsgByte offset.toNat (BitVec.ofNat 8 v))
  | .em => s.ifIdle (State.setEmByte offset.toNat (BitVec.ofNat 8 v))
  | .out => s
  | .reserved => s

/-- What a host read returns (46_control_load_store_system.md R245); none where the value is unspecified: RES, EM and OUT
while BUSY = 1 (20_memory.md R71; log entry 6). -/
def hostRead (p : Port) (offset : DWord) (s : State) : Option Nat :=
  match p with
  | .ctrl => some 0
  | .status => some s.status.word.toNat
  | .cmd => some s.cmd.toNat
  | .keybits => some s.keybits.toNat
  | .mrRounds => some s.mrRounds.toNat
  | .msglen => some s.msglen.toNat
  | .outlen => some s.outlen.toNat
  | .big .res => if s.status.busy then none else some (if s.legal then s.res else 0)
  | .big .opa => some (if s.legal then s.opa else 0)
  | .big .opb => some (if s.legal then s.opb else 0)
  | .big .mod => some (if s.legal then s.mod else 0)
  | .msg => some (s.msg.read offset.toNat).toNat
  | .em =>
    if s.status.busy then none
    else some (if s.legal && decide (offset.toNat < s.kLen) then (s.em.read offset.toNat).toNat else 0)
  | .out => if s.status.busy then none else some (s.out.read offset.toNat).toNat
  | .reserved => some 0

/-- The next free value, cut to the width of the port (20_memory.md R71; log entry 5). -/
def unspecifiedValue (p : Port) (s : State) : Nat :=
  match p.width s with
  | some n => Config.busyRead s.freePos % 2 ^ n
  | none => Config.busyRead s.freePos

/-- A host read: it changes nothing in the block (20_memory.md R66), only what the host has read. -/
def readStep (index : Nat) (offset : DWord) (s : State) : State :=
  match hostRead (Port.ofIndex index) offset s with
  | some v => { s with readData := some v }
  | none => { s with readData := some (unspecifiedValue (Port.ofIndex index) s), freePos := s.freePos + 1 }

/-- A host write; a value wider than the port is no access of the interface (20_memory.md R77, 10_state.md R33; log
entry 10). -/
def writeStep (index : Nat) (offset : DWord) (v : Nat) (s : State) : Host.Outcome State Fault Refusal :=
  if (Port.ofIndex index).fits v s then .next (hostWrite (Port.ofIndex index) offset v s) else .fault .hostValueTooWide

end Sys2Proof.Machine
end

