-- ==== Sys2Proof/Machine/Sequencer.lean ====
section
/-! DEFINITION. The command sequencer and the moves of the agents around it (20_memory.md R69, R70). -/

namespace Sys2Proof.Machine

/-- The block's own move: the completion event when a command is in flight, nothing when idle. -/
def blockStep (s : State) : Host.Outcome State Fault Refusal :=
  if s.status.busy then completeWord s else .next s

/-- The effect of one move. -/
def moveStep (mv : Move) (s : State) : Host.Outcome State Fault Refusal :=
  match mv with
  | .write index offset v => writeStep index offset v s
  | .read index offset => .next (readStep index offset s)
  | .block => blockStep s
  | .hardwareReset => .next s.resetEvent

/-- One step: the oldest move of the schedule. With no move left the block still completes what is in flight
(70_reset_and_hazards.md R299), and an idle block does nothing. -/
def sequencerStep (s : State) : Host.Outcome State Fault Refusal :=
  match s.schedule with
  | [] => blockStep s
  | mv :: rest => moveStep mv { s with schedule := rest }

/-- The word `w` in flight, its completion being the next move: a CMD write has just issued it. FATAL, under which no
word issues, is cleared (log entry 3). -/
def State.inFlight (w : Word) (s : State) : State :=
  { s with cmd := w, status := { s.status.issue with fatal := false }, schedule := .block :: s.schedule }

end Sys2Proof.Machine
end

