-- ==== Sys2Proof/Machine/Step.lean ====
section
/-! DEFINITION. One step of the machine, and the placing of a command word where the next step runs it. -/

namespace Sys2Proof.Machine

/-- One step of the machine. -/
def step (s : State) : Host.Outcome State Fault Refusal := sequencerStep s

/-- `s` with the command word of `w` (its low `nbits` bits) in flight, so that the next step runs it. The block fetches no
instruction (10_state.md R22): a command comes to run by a host write to CMD, for which this stands (log entry 3). -/
def State.withFetchWord (s : State) (nbits w : Nat) : State := s.inFlight (BitVec.ofNat 32 (w % 2 ^ nbits))

end Sys2Proof.Machine
end

