-- ==== Sys2Proof/Safety.lean ====
section
/-! DEFINITION. What claims about the block are stated in: the invariant of its state, a run gone right, and a valid key
pair. -/

namespace Sys2Proof.Machine

/-- The combinations of STATUS fields the events of a command produce: the codes are those of 60_exceptions.md R251, an
error and a prime answer belong to a completed command, a running command has none of them, and FATAL excludes them
(10_state.md R23, 20_memory.md R70, 60_exceptions.md R250, R256). -/
def Status.coherent (t : Status) : Bool :=
  decide (t.err.toNat ≤ 0x0B) &&
  (if t.busy || t.fatal then !t.done && !t.prime && t.err == 0 else true) &&
  !(t.busy && t.fatal) && (t.done || !t.prime && t.err == 0) && (t.err == 0 || !t.prime)

/-- The invariant of the state: the big-integer registers are below 2^K when KEYBITS is legal and 0 when it is not
(10_state.md R39), EM holds bytes below kLen only and none while KEYBITS is not legal (R31, R33, R34), the buffers are in
their form, and STATUS is coherent. -/
structure State.Inv (s : State) : Prop where
  bigBelow : ∀ r : BigReg, s.legal = true → s.getBig r < 2 ^ s.keySize
  bigZero : ∀ r : BigReg, s.legal = false → s.getBig r = 0
  msgWf : s.msg.wf = true
  msgBelow : s.msg.below (2 ^ 64) = true
  emWf : s.em.wf = true
  emBelow : s.em.below (if s.legal then s.kLen else 0) = true
  outWf : s.out.wf = true
  outBelow : s.out.below (2 ^ 64) = true
  statusCoherent : s.status.coherent = true

/-- A run that reached `s` has gone right so far: the fatal halt is never final (10_state.md R40). -/
def State.goneRight (s : State) : Bool := !s.status.fatal

/-- The block is ready for a command: neither running nor halted (10_state.md R25). -/
def State.ready (s : State) : Bool := !s.status.busy && !s.status.fatal

/-- STATUS while a command runs: the issue cleared everything but BUSY, and FATAL was 0 (20_memory.md R70, 10_state.md
R25). -/
def Status.running : Status := { busy := true, done := false, fatal := false, prime := false, err := 0 }

/-- The setup checks of the PSS commands pass (44_pss.md R192). -/
def State.pssFits (h : HashSel) (s : State) : Prop := 2 * hLen h + 9 ≤ s.kLen ∧ s.msglen.toNat ≤ hashMaxIn h

/-- The base `a` does not show the odd `n` composite: with `n - 1 = 2^k * q`, `q` odd, `a ^ q` is 1 modulo `n`, or one of
the `k` powers from `a ^ q` on, each the square of the one before, is `n - 1` (41_miller_rabin.md R152, R153). -/
def strongProbablePrime (n a : Nat) : Prop :=
  ∃ k q, n - 1 = 2 ^ k * q ∧ q % 2 = 1 ∧ (a ^ q % n = 1 ∨ ∃ i < k, a ^ (2 ^ i * q) % n = n - 1)

/-- The errors each command can raise beside BadConfig and IllegalCommand (60_exceptions.md R251, R255). -/
def mayRaise : Instr → List ErrorKind
  | .modadd | .modsub | .modmul | .modexp | .mrtest | .mrtestr => []
  | .rsaxf => [.messageOutOfRange]
  | .mgf1 _ => [.maskTooLong]
  | .pssenc _ => [.hashTooLong, .messageTooLong]
  | .pssdec _ => [.hashTooLong, .messageTooLong, .invalidTrailer, .invalidLeadingBit, .invalidPadding, .hashMismatch]
  | .sign _ => [.hashTooLong, .messageTooLong, .messageOutOfRange]
  | .verify _ => [.hashTooLong, .messageTooLong, .messageOutOfRange, .invalidTrailer, .invalidLeadingBit,
      .invalidPadding, .hashMismatch]
  | .importReg _ | .exportReg _ => [.widthOverflow]

/-- The big-integer register a command writes when it completes without error (20_memory.md R61). -/
def writtenReg : Instr → Option BigReg
  | .modadd | .modsub | .modmul | .modexp | .rsaxf | .sign _ => some .res
  | .importReg r => some r
  | .mrtest | .mrtestr | .mgf1 _ | .pssenc _ | .pssdec _ | .verify _ | .exportReg _ => none

/-- The most draws a command consumes (10_state.md R36). -/
def mostDraws (i : Instr) (s : State) : Nat :=
  match i with
  | .mrtestr => s.mrRounds.toNat
  | .pssenc _ | .sign _ => 1
  | .modadd | .modsub | .modmul | .modexp | .mrtest | .rsaxf | .mgf1 _ | .pssdec _ | .verify _ | .importReg _
  | .exportReg _ => 0

/-- A move that resets the block: the hardware reset, or a write to CTRL with bit 0 set (70_reset_and_hazards.md R290). -/
def Move.isReset (mv : Move) : Bool :=
  match mv with
  | .hardwareReset => true
  | .write index _ v => decide (Port.ofIndex index = .ctrl) && v % 2 == 1
  | .read _ _ => false
  | .block => false

/-- The clauses of the key-pair invariant that the round trips rest on (45_host_keygen.md R231): distinct primes `p`, `q`,
modulus `n`, and exponents `e`, `d` inverse to each other. The whole invariant is `ValidKeyPair`. -/
structure KeyPair (p q e d n : Nat) : Prop where
  primeP : Nat.Prime p
  primeQ : Nat.Prime q
  distinct : p ≠ q
  modulus : n = p * q
  inverse : d * e ≡ 1 [MOD Nat.lcm (p - 1) (q - 1)]

/-- `n` has exactly `K` bits: its top bit K - 1 is set (45_host_keygen.md R231). -/
def exactBits (K n : Nat) : Prop := 2 ^ (K - 1) ≤ n ∧ n < 2 ^ K

/-- The form of a modulus: exactly `K` bits, top bit and bottom bit set (45_host_keygen.md R232). -/
structure ModulusForm (K n : Nat) : Prop where
  length : exactBits K n
  odd : n % 2 = 1

/-- The key-pair invariant, whole (45_host_keygen.md R231, R232): beside the clauses of `KeyPair`, the form of the modulus;
`e` is 65537, or coprime to `λ(n)` and below it; and both exponents fit the `K / 8` bytes in which the host writes them. -/
structure ValidKeyPair (K p q e d n : Nat) : Prop extends KeyPair p q e d n where
  modulusForm : ModulusForm K n
  publicExponent : e = 65537 ∨ (Nat.Coprime e (Nat.lcm (p - 1) (q - 1)) ∧ e < Nat.lcm (p - 1) (q - 1))
  widths : e < 256 ^ (K / 8) ∧ d < 256 ^ (K / 8)

end Sys2Proof.Machine
end

