-- ==== Sys2Proof/Certificates/Slice0/Obligations.lean ====
section
/-! DEFINITION. The statements for the provers, from the numbered rules of the spec. A statement about a command is about
`exec`, the completion of the command in a state where it is in flight; `StepRunsTheCommandInFlight` brings it to runs. -/

open Sys2Proof Sys2Proof.Machine

/-! ### Command words (30_encoding.md) -/

/-- Command words written out in the spec decode to the commands they stand for (30_encoding.md R96, 95_test_vectors.md V50). -/
def Obligations.SpecWordsDecode : Prop :=
  decode 0x00000001 = .ok .modadd ∧ decode 0x00000006 = .ok .mrtestr ∧ decode 0x00000007 = .ok .rsaxf ∧
  decode 0x00000038 = .ok (.mgf1 .h512) ∧ decode 0x0000002A = .ok (.pssdec .h384) ∧
  decode 0x0000001B = .ok (.sign .h256) ∧ decode 0x0000008D = .ok (.importReg .mod) ∧
  decode 0x000000CE = .ok (.exportReg .res) ∧ decode 0x00000000 = .error .illegalOp ∧
  decode 0x00000011 = .error .unusedHsel ∧ decode 0x00000048 = .error .unusedReg ∧
  decode 0x80000001 = .error .reservedBits

/-- Decoding and encoding are inverse to each other: no bit of a word is dropped, and no two words are one command. -/
def Obligations.DecodeIsInverseOfEncode : Prop :=
  ∀ (w : Word) (i : Instr), decode w = .ok i ↔ encode i = w

/-- A word that decodes selects exactly one row of the opcode map by its mask and match, and a word that does not decode
selects none (30_encoding.md R96, R97). -/
def Obligations.DecodeAcceptsExactlyTheOpcodeRows : Prop :=
  ∀ w : Word,
    (∀ i, decode w = .ok i → ∃ row, opcodeRows.filter (fun r => r.selects w) = [row]) ∧
    (∀ e, decode w = .error e → opcodeRows.filter (fun r => r.selects w) = [])

/-- The illegal words are those the rule lists, and one in flight completes with IllegalCommand, changing nothing but
STATUS, also when no move is left (30_encoding.md R97, 70_reset_and_hazards.md R299). The moves are the model's form of the
accesses (log entry 3). -/
def Obligations.IllegalWordsCompleteWithIllegalCommand : Prop :=
  (∀ w : Word, (∃ e, decode w = .error e) ↔
    (w.toNat % 16 = 0x0 ∨ w.toNat % 16 = 0xF ∨ w.toNat / 256 ≠ 0 ∨
     (w.toNat / 16 % 4 ≠ 0 ∧ ((0x1 ≤ w.toNat % 16 ∧ w.toNat % 16 ≤ 0x7) ∨ w.toNat % 16 = 0xD ∨ w.toNat % 16 = 0xE)) ∨
     (w.toNat / 64 % 4 ≠ 0 ∧ 0x1 ≤ w.toNat % 16 ∧ w.toNat % 16 ≤ 0xC))) ∧
  (∀ (s : State) (rest : List Move) (e : IllegalReason), s.status.busy = true → s.schedule = .block :: rest →
    decode s.cmd = .error e →
    step s = .next { s with schedule := rest, status := { s.status with busy := false, done := true, err := 0x0A } }) ∧
  (∀ (s : State) (e : IllegalReason), s.status.busy = true → s.schedule = [] → decode s.cmd = .error e →
    step s = .next { s with status := { s.status with busy := false, done := true, err := 0x0A } })

/-! ### Steps, issue and completion -/

/-- A step runs the decoded command: with the word in CMD in flight, the block's move is the command's completion, also when
no move is left; and a word placed by `withFetchWord` runs in the next step. The order of moves is the model's schedule
(log entry 3). -/
def Obligations.StepRunsTheCommandInFlight : Prop :=
  (∀ (s : State) (rest : List Move) (i : Instr), s.status.busy = true → decode s.cmd = .ok i →
    s.schedule = .block :: rest → step s = exec i { s with schedule := rest }) ∧
  (∀ (s : State) (i : Instr), s.status.busy = true → decode s.cmd = .ok i → s.schedule = [] → step s = exec i s) ∧
  (∀ (s : State) (i : Instr), decode (encode i) = .ok i →
    step (s.withFetchWord 32 (encode i).toNat) =
      exec i { s with cmd := encode i,
                      status := { s.status with busy := true, done := false, fatal := false, prime := false, err := 0 } })

/-- A CMD write issues the command and stores the word unless the block is busy or halted; a read returns the last
stored word, 0 after reset (10_state.md R25). The moves are the model's form of the accesses (log entry 3). -/
def Obligations.CmdWriteIssuesUnlessBusyOrHalted : Prop :=
  (∀ (s : State) (rest : List Move) (offset : DWord) (v : Nat), s.schedule = .write 0x02 offset v :: rest → v < 2 ^ 32 →
    (s.status.busy = false → s.status.fatal = false →
      step s = .next { s with schedule := rest, cmd := BitVec.ofNat 32 v,
                              status := { s.status with busy := true, done := false, prime := false, err := 0 } }) ∧
    (s.status.busy = true ∨ s.status.fatal = true → step s = .next { s with schedule := rest })) ∧
  (∀ (s : State) (rest : List Move) (offset : DWord), s.schedule = .read 0x02 offset :: rest →
    step s = .next { s with schedule := rest, readData := some s.cmd.toNat }) ∧
  State.reset.cmd = 0

/-- A command word written to an idle block and then completed has the effect of the command on the operands at issue
(20_memory.md R70). The moves are the model's form of the accesses (log entry 3). -/
def Obligations.IssueThenCompletionRunsTheCommand : Prop :=
  ∀ (s : State) (rest : List Move) (offset : DWord) (i : Instr),
    s.schedule = .write 0x02 offset (encode i).toNat :: .block :: rest →
    s.status.busy = false → s.status.fatal = false →
    ∃ t, step s = .next t ∧
      step t = exec i { s with schedule := rest, cmd := encode i,
                               status := { s.status with busy := true, done := false, prime := false, err := 0 } }

/-- An issued command reaches its completion event on the operands at issue when no move left is a reset, after at most as
many steps as moves are left, and it is Done or halted then; with a reset among the moves the block is idle again no later;
a move that is no access of the interface stops the run (70_reset_and_hazards.md R299, R291; log entries 3 and 10). -/
def Obligations.IssuedCommandsComplete : Prop :=
  ∀ s : State, s.status.busy = true →
    ((∀ mv ∈ s.schedule, mv.isReset = false) →
      (∃ k rest n rd, k ≤ s.schedule.length ∧ ∃ t : State,
        completeWord { s with schedule := rest, freePos := n, readData := rd } = .next t ∧
        Host.Core.run Sys2Proof.core (k + 1) s = .next t ∧
        t.status.busy = false ∧ (t.status.done = true ∨ t.status.fatal = true)) ∨
      ∃ k, k ≤ s.schedule.length ∧ Host.Core.run Sys2Proof.core k s = .fault Fault.hostValueTooWide) ∧
    ∃ k, k ≤ s.schedule.length + 1 ∧
      ((∃ t : State, Host.Core.run Sys2Proof.core k s = .next t ∧ t.status.busy = false) ∨
       Host.Core.run Sys2Proof.core k s = .fault Fault.hostValueTooWide)

/-- A step never refuses, and it faults only on a host write of a value wider than its register, which is the model's
choice (log entry 10); on that it does fault. The moves are the model's form of the accesses (log entry 3). -/
def Obligations.OnlyTooWideHostWritesStopTheMachine : Prop :=
  ∀ s : State,
    (∀ r, step s ≠ .refused r) ∧
    ((∃ f, step s = .fault f) ↔ ∃ index offset v rest, s.schedule = .write index offset v :: rest ∧
      ∃ n, (Port.ofIndex index).width s = some n ∧ 2 ^ n ≤ v)

/-! ### Configuration -/

/-- K is legal when it is positive, a multiple of 8 and at most MAXBITS, and while it is not every command ends with
BadConfig and changes nothing else (00_scope.md R5, 60_exceptions.md R251, R255). -/
def Obligations.IllegalKeySizeEndsEveryCommandWithBadConfig : Prop :=
  ∀ (i : Instr) (s : State),
    (s.legal = true ↔ 0 < s.keybits.toNat ∧ s.keybits.toNat % 8 = 0 ∧ s.keybits.toNat ≤ Config.maxBits) ∧
    (s.legal = false → exec i s = .next { s with status := { s.status with busy := false, done := true, err := 0x0B } })

/-! ### The modular operations (40_bigint_modular.md) -/

/-- MODADD (40_bigint_modular.md R124). The halt is a next state (log entry 1). -/
def Obligations.ModaddWritesTheResidueOfTheSum : Prop :=
  decode 0x00000001 = .ok .modadd ∧
  ∀ s : State, s.legal = true →
    (s.mod ≠ 0 → exec .modadd s =
      .next { s with res := (s.opa + s.opb) % s.mod, status := { s.status with busy := false, done := true } }) ∧
    (s.mod = 0 → exec .modadd s = .next { s with status := { s.status with busy := false, fatal := true } })

/-- MODSUB: the residue `r` below the modulus with `r + b ≡ a` (40_bigint_modular.md R125). The halt is a next state
(log entry 1). -/
def Obligations.ModsubWritesTheResidueOfTheDifference : Prop :=
  decode 0x00000002 = .ok .modsub ∧
  ∀ s : State, s.legal = true →
    (s.mod ≠ 0 → ∃ r, r = ((s.opa % s.mod) + s.mod - (s.opb % s.mod)) % s.mod ∧ r < s.mod ∧
      r + s.opb ≡ s.opa [MOD s.mod] ∧
      exec .modsub s = .next { s with res := r, status := { s.status with busy := false, done := true } }) ∧
    (s.mod = 0 → exec .modsub s = .next { s with status := { s.status with busy := false, fatal := true } })

/-- MODMUL (40_bigint_modular.md R126). The halt is a next state (log entry 1). -/
def Obligations.ModmulWritesTheResidueOfTheProduct : Prop :=
  decode 0x00000003 = .ok .modmul ∧
  ∀ s : State, s.legal = true →
    (s.mod ≠ 0 → exec .modmul s =
      .next { s with res := (s.opa * s.opb) % s.mod, status := { s.status with busy := false, done := true } }) ∧
    (s.mod = 0 → exec .modmul s = .next { s with status := { s.status with busy := false, fatal := true } })

/-- MODEXP: the exact power modulo MOD, `0 ^ 0` being 1 (40_bigint_modular.md R127). The halt is a next state (log entry
1). -/
def Obligations.ModexpWritesTheResidueOfThePower : Prop :=
  decode 0x00000004 = .ok .modexp ∧
  ∀ s : State, s.legal = true →
    (s.mod ≠ 0 → exec .modexp s =
      .next { s with res := s.opa ^ s.opb % s.mod, status := { s.status with busy := false, done := true } }) ∧
    (s.mod = 0 → exec .modexp s = .next { s with status := { s.status with busy := false, fatal := true } })

/-- The four commands take operands at or above the modulus, reducing them, and the result is below MOD
(40_bigint_modular.md R120). -/
def Obligations.ModularResultsAreCanonicalResidues : Prop :=
  ∀ i ∈ [Instr.modadd, .modsub, .modmul, .modexp], ∀ s : State, s.legal = true → s.mod ≠ 0 →
    ∃ v, v < s.mod ∧
      exec i s = .next { s with res := v, status := { s.status with busy := false, done := true } } ∧
      exec i { s with opa := s.opa % s.mod } =
        .next { s with opa := s.opa % s.mod, res := v, status := { s.status with busy := false, done := true } } ∧
      (i ≠ .modexp → exec i { s with opb := s.opb % s.mod } =
        .next { s with opb := s.opb % s.mod, res := v, status := { s.status with busy := false, done := true } })

/-- Once FATAL is 1 it stays 1 and no command issues, until a reset (10_state.md R40). The moves are the model's form of
the accesses (log entry 3). -/
def Obligations.FatalStaysUntilReset : Prop :=
  ∀ s t : State, s.status.fatal = true → step s = .next t →
    (t.status.fatal = true ∧ t.cmd = s.cmd ∧ (s.status.busy = false → t.status.busy = false)) ∨
    ∃ mv rest, s.schedule = mv :: rest ∧ mv.isReset = true

/-! ### IMPORT and EXPORT -/

/-- IMPORT (40_bigint_modular.md R122). -/
def Obligations.ImportLoadsTheIntegerOfTheMessage : Prop :=
  (∀ r : BigReg, decode (BitVec.ofNat 32 (0xD + 64 * r.code)) = .ok (.importReg r)) ∧
  ∀ (r : BigReg) (s : State), s.legal = true →
    (os2ip (s.msg.readBytes 0 s.msglen.toNat) < 2 ^ s.keybits.toNat →
      ∃ t, exec (.importReg r) s = .next t ∧ t.getBig r = os2ip (s.msg.readBytes 0 s.msglen.toNat) ∧
        t = { s.setBig r (t.getBig r) with status := { s.status with busy := false, done := true } } ∧
        ∀ r', r' ≠ r → t.getBig r' = s.getBig r') ∧
    (2 ^ s.keybits.toNat ≤ os2ip (s.msg.readBytes 0 s.msglen.toNat) →
      exec (.importReg r) s = .next { s with status := { s.status with busy := false, done := true, err := 0x09 } })

/-- EXPORT: the OUTLEN bytes read back as the value, the rest of OUT is unchanged, and a value that needs more bytes is
rejected (40_bigint_modular.md R123). -/
def Obligations.ExportStoresTheBytesOfTheRegister : Prop :=
  (∀ r : BigReg, decode (BitVec.ofNat 32 (0xE + 64 * r.code)) = .ok (.exportReg r)) ∧
  ∀ (r : BigReg) (s : State), s.legal = true → s.out.wf = true →
    (s.getBig r < 256 ^ s.outlen.toNat →
      ∃ o, exec (.exportReg r) s = .next { s with out := o, status := { s.status with busy := false, done := true } } ∧
        os2ip (o.readBytes 0 s.outlen.toNat) = s.getBig r ∧ ∀ a, s.outlen.toNat ≤ a → o.read a = s.out.read a) ∧
    (256 ^ s.outlen.toNat ≤ s.getBig r →
      exec (.exportReg r) s = .next { s with status := { s.status with busy := false, done := true, err := 0x09 } })

/-! ### The Miller-Rabin engine (41_miller_rabin.md) -/

/-- MRTEST: PRIME is 1 for 2, 0 for the other even numbers and below 2, and for an odd number exactly when each of the twelve
witnesses below `n - 1` is inconclusive (41_miller_rabin.md R151 to R154). -/
def Obligations.MrtestAnswersByTheTwelveWitnesses : Prop :=
  decode 0x00000005 = .ok .mrtest ∧
  ∀ s : State, s.legal = true →
    ∃ p : Bool, exec .mrtest s = .next { s with status := { s.status with busy := false, done := true, prime := p } } ∧
      (p = true ↔ s.opa = 2 ∨ (3 ≤ s.opa ∧ s.opa % 2 = 1 ∧
        ∀ a ∈ [2, 3, 5, 7, 11, 13, 17, 19, 23, 29, 31, 37], a < s.opa - 1 → strongProbablePrime s.opa a))

/-- MRTEST declares every prime prime, whatever its size (41_miller_rabin.md, section 2, what MRTEST guarantees). -/
def Obligations.MrtestAcceptsEveryPrime : Prop :=
  ∀ s : State, s.legal = true → Nat.Prime s.opa →
    exec .mrtest s = .next { s with status := { s.status with busy := false, done := true, prime := true } }

/-- MRTEST agrees with trial division below 10,000 (41_miller_rabin.md R158). -/
def Obligations.MrtestAgreesWithTrialDivisionBelow10000 : Prop :=
  ∀ s : State, s.legal = true → s.opa < 10000 →
    ∃ p : Bool, exec .mrtest s = .next { s with status := { s.status with busy := false, done := true, prime := p } } ∧
      (p = true ↔ 2 ≤ s.opa ∧ ∀ d, 2 ≤ d → d * d ≤ s.opa → ¬ d ∣ s.opa)

/-- MRTESTR: the special cases consume no draw; otherwise each round draws one base in the range, every base in the range
can be drawn, and the first composite verdict ends the test (41_miller_rabin.md R156, R157). How an answer of the random
source becomes a base is the model's choice (log entry 4). -/
def Obligations.MrtestrAnswersByItsDraws : Prop :=
  decode 0x00000006 = .ok .mrtestr ∧
  (∀ n a, 5 ≤ n → (2 ≤ drawNat 2 (n - 2) a ∧ drawNat 2 (n - 2) a ≤ n - 2) ∧
    (2 ≤ a → a ≤ n - 2 → drawNat 2 (n - 2) a = a)) ∧
  ∀ s : State, s.legal = true →
    (s.opa = 2 ∨ s.opa = 3 →
      exec .mrtestr s = .next { s with status := { s.status with busy := false, done := true, prime := true } }) ∧
    (s.opa < 2 ∨ (s.opa ≠ 2 ∧ s.opa % 2 = 0) →
      exec .mrtestr s = .next { s with status := { s.status with busy := false, done := true, prime := false } }) ∧
    (5 ≤ s.opa → s.opa % 2 = 1 →
      ((∀ j < s.mrRounds.toNat, strongProbablePrime s.opa (drawNat 2 (s.opa - 2) (s.draw j))) →
        exec .mrtestr s = .next { s.consumeDraws s.mrRounds.toNat with
          status := { s.status with busy := false, done := true, prime := true } }) ∧
      (∀ j < s.mrRounds.toNat, ¬ strongProbablePrime s.opa (drawNat 2 (s.opa - 2) (s.draw j)) →
        (∀ j' < j, strongProbablePrime s.opa (drawNat 2 (s.opa - 2) (s.draw j'))) →
        exec .mrtestr s = .next { s.consumeDraws (j + 1) with
          status := { s.status with busy := false, done := true, prime := false } }))

/-- For a prime every base is inconclusive, so MRTESTR declares it prime for every draw (41_miller_rabin.md, section 3). -/
def Obligations.MrtestrAcceptsEveryPrimeForEveryDraw : Prop :=
  ∀ s : State, s.legal = true → Nat.Prime s.opa →
    ∃ t, exec .mrtestr s = .next t ∧ t.status.prime = true ∧ t.status.done = true ∧ t.opa = s.opa

/-! ### The cipher (42_rsa_cipher.md) -/

/-- RSAXF: the range check on the unreduced operand, then the power (42_rsa_cipher.md R170, R171). -/
def Obligations.RsaxfChecksTheRangeThenExponentiates : Prop :=
  decode 0x00000007 = .ok .rsaxf ∧
  ∀ s : State, s.legal = true →
    (s.mod ≤ s.opa →
      exec .rsaxf s = .next { s with status := { s.status with busy := false, done := true, err := 0x01 } }) ∧
    (s.opa < s.mod → exec .rsaxf s =
      .next { s with res := s.opa ^ s.opb % s.mod, status := { s.status with busy := false, done := true } })

/-- With a zero modulus RSAXF, and SIGN and VERIFY once their setup checks pass, end with MessageOutOfRange and not with the
fatal halt (42_rsa_cipher.md R172). -/
def Obligations.ZeroModulusIsOutOfRangeForTheCipher : Prop :=
  ∀ (h : HashSel) (s : State), s.legal = true → s.mod = 0 →
    exec .rsaxf s = .next { s with status := { s.status with busy := false, done := true, err := 0x01 } } ∧
    (s.pssFits h →
      exec (.verify h) s = .next { s with status := { s.status with busy := false, done := true, err := 0x01 } } ∧
      exec (.sign h) s =
        .next { s.consumeDraws 1 with status := { s.status with busy := false, done := true, err := 0x01 } })

/-- The cipher's round trip: for a key pair, RSAXF with one exponent and then with the other gives the operand back, in both
orders (42_rsa_cipher.md R175). -/
def Obligations.RsaxfRoundTrip : Prop :=
  ∀ (p q e d n : Nat), KeyPair p q e d n → ∀ s : State, s.legal = true → s.mod = n → s.opa < n →
    ∀ x y, (x = e ∧ y = d) ∨ (x = d ∧ y = e) → s.opb = x →
      ∃ t, exec .rsaxf s = .next t ∧ t.res = s.opa ^ x % n ∧
        exec .rsaxf { t with opa := t.res, opb := y } =
          .next { t with opa := t.res, opb := y, res := s.opa, status := { t.status with busy := false, done := true } }

/-! ### The mask generator (43_mgf1.md) -/

/-- MGF1: byte `a` of OUT below OUTLEN is byte `a mod hLen` of the hash of the seed and the counter `a div hLen` when the hash
admits inputs of that length, the rest of OUT is unchanged, and a length above `2^32 * hLen` is rejected (43_mgf1.md R180,
R181). For a longer seed the command completes too and the mask bytes are left open: nothing rests on the model's hash
beyond its limit (93_implementation_defined.md U8; log entry 9). -/
def Obligations.Mgf1WritesTheMask : Prop :=
  (∀ h : HashSel, decode (BitVec.ofNat 32 (0x8 + 16 * h.code)) = .ok (.mgf1 h)) ∧
  ∀ (h : HashSel) (s : State), s.legal = true → s.out.wf = true →
    (2 ^ 32 * hLen h < s.outlen.toNat →
      exec (.mgf1 h) s = .next { s with status := { s.status with busy := false, done := true, err := 0x04 } }) ∧
    (s.outlen.toNat ≤ 2 ^ 32 * hLen h →
      ∃ o, exec (.mgf1 h) s = .next { s with out := o, status := { s.status with busy := false, done := true } } ∧
        (∀ a, s.outlen.toNat ≤ a → o.read a = s.out.read a) ∧
        (s.msglen.toNat + 4 ≤ hashMaxIn h → ∀ a < s.outlen.toNat, o.read a =
          (hash h (s.msg.readBytes 0 s.msglen.toNat ++ i2osp (a / hLen h) 4))[a % hLen h]?.getD 0))

/-- A shorter mask is a prefix of a longer one from the same seed, and each has the length asked for (43_mgf1.md R183). -/
def Obligations.ShorterMaskIsPrefix : Prop :=
  ∀ (h : HashSel) (seed : List Byte) (L₁ L₂ : Nat), L₁ ≤ L₂ →
    (mgf (hash h) seed L₁).length = L₁ ∧ mgf (hash h) seed L₁ <+: mgf (hash h) seed L₂

/-! ### PSS (44_pss.md) -/

/-- The setup checks of the four PSS commands, HashTooLong before MessageTooLong; nothing is written and nothing drawn, and a
command that passes both, the boundary included, reports neither (44_pss.md R192). -/
def Obligations.PssSetupChecks : Prop :=
  ∀ (h : HashSel), ∀ i ∈ [Instr.pssenc h, .pssdec h, .sign h, .verify h], ∀ s : State, s.legal = true →
    (s.keybits.toNat / 8 < 2 * hLen h + 9 →
      exec i s = .next { s with status := { s.status with busy := false, done := true, err := 0x03 } }) ∧
    (2 * hLen h + 9 ≤ s.keybits.toNat / 8 → hashMaxIn h < s.msglen.toNat →
      exec i s = .next { s with status := { s.status with busy := false, done := true, err := 0x02 } }) ∧
    (2 * hLen h + 9 ≤ s.keybits.toNat / 8 → s.msglen.toNat ≤ hashMaxIn h → s.status.err = 0 →
      ∃ t, exec i s = .next t ∧ t.status.err ≠ 0x03 ∧ t.status.err ≠ 0x02)

/-- PSSENC puts the encoding of the message with a drawn salt into EM and consumes one draw (44_pss.md R193 to R200). That
the salt is the next answer of the model's draws is the model's choice (log entry 4). -/
def Obligations.PssencWritesTheEncoding : Prop :=
  (∀ h : HashSel, decode (BitVec.ofNat 32 (0x9 + 16 * h.code)) = .ok (.pssenc h)) ∧
  ∀ (h : HashSel) (s : State), s.legal = true → s.pssFits h → s.em.wf = true →
    let M := s.msg.readBytes 0 s.msglen.toNat
    let salt := i2osp (s.draw 0) (hLen h)
    let H := hash h (zeros 8 ++ hash h M ++ salt)
    let DB := zeros (s.kLen - 2 * hLen h - 2) ++ [0x01] ++ salt
    let mask := mgf (hash h) H (s.kLen - hLen h - 1)
    ∃ m : Memory, exec (.pssenc h) s =
        .next { s.consumeDraws 1 with em := m, status := { s.status with busy := false, done := true } } ∧
      m.readBytes 0 s.kLen = clearTopBit (xorBytes DB mask ++ H ++ [0xBC]) ∧
      ∀ a, s.kLen ≤ a → m.read a = s.em.read a

/-- The encoding has `kLen` bytes, ends in the digest and 0xBC, its first bit is clear, and as an integer it is below
`2^(K-1)` (44_pss.md R199). -/
def Obligations.EncodingEndsInTrailerAndStaysBelowTopBit : Prop :=
  ∀ (h : HashSel) (kl : Nat) (M salt : List Byte), 2 * hLen h + 9 ≤ kl → salt.length = hLen h →
    let EM := pssEncode (hash h) (hLen h) kl M salt
    EM.length = kl ∧ EM[kl - 1]? = some 0xBC ∧
      slice EM (kl - hLen h - 1) (kl - 1) = hash h (zeros 8 ++ hash h M ++ salt) ∧
      EM[0]?.getD 0 &&& 0x80 = 0 ∧ os2ip EM < 2 ^ (8 * kl - 1)

/-- PSSDEC makes the four checks in order, reports the first that fails and writes nothing else (44_pss.md R203, R205 to
R212). -/
def Obligations.PssdecReportsTheFirstFailedCheck : Prop :=
  (∀ h : HashSel, decode (BitVec.ofNat 32 (0xA + 16 * h.code)) = .ok (.pssdec h)) ∧
  ∀ (h : HashSel) (s : State), s.legal = true → s.pssFits h →
    let EM := s.em.readBytes 0 s.kLen
    let M := s.msg.readBytes 0 s.msglen.toNat
    let dbl := s.kLen - hLen h - 1
    let psl := s.kLen - 2 * hLen h - 2
    let H := slice EM dbl (dbl + hLen h)
    let DB := clearTopBit (xorBytes (slice EM 0 dbl) (mgf (hash h) H dbl))
    let salt := slice DB (dbl - hLen h) dbl
    let padded := slice DB 0 psl = zeros psl ∧ DB[psl]? = some 0x01
    let hashed := hash h (zeros 8 ++ hash h M ++ salt) = H
    let endsWith := fun e : Byte => exec (.pssdec h) s =
      .next { s with status := { s.status with busy := false, done := true, err := e } }
    (s.em.read (s.kLen - 1) ≠ 0xBC → endsWith 0x05) ∧
    (s.em.read (s.kLen - 1) = 0xBC → s.em.read 0 &&& 0x80 ≠ 0 → endsWith 0x06) ∧
    (s.em.read (s.kLen - 1) = 0xBC → s.em.read 0 &&& 0x80 = 0 → ¬ padded → endsWith 0x07) ∧
    (s.em.read (s.kLen - 1) = 0xBC → s.em.read 0 &&& 0x80 = 0 → padded → ¬ hashed → endsWith 0x08) ∧
    (s.em.read (s.kLen - 1) = 0xBC → s.em.read 0 &&& 0x80 = 0 → padded → hashed → endsWith s.status.err)

/-- PSSDEC of the output of PSSENC is valid, for every salt (44_pss.md R214). -/
def Obligations.PssdecAcceptsTheOutputOfPssenc : Prop :=
  ∀ (h : HashSel) (s : State), s.legal = true → s.pssFits h → s.em.wf = true →
    ∃ t, exec (.pssenc h) s = .next t ∧
      exec (.pssdec h) t = .next { t with status := { t.status with busy := false, done := true } } ∧
      t.status.err = s.status.err

/-- SIGN: the encoding with a drawn salt, the range check, then the power; one draw is consumed either way, and EM, OPA, OPB
and MOD are unchanged (44_pss.md R201). That the salt is the next answer of the model's draws is the model's choice (log
entry 4). -/
def Obligations.SignExponentiatesTheEncoding : Prop :=
  (∀ h : HashSel, decode (BitVec.ofNat 32 (0xB + 16 * h.code)) = .ok (.sign h)) ∧
  ∀ (h : HashSel) (s : State), s.legal = true → s.pssFits h →
    let m := os2ip (pssEncode (hash h) (hLen h) s.kLen (s.msg.readBytes 0 s.msglen.toNat) (i2osp (s.draw 0) (hLen h)))
    (s.mod ≤ m → exec (.sign h) s =
      .next { s.consumeDraws 1 with status := { s.status with busy := false, done := true, err := 0x01 } }) ∧
    (m < s.mod → exec (.sign h) s =
      .next { s.consumeDraws 1 with res := m ^ s.opb % s.mod, status := { s.status with busy := false, done := true } })

/-- SIGN cannot end with MessageOutOfRange when bit K - 1 of MOD is set (44_pss.md, section 2, SIGN). -/
def Obligations.SignSucceedsForAFullLengthModulus : Prop :=
  ∀ (h : HashSel) (s : State), s.legal = true → s.pssFits h → 2 ^ (s.keybits.toNat - 1) ≤ s.mod →
    ∃ v, v < s.mod ∧ exec (.sign h) s =
      .next { s.consumeDraws 1 with res := v, status := { s.status with busy := false, done := true } }

/-- SIGN gives the result and the STATUS that PSSENC, OPA <- OS2IP(EM) and RSAXF give on the same draw (44_pss.md, section 2,
SIGN). -/
def Obligations.SignIsPssencThenRsaxf : Prop :=
  ∀ (h : HashSel) (s : State), s.legal = true → s.pssFits h → s.em.wf = true →
    ∃ t u w, exec (.pssenc h) s = .next t ∧
      exec .rsaxf { t with opa := os2ip (t.em.readBytes 0 t.kLen) } = .next u ∧
      exec (.sign h) s = .next w ∧ w.res = u.res ∧ w.status = u.status ∧ w.drawPos = u.drawPos

/-- VERIFY: the range check, then the verdict PSSDEC gives on the recovered encoding; no register and no buffer is written,
EM included (44_pss.md R213). -/
def Obligations.VerifyDecodesTheRecoveredEncoding : Prop :=
  (∀ h : HashSel, decode (BitVec.ofNat 32 (0xC + 16 * h.code)) = .ok (.verify h)) ∧
  ∀ (h : HashSel) (s : State), s.legal = true → s.pssFits h →
    (s.mod ≤ s.opa →
      exec (.verify h) s = .next { s with status := { s.status with busy := false, done := true, err := 0x01 } }) ∧
    (s.opa < s.mod → ∃ t,
      exec (.pssdec h) { s with em := Memory.writeBytes [] 0 (i2osp (s.opa ^ s.opb % s.mod) s.kLen) } = .next t ∧
      exec (.verify h) s = .next { s with status := t.status })

/-- The signature round trip: for a key pair whose modulus has exactly K bits, SIGN completes without error, and VERIFY of
its RES under the public exponent completes without error (44_pss.md R214). -/
def Obligations.VerifyAcceptsTheOutputOfSign : Prop :=
  ∀ (p q e d n : Nat), KeyPair p q e d n → ∀ (h : HashSel) (s : State), s.legal = true → s.pssFits h →
    exactBits s.keybits.toNat n → s.mod = n → s.opb = d →
    ∃ t, exec (.sign h) s = .next t ∧ t.status = { s.status with busy := false, done := true } ∧
      exec (.verify h) { t with opa := t.res, opb := e } =
        .next { t with opa := t.res, opb := e, status := { t.status with busy := false, done := true } }

/-- A valid key pair: the modulus has its top bit and its bottom bit set and is below 2^K, so both primes are odd; the public
exponent is coprime to `λ(n)`, the default 65537 included; and for a K of whole bytes the exponents and the modulus fit the
registers and are determined by their K / 8 bytes (45_host_keygen.md R231, R232, R233). -/
def Obligations.ValidKeyPairsHaveOddModuliOfExactLength : Prop :=
  ∀ (K p q e d n : Nat), ValidKeyPair K p q e d n →
    n.testBit (K - 1) = true ∧ n.testBit 0 = true ∧ p % 2 = 1 ∧ q % 2 = 1 ∧ Nat.Coprime e (Nat.lcm (p - 1) (q - 1)) ∧
    (K % 8 = 0 → ∀ x ∈ [e, d, n], x < 2 ^ K ∧ os2ip (i2osp x (K / 8)) = x)

/-! ### Whole-machine rules -/

/-- What each command leaves unchanged: every register but the one the table gives it, every buffer but its output and there
every byte beyond the stored ones, PRIME except for the primality tests (20_memory.md R61, 30_encoding.md R95). -/
def Obligations.CommandsWriteOnlyTheirOutputs : Prop :=
  ∀ (i : Instr) (s t : State), exec i s = .next t →
    t.cmd = s.cmd ∧ t.keybits = s.keybits ∧ t.mrRounds = s.mrRounds ∧ t.msglen = s.msglen ∧ t.outlen = s.outlen ∧
    t.msg = s.msg ∧ t.schedule = s.schedule ∧ t.freePos = s.freePos ∧ t.readData = s.readData ∧
    (∀ r, writtenReg i ≠ some r → t.getBig r = s.getBig r) ∧
    ((∀ h, i ≠ .pssenc h) → ∀ a, t.em.read a = s.em.read a) ∧
    ((∀ h, i ≠ .mgf1 h) → (∀ r, i ≠ .exportReg r) → ∀ a, t.out.read a = s.out.read a) ∧
    (s.em.wf = true → ∀ a, s.kLen ≤ a → t.em.read a = s.em.read a) ∧
    (s.out.wf = true → ∀ a, s.outlen.toNat ≤ a → t.out.read a = s.out.read a) ∧
    (i ≠ .mrtest → i ≠ .mrtestr → t.status.prime = s.status.prime)

/-- A command in flight ends in exactly one of the three outcomes, and the two that are not Done write no output
(60_exceptions.md R250). The halt is a next state (log entry 1). -/
def Obligations.CommandsEndInExactlyOneOutcome : Prop :=
  ∀ (i : Instr) (s : State), s.status = Status.running →
    ∃ t, exec i s = .next t ∧ t.status.busy = false ∧
      ((t.status.done = true ∧ t.status.err = 0 ∧ t.status.fatal = false) ∨
       (∃ e, e ≠ 0 ∧ t = { s with status := { Status.running with busy := false, done := true, err := e },
                                  draws := t.draws, drawPos := t.drawPos }) ∨
       (t = { s with status := { Status.running with busy := false, fatal := true } } ∧ s.mod = 0 ∧
         i ∈ [Instr.modadd, .modsub, .modmul, .modexp]))

/-- An error completion writes STATUS and nothing else, PRIME included, and only SIGN's MessageOutOfRange comes after a draw
(60_exceptions.md R253). That the draw is one answer of the model's draws is the model's choice (log entry 4). -/
def Obligations.ErrorsWriteNothingButStatus : Prop :=
  ∀ (i : Instr) (s t : State), s.status.err = 0 → exec i s = .next t → t.status.err ≠ 0 →
    (t = { s with status := { s.status with busy := false, done := true, err := t.status.err } }) ∨
    ((∃ h, i = .sign h) ∧ t.status.err = 0x01 ∧
      t = { s.consumeDraws 1 with status := { s.status with busy := false, done := true, err := 0x01 } })

/-- The error codes, and which command raises which beside BadConfig (60_exceptions.md R251). -/
def Obligations.CommandsRaiseOnlyTheirErrors : Prop :=
  [ErrorKind.messageOutOfRange, .messageTooLong, .hashTooLong, .maskTooLong, .invalidTrailer, .invalidLeadingBit,
    .invalidPadding, .hashMismatch, .widthOverflow, .illegalCommand, .badConfig].map (fun k => k.code.toNat) =
    [0x01, 0x02, 0x03, 0x04, 0x05, 0x06, 0x07, 0x08, 0x09, 0x0A, 0x0B] ∧
  ∀ (i : Instr) (s t : State), s.status.err = 0 → exec i s = .next t →
    t.status.err = 0 ∨ (s.legal = false ∧ t.status.err = 0x0B) ∨
    (s.legal = true ∧ ∃ k ∈ mayRaise i, t.status.err = k.code)

/-- A command consumes draws only where its rule draws, and none if it ends before: PSSENC and SIGN one salt once their setup
checks have passed and none otherwise, MRTESTR at most MR_ROUNDS bases and none for a candidate the pre-check answers or for
3, no command a draw with BadConfig (10_state.md R36, 44_pss.md R190, R192, 41_miller_rabin.md R156). That a salt and a base
are one answer each of the model's draws is the model's choice (log entry 4). -/
def Obligations.DrawsAreConsumedOnlyWhereTheRulesDraw : Prop :=
  ∀ (i : Instr) (s t : State), exec i s = .next t →
    ∃ k, k ≤ mostDraws i s ∧ t.drawPos = s.drawPos + k ∧ t.draws = s.draws.drop k ∧ (s.legal = false → k = 0) ∧
      (i = .mrtestr → s.opa < 5 ∨ s.opa % 2 = 0 → k = 0) ∧
      (∀ h, i = .pssenc h ∨ i = .sign h → (¬ s.pssFits h → k = 0) ∧ (s.legal = true → s.pssFits h → k = 1))

/-- The outcome of a command is a function of its operands and the draws: neither OUT, CMD, the host's side nor an earlier
RES that the command does not export changes STATUS, a register, EM, the draws or a byte of OUT that the command writes, and
a byte it does not write stays as it was (10_state.md R35). -/
def Obligations.OutcomesDependOnlyOnOperandsAndDraws : Prop :=
  ∀ (i : Instr) (s t : State) (o : Memory) (c : Word) (ms : List Move) (fp : Nat) (rd : Option Nat) (v : Nat),
    (i = .exportReg .res → v = s.res) → exec i s = .next t →
    ∃ t', exec i { s with out := o, cmd := c, schedule := ms, freePos := fp, readData := rd, res := v } = .next t' ∧
      t'.status = t.status ∧ t'.opa = t.opa ∧ t'.opb = t.opb ∧ t'.mod = t.mod ∧ t'.em = t.em ∧
      (t'.res = t.res ∨ (t'.res = v ∧ t.res = s.res)) ∧ t'.draws = t.draws ∧ t'.drawPos = t.drawPos ∧
      (s.out.wf = true → o.wf = true → ∀ a,
        (t'.out.read a = t.out.read a ∨ (t'.out.read a = o.read a ∧ t.out.read a = s.out.read a)) ∧
        ((∃ h, i = .mgf1 h) ∨ (∃ r, i = .exportReg r) → s.status.err = 0 → t.status.err = 0 → a < s.outlen.toNat →
          t'.out.read a = t.out.read a))

/-- The state after reset (10_state.md R37). -/
def Obligations.ResetValues : Prop :=
  let s := State.reset
  s.opa = 0 ∧ s.opb = 0 ∧ s.mod = 0 ∧ s.res = 0 ∧ s.status.word = 0x00000000 ∧ s.cmd = 0x00000000 ∧
  s.keybits.toNat = 0 ∧ s.mrRounds.toNat = 50 ∧ s.msglen.toNat = 0 ∧ s.outlen.toNat = 0 ∧
  ∀ a, s.msg.read a = 0x00 ∧ s.em.read a = 0x00 ∧ s.out.read a = 0x00

/-- Both reset events bring the block's state to its reset values, from every state, also with a command in flight and
in the fatal halt; a CTRL write with bit 0 clear does nothing and CTRL reads 0 (10_state.md R24, 70_reset_and_hazards.md
R290). What stands outside the block is kept, but for the draws an abandoned command had consumed (log entries 11 and 16).
The moves are the model's form of the accesses (log entry 3). -/
def Obligations.ResetIsAcceptedInEveryState : Prop :=
  ∀ (s : State) (rest : List Move) (offset : DWord) (v : Nat), v < 2 ^ 32 →
    (s.schedule = .hardwareReset :: rest ∨ (s.schedule = .write 0x00 offset v :: rest ∧ v % 2 = 1) →
      ∃ k n, step s = .next { State.reset with schedule := rest, draws := s.draws.drop k, drawPos := s.drawPos + k,
                                               freePos := n, readData := s.readData } ∧
        (s.status.busy = false → k = 0 ∧ n = s.freePos)) ∧
    (s.schedule = .write 0x00 offset v :: rest → v % 2 = 0 → step s = .next { s with schedule := rest }) ∧
    (s.schedule = .read 0x00 offset :: rest → step s = .next { s with schedule := rest, readData := some 0 })

/-- A reset with a command in flight abandons it: it writes nothing, its completion event never happens, and of its draws
only some that it would have consumed on the way to its completion are consumed (70_reset_and_hazards.md R291). How many is
open (log entry 16); the moves are the model's form of the accesses (log entry 3). -/
def Obligations.ResetAbandonsTheCommandInFlight : Prop :=
  ∀ (s : State) (rest : List Move) (offset : DWord) (v : Nat), s.status.busy = true → v < 2 ^ 32 →
    s.schedule = .hardwareReset :: rest ∨ (s.schedule = .write 0x00 offset v :: rest ∧ v % 2 = 1) →
    ∃ k n t, t = { State.reset with schedule := rest, draws := s.draws.drop k, drawPos := s.drawPos + k, freePos := n,
                                    readData := s.readData } ∧
      step s = .next t ∧ blockStep t = .next t ∧
      ∀ u, completeWord { s with schedule := rest } = .next u →
        s.drawPos + k ≤ u.drawPos ∧ (u.drawPos = s.drawPos → n = s.freePos)

/-- Accesses while BUSY = 1: a write to anything but CTRL is ignored, reads of STATUS and of the inputs return the
stored values, and a read of RES, EM or OUT changes nothing in the block and returns some value (20_memory.md R71). The
moves are the model's form of the accesses (log entry 3). -/
def Obligations.AccessesWhileBusy : Prop :=
  ∀ (s : State) (rest : List Move) (index : Nat) (offset : DWord) (v : Nat), s.status.busy = true → s.Inv →
    (s.schedule = .write index offset v :: rest → index ≠ 0x00 → (Port.ofIndex index).fits v s = true →
      step s = .next { s with schedule := rest }) ∧
    (∀ x, (index = 0x01 ∧ x = s.status.word.toNat) ∨ (index = 0x02 ∧ x = s.cmd.toNat) ∨
        (index = 0x03 ∧ x = s.keybits.toNat) ∨ (index = 0x04 ∧ x = s.mrRounds.toNat) ∨
        (index = 0x05 ∧ x = s.msglen.toNat) ∨ (index = 0x06 ∧ x = s.outlen.toNat) ∨ (index = 0x10 ∧ x = s.opa) ∨
        (index = 0x11 ∧ x = s.opb) ∨ (index = 0x12 ∧ x = s.mod) ∨
        (index = 0x20 ∧ x = (s.msg.read offset.toNat).toNat) →
      s.schedule = .read index offset :: rest → step s = .next { s with schedule := rest, readData := some x }) ∧
    (index = 0x13 ∨ index = 0x21 ∨ index = 0x22 → s.schedule = .read index offset :: rest →
      ∃ x, step s = .next { s with schedule := rest, readData := some x, freePos := s.freePos + 1 })

/-- A KEYBITS write of any value stores it and zeroes OPA, OPB, MOD, RES and every byte of EM; it is ignored while BUSY
= 1; and a read returns the stored value in every state (10_state.md R26, R34). The moves are the model's form of the accesses (log entry 3). -/
def Obligations.KeybitsWriteClearsTheOperands : Prop :=
  (∀ (s : State) (rest : List Move) (offset : DWord) (v : Nat), s.schedule = .write 0x03 offset v :: rest → v < 2 ^ 32 →
    (s.status.busy = false → ∃ m : Memory, (∀ a, m.read a = 0) ∧
      step s = .next { s with schedule := rest, keybits := BitVec.ofNat 32 v, opa := 0, opb := 0, mod := 0, res := 0,
                              em := m }) ∧
    (s.status.busy = true → step s = .next { s with schedule := rest })) ∧
  ∀ (s : State) (rest : List Move) (offset : DWord), s.schedule = .read 0x03 offset :: rest →
    step s = .next { s with schedule := rest, readData := some s.keybits.toNat }

/-- The host's view of the big-integer registers: a write of a natural below 2^K stores it and a read returns it, as
`kLen` bytes that determine it; while KEYBITS is not legal a write is ignored and a read returns 0, of EM too
(10_state.md R33). The moves are the model's form of the accesses (log entry 3). -/
def Obligations.HostAccessOfBigRegisters : Prop :=
  ∀ (s : State) (rest : List Move) (offset : DWord) (v : Nat) (r : BigReg) (index : Nat), s.status.busy = false →
    (index = 0x10 ∧ r = .opa) ∨ (index = 0x11 ∧ r = .opb) ∨ (index = 0x12 ∧ r = .mod) →
    (s.legal = true → v < 2 ^ s.keybits.toNat → s.schedule = .write index offset v :: rest →
      step s = .next { s.setBig r v with schedule := rest } ∧ os2ip (i2osp v s.kLen) = v) ∧
    (s.legal = false → s.schedule = .write index offset v :: rest → step s = .next { s with schedule := rest }) ∧
    (s.legal = false → s.schedule = .write 0x21 offset v :: rest → v < 256 → step s = .next { s with schedule := rest }) ∧
    (s.schedule = .read index offset :: rest →
      step s = .next { s with schedule := rest, readData := some (if s.legal then s.getBig r else 0) }) ∧
    (s.schedule = .read 0x13 offset :: rest →
      step s = .next { s with schedule := rest, readData := some (if s.legal then s.res else 0) }) ∧
    (s.legal = false → s.schedule = .read 0x21 offset :: rest →
      step s = .next { s with schedule := rest, readData := some 0 })

/-- MR_ROUNDS, MSGLEN and OUTLEN store every value of their width when the block is idle, and a read returns the stored
value (10_state.md R27 to R29). The moves are the model's form of the accesses (log entry 3). -/
def Obligations.RoundAndLengthRegistersStoreEveryValue : Prop :=
  ∀ (s : State) (rest : List Move) (offset : DWord) (v : Nat), s.status.busy = false →
    (s.schedule = .write 0x04 offset v :: rest → v < 2 ^ 32 →
      ∃ x, x.toNat = v ∧ step s = .next { s with schedule := rest, mrRounds := x }) ∧
    (s.schedule = .write 0x05 offset v :: rest → v < 2 ^ 64 →
      ∃ x, x.toNat = v ∧ step s = .next { s with schedule := rest, msglen := x }) ∧
    (s.schedule = .write 0x06 offset v :: rest → v < 2 ^ 64 →
      ∃ x, x.toNat = v ∧ step s = .next { s with schedule := rest, outlen := x }) ∧
    (s.schedule = .read 0x04 offset :: rest →
      step s = .next { s with schedule := rest, readData := some s.mrRounds.toNat }) ∧
    (s.schedule = .read 0x05 offset :: rest →
      step s = .next { s with schedule := rest, readData := some s.msglen.toNat }) ∧
    (s.schedule = .read 0x06 offset :: rest →
      step s = .next { s with schedule := rest, readData := some s.outlen.toNat })

/-- Byte accesses of the buffers by an idle block's host: a write changes its byte and no other; EM ignores a write and
reads 0 at an index `>= kLen`; OUT ignores writes (10_state.md R30 to R32, 20_memory.md R64). The moves are the model's
form of the accesses (log entry 3). -/
def Obligations.HostAccessOfBuffers : Prop :=
  ∀ (s : State) (rest : List Move) (offset : DWord) (v : Nat), s.status.busy = false → s.Inv → v < 256 →
    (s.schedule = .write 0x20 offset v :: rest → ∃ m : Memory, step s = .next { s with schedule := rest, msg := m } ∧
      ∀ a, (m.read a).toNat = if a = offset.toNat then v else (s.msg.read a).toNat) ∧
    (s.schedule = .write 0x21 offset v :: rest → s.legal = true → offset.toNat < s.kLen →
      ∃ m : Memory, step s = .next { s with schedule := rest, em := m } ∧
        ∀ a, (m.read a).toNat = if a = offset.toNat then v else (s.em.read a).toNat) ∧
    (s.schedule = .write 0x21 offset v :: rest → s.kLen ≤ offset.toNat → step s = .next { s with schedule := rest }) ∧
    (s.schedule = .write 0x22 offset v :: rest → step s = .next { s with schedule := rest }) ∧
    (s.schedule = .read 0x20 offset :: rest →
      step s = .next { s with schedule := rest, readData := some (s.msg.read offset.toNat).toNat }) ∧
    (s.schedule = .read 0x21 offset :: rest → s.legal = true →
      ∃ x, x = (if offset.toNat < s.kLen then (s.em.read offset.toNat).toNat else 0) ∧
        step s = .next { s with schedule := rest, readData := some x }) ∧
    (s.schedule = .read 0x22 offset :: rest →
      step s = .next { s with schedule := rest, readData := some (s.out.read offset.toNat).toNat })

/-- Writes to STATUS, RES and OUT and to every index outside the table are ignored, busy or not, and a read of such an
index returns 0 (10_state.md R38). The moves are the model's form of the accesses (log entry 3). -/
def Obligations.ReadOnlyAndReservedIndices : Prop :=
  ∀ (s : State) (rest : List Move) (index : Nat) (offset : DWord) (v : Nat),
    let reserved := index ∉ [0x00, 0x01, 0x02, 0x03, 0x04, 0x05, 0x06, 0x10, 0x11, 0x12, 0x13, 0x20, 0x21, 0x22]
    (s.schedule = .write index offset v :: rest → reserved → step s = .next { s with schedule := rest }) ∧
    (s.schedule = .write index offset v :: rest → index = 0x01 ∨ index = 0x13 ∨ index = 0x22 →
      (Port.ofIndex index).fits v s = true → step s = .next { s with schedule := rest }) ∧
    (s.schedule = .read index offset :: rest → reserved →
      step s = .next { s with schedule := rest, readData := some 0 })

/-- No read has a side effect: it changes nothing of the block's state (20_memory.md R66). The moves are the model's
form of the accesses (log entry 3). -/
def Obligations.ReadsHaveNoSideEffect : Prop :=
  ∀ (s : State) (rest : List Move) (index : Nat) (offset : DWord), s.schedule = .read index offset :: rest →
    ∃ x n, step s = .next { s with schedule := rest, readData := some x, freePos := n } ∧
      (s.status.busy = false → n = s.freePos)

/-- The 32-bit view of STATUS: each field in its bits, the reserved bits 0; and a host read of STATUS returns it in every
state, idle, running or halted, and changes nothing else (10_state.md R23, 46_control_load_store_system.md R245). The moves
are the model's form of the accesses (log entry 3). -/
def Obligations.StatusWordLayout : Prop :=
  (∀ t : Status, t.word.getLsbD 0 = t.busy ∧ t.word.getLsbD 1 = t.done ∧ t.word.getLsbD 2 = t.fatal ∧
    t.word.getLsbD 3 = t.prime ∧ (∀ j, 4 ≤ j → j ≤ 7 → t.word.getLsbD j = false) ∧ t.word.extractLsb' 8 8 = t.err ∧
    (∀ j, 16 ≤ j → t.word.getLsbD j = false)) ∧
  ∀ (s : State) (rest : List Move) (offset : DWord), s.schedule = .read 0x01 offset :: rest →
    step s = .next { s with schedule := rest, readData := some s.status.word.toNat }

/-- The state after reset meets the invariant. -/
def Obligations.ResetMeetsTheInvariant : Prop := State.reset.Inv

/-- Every step keeps the invariant: the big-integer registers stay below 2^K, and 0 while KEYBITS is not legal, the buffers
keep their form and bounds, and STATUS stays coherent (10_state.md R39). -/
def Obligations.StepKeepsTheInvariant : Prop := ∀ s t : State, s.Inv → step s = .next t → t.Inv
end

