-- ==== Sys2Proof/Laws/Arith.lean ====
section
/-! SUPPORT. The functions under the arithmetic commands: what the exponentiation loop computes
(40_bigint_modular.md R128) and what the parts of a Miller-Rabin test say (41_miller_rabin.md R152, R153). -/

namespace Sys2Proof.Machine

/-- The invariant of the loop: `acc * p ^ e` is unchanged modulo `m` (40_bigint_modular.md R128). -/
theorem modExpLoop_eq (m : Nat) (fuel acc p e : Nat) (he : e < 2 ^ fuel) (hacc : acc % m = acc) :
    modExpLoop m fuel acc p e = acc * p ^ e % m := by
  induction fuel generalizing acc p e with
  | zero =>
    have : e = 0 := by simpa using he
    simp [modExpLoop, this, hacc]
  | succ fuel ih =>
    rw [modExpLoop]
    split
    · next h => simp [h, hacc]
    · next h =>
      have hlt : e / 2 < 2 ^ fuel := by rw [pow_succ] at he; omega
      have hpow : p ^ e = p ^ (e % 2) * (p * p) ^ (e / 2) := by
        rw [← pow_two, ← pow_mul, ← pow_add]
        congr 1; omega
      rw [ih _ _ _ hlt (by split <;> simp [hacc])]
      rcases Nat.mod_two_eq_zero_or_one e with h0 | h1
      · rw [h0, if_neg (by decide), hpow, h0, pow_zero, one_mul]
        exact (Nat.ModEq.refl acc).mul ((Nat.mod_modEq (p * p) m).pow _)
      · rw [h1, if_pos rfl, hpow, h1, pow_one, ← mul_assoc]
        exact (Nat.mod_modEq (acc * p) m).mul ((Nat.mod_modEq (p * p) m).pow _)

/-- `ModExp` returns `base ^ exp mod m` (40_bigint_modular.md R128). -/
theorem modExp_eq (base exp m : Nat) : modExp base exp m = base ^ exp % m := by
  rw [modExp, modExpLoop_eq _ _ _ _ _ Nat.lt_log2_self (by simp)]
  exact ((Nat.mod_modEq 1 m).mul ((Nat.mod_modEq base m).pow _)).trans (by rw [one_mul])

theorem modExp_lt (base exp : Nat) {m : Nat} (h : 0 < m) : modExp base exp m < m := by
  rw [modExp_eq]; exact Nat.mod_lt _ h

theorem halvings_spec (fuel m : Nat) (hm : m ≠ 0) (h : m < 2 ^ fuel) :
    m = 2 ^ (halvings fuel m).1 * (halvings fuel m).2 ∧ (halvings fuel m).2 % 2 = 1 := by
  induction fuel generalizing m with
  | zero => exact absurd (by simpa using h) hm
  | succ fuel ih =>
    rw [halvings]
    split
    · next h0 =>
      obtain ⟨h1, h2⟩ := ih (m / 2) (by omega) (by rw [pow_succ] at h; omega)
      refine ⟨?_, h2⟩
      simp only [pow_succ]
      rw [mul_assoc, mul_comm 2, ← mul_assoc, ← h1]; omega
    · next h0 => simpa using h0

/-- `n - 1 = 2^k * q` with `q` odd (41_miller_rabin.md R152). -/
theorem decompose_spec {n : Nat} (h : 2 ≤ n) :
    n - 1 = 2 ^ (decompose n).1 * (decompose n).2 ∧ (decompose n).2 % 2 = 1 :=
  halvings_spec _ _ (by omega) Nat.lt_log2_self

/-- `n - 1` is even for odd `n`, so `k >= 1` (41_miller_rabin.md R152). -/
theorem decompose_fst_pos {n : Nat} (h : 2 ≤ n) (odd : n % 2 = 1) : 1 ≤ (decompose n).1 := by
  obtain ⟨h1, h2⟩ := decompose_spec h
  by_contra hk
  have : (decompose n).1 = 0 := by omega
  rw [this] at h1
  omega

/-- The squarings look at `t ^ (2 ^ i)` for `i` from 1 to `j` (41_miller_rabin.md R153). -/
theorem squaresReach_iff (n j t : Nat) :
    squaresReach n j t = true ↔ ∃ i, 1 ≤ i ∧ i ≤ j ∧ t ^ 2 ^ i % n = n - 1 := by
  induction j generalizing t with
  | zero => simp [squaresReach]
  | succ j ih =>
    have step : ∀ i, (t * t % n) ^ 2 ^ i % n = t ^ 2 ^ (i + 1) % n := fun i => by
      rw [pow_succ' 2 i, pow_mul, pow_two]
      exact (Nat.mod_modEq (t * t) n).pow _
    rw [squaresReach]
    split
    · next h => exact iff_of_true rfl ⟨1, le_rfl, by omega, by rw [pow_one, pow_two]; exact h⟩
    · next h =>
      rw [ih]
      constructor
      · rintro ⟨i, h1, h2, h3⟩
        exact ⟨i + 1, by omega, by omega, by rw [← step]; exact h3⟩
      · rintro ⟨i, h1, h2, h3⟩
        obtain ⟨i, rfl⟩ := Nat.exists_eq_add_of_le' h1
        rcases Nat.eq_zero_or_pos i with rfl | hi
        · rw [zero_add, pow_one, pow_two] at h3; exact absurd h3 h
        · exact ⟨i, hi, by omega, by rw [step]; exact h3⟩

/-- A round is inconclusive exactly when `a ^ q` is 1, or one of `a ^ q` and its `k - 1` squarings is `n - 1`
(41_miller_rabin.md R153). -/
theorem mrRound_iff (n k q a : Nat) (hk : 1 ≤ k) :
    mrRound n k q a = true ↔ a ^ q % n = 1 ∨ ∃ i < k, a ^ (2 ^ i * q) % n = n - 1 := by
  have step : ∀ i, (a ^ q % n) ^ 2 ^ i % n = a ^ (2 ^ i * q) % n := fun i => by
    rw [mul_comm, pow_mul]; exact (Nat.mod_modEq (a ^ q) n).pow _
  rw [mrRound, modExp_eq]
  split
  · next h =>
    refine iff_of_true rfl (h.imp_right fun h => ⟨0, by omega, by simpa using h⟩)
  · next h =>
    rw [not_or] at h
    rw [squaresReach_iff]
    constructor
    · rintro ⟨i, h1, h2, h3⟩
      exact .inr ⟨i, by omega, by rw [← step]; exact h3⟩
    · rintro (h0 | ⟨i, h1, h2⟩)
      · exact absurd h0 h.1
      · rcases Nat.eq_zero_or_pos i with rfl | hi
        · exact absurd (by simpa using h2) h.2
        · exact ⟨i, hi, by omega, by rw [step]; exact h2⟩

/-- The witness loop passes exactly when every witness below `n - 1` is inconclusive (41_miller_rabin.md R154). -/
theorem witnessLoop_iff (n k q : Nat) (W : List Nat) :
    witnessLoop n k q W = true ↔ ∀ a ∈ W, a < n - 1 → mrRound n k q a = true := by
  induction W with
  | nil => simp [witnessLoop]
  | cons a W ih =>
    rw [witnessLoop]
    split
    · next h => rw [ih]; simp [not_lt.2 h]
    · next h =>
      split
      · next hr => rw [ih]; simp [hr]
      · next hr => simp [hr, not_le.1 h]

/-- The rounds of MRTESTR stop at the first Composite and use one answer a round (41_miller_rabin.md R156). -/
theorem baseLoop_spec (n k q : Nat) (draw : Nat → Nat) (R i : Nat) :
    ((baseLoop n k q draw R i).1 = true ∧ (baseLoop n k q draw R i).2 = i + R ∧
      ∀ j < R, mrRound n k q (drawNat 2 (n - 2) (draw (i + j))) = true) ∨
    (∃ j < R, baseLoop n k q draw R i = (false, i + j + 1) ∧
      mrRound n k q (drawNat 2 (n - 2) (draw (i + j))) = false ∧
      ∀ j' < j, mrRound n k q (drawNat 2 (n - 2) (draw (i + j'))) = true) := by
  induction R generalizing i with
  | zero => left; simp [baseLoop]
  | succ R ih =>
    rw [baseLoop]
    split
    · next h =>
      rcases ih (i + 1) with ⟨h1, h2, h3⟩ | ⟨j, hj, h1, h2, h3⟩
      · refine .inl ⟨h1, by rw [h2]; omega, fun j hj => ?_⟩
        rcases j with _ | j
        · exact h
        · have := h3 j (by omega); rwa [show i + 1 + j = i + (j + 1) by omega] at this
      · refine .inr ⟨j + 1, by omega, by rw [h1]; congr 1; omega, ?_, fun j' hj' => ?_⟩
        · rwa [show i + 1 + j = i + (j + 1) by omega] at h2
        · rcases j' with _ | j'
          · exact h
          · have := h3 j' (by omega); rwa [show i + 1 + j' = i + (j' + 1) by omega] at this
    · next h =>
      exact .inr ⟨0, by omega, rfl, by simpa using h, by simp⟩

/-- A number is a power of two times an odd number in one way. -/
theorem two_pow_mul_odd_unique {k q k' q' : Nat} (h : 2 ^ k * q = 2 ^ k' * q') (hq : q % 2 = 1) (hq' : q' % 2 = 1) :
    k = k' ∧ q = q' := by
  induction k generalizing k' with
  | zero =>
    cases k' with
    | zero => simp at h; exact ⟨rfl, h⟩
    | succ k' => rw [pow_succ, pow_zero, one_mul, mul_assoc, mul_left_comm] at h; omega
  | succ k ih =>
    cases k' with
    | zero => rw [pow_succ, pow_zero, one_mul, mul_assoc, mul_left_comm] at h; omega
    | succ k' =>
      have : 2 ^ k * q = 2 ^ k' * q' := by
        rw [pow_succ, pow_succ, mul_assoc, mul_left_comm, mul_assoc, mul_left_comm _ 2] at h; omega
      obtain ⟨rfl, rfl⟩ := ih this
      exact ⟨rfl, rfl⟩

/-- What a witness round on the decomposition says (41_miller_rabin.md R152, R153). -/
theorem mrRound_decompose_iff {n : Nat} (h : 2 ≤ n) (odd : n % 2 = 1) (a : Nat) :
    mrRound n (decompose n).1 (decompose n).2 a = true ↔ strongProbablePrime n a := by
  obtain ⟨h1, h2⟩ := decompose_spec h
  rw [mrRound_iff _ _ _ _ (decompose_fst_pos h odd)]
  constructor
  · intro hr; exact ⟨_, _, h1, h2, hr⟩
  · rintro ⟨k, q, e, ho, hr⟩
    obtain ⟨rfl, rfl⟩ := two_pow_mul_odd_unique (h1.symm.trans e) h2 ho
    exact hr

end Sys2Proof.Machine
end

