-- ==== Sys2Proof/Laws/Bytes.lean ====
section
/-! SUPPORT. Byte strings: lengths, and that OS2IP and I2OSP undo each other (00_scope.md R17). -/

namespace Sys2Proof.Machine

theorem os2ip_foldl (X : List Byte) (acc : Nat) :
    X.foldl (fun acc b => 256 * acc + b.toNat) acc = acc * 256 ^ X.length + os2ip X := by
  induction X generalizing acc with
  | nil => simp [os2ip]
  | cons b X ih =>
    simp only [os2ip, List.foldl_cons, List.length_cons]
    rw [ih, ih (256 * 0 + b.toNat)]
    ring

@[simp] theorem os2ip_nil : os2ip [] = 0 := rfl

theorem os2ip_cons (b : Byte) (X : List Byte) : os2ip (b :: X) = b.toNat * 256 ^ X.length + os2ip X := by
  show X.foldl _ (256 * 0 + b.toNat) = _
  rw [os2ip_foldl, Nat.mul_zero, Nat.zero_add]

theorem os2ip_append (X Y : List Byte) : os2ip (X ++ Y) = os2ip X * 256 ^ Y.length + os2ip Y := by
  induction X with
  | nil => simp
  | cons b X ih => simp only [List.cons_append, os2ip_cons, List.length_append, ih, pow_add]; ring

theorem os2ip_lt (X : List Byte) : os2ip X < 256 ^ X.length := by
  induction X with
  | nil => simp
  | cons b X ih =>
    rw [os2ip_cons, List.length_cons, pow_succ]
    have hb : b.toNat ≤ 255 := by have := b.isLt; omega
    have := Nat.mul_le_mul_right (256 ^ X.length) hb
    omega

theorem os2ip_zeros (n : Nat) : os2ip (zeros n) = 0 := by
  induction n with
  | zero => rfl
  | succ n ih =>
    rw [zeros, List.replicate_succ, os2ip_cons, ← zeros, ih]
    simp

@[simp] theorem length_i2osp (v n : Nat) : (i2osp v n).length = n := by
  induction n with
  | zero => rfl
  | succ n ih => simp [i2osp, ih]

theorem os2ip_i2osp (v n : Nat) : os2ip (i2osp v n) = v % 256 ^ n := by
  induction n with
  | zero => simp [i2osp, Nat.mod_one]
  | succ n ih =>
    simp only [i2osp, os2ip_cons, length_i2osp, ih, BitVec.toNat_ofNat]
    rw [pow_succ (256 : Nat) n, Nat.mod_mul (x := v), Nat.mul_comm, Nat.add_comm]

theorem os2ip_i2osp_of_lt {v n : Nat} (h : v < 256 ^ n) : os2ip (i2osp v n) = v := by
  rw [os2ip_i2osp, Nat.mod_eq_of_lt h]

theorem i2osp_mod (v n : Nat) : i2osp (v % 256 ^ n) n = i2osp v n := by
  suffices ∀ m, n ≤ m → i2osp (v % 256 ^ m) n = i2osp v n from this n le_rfl
  induction n with
  | zero => intros; rfl
  | succ n ih =>
    intro m hm
    simp only [i2osp]
    refine congrArg₂ _ ?_ (ih m (by omega))
    apply BitVec.eq_of_toNat_eq
    simp only [BitVec.toNat_ofNat]
    obtain ⟨j, rfl⟩ := Nat.exists_eq_add_of_le hm
    rw [pow_add, pow_succ, mul_assoc, Nat.mod_mul_right_div_self, Nat.mod_mul_right_mod]

theorem i2osp_os2ip (X : List Byte) : i2osp (os2ip X) X.length = X := by
  induction X with
  | nil => rfl
  | cons b X ih =>
    have hlt := os2ip_lt X
    simp only [List.length_cons, i2osp, os2ip_cons]
    refine congrArg₂ _ ?_ ?_
    · apply BitVec.eq_of_toNat_eq
      rw [Nat.add_comm, Nat.add_mul_div_right _ _ (by positivity), Nat.div_eq_of_lt hlt]
      simp
    · rw [← i2osp_mod, Nat.mul_comm, Nat.mul_add_mod, Nat.mod_eq_of_lt hlt, ih]

theorem os2ip_injective_of_length {X Y : List Byte} (h : X.length = Y.length) (e : os2ip X = os2ip Y) : X = Y := by
  rw [← i2osp_os2ip X, ← i2osp_os2ip Y, e, h]

@[simp] theorem length_zeros (n : Nat) : (zeros n).length = n := by simp [zeros]

@[simp] theorem length_xorBytes (X Y : List Byte) : (xorBytes X Y).length = min X.length Y.length := by simp [xorBytes]

@[simp] theorem length_slice (X : List Byte) (a b : Nat) : (slice X a b).length = min b X.length - a := by simp [slice]

@[simp] theorem length_clearTopBit (X : List Byte) : (clearTopBit X).length = X.length := by cases X <;> rfl

@[simp] theorem length_hash (h : HashSel) (X : List Byte) : (hash h X).length = hLen h := by simp [hash]

@[simp] theorem length_drawBytes (n a : Nat) : (drawBytes n a).length = n := by simp [drawBytes]

/-- Every byte string of the length is some answer's: a draw is under no law (00_scope.md R11). -/
theorem drawBytes_surjective (X : List Byte) : drawBytes X.length (os2ip X) = X := i2osp_os2ip X

/-- The mask undoes itself. -/
theorem xorBytes_cancel {X Y : List Byte} (h : X.length ≤ Y.length) : xorBytes (xorBytes X Y) Y = X := by
  induction X generalizing Y with
  | nil => rfl
  | cons x X ih =>
    cases Y with
    | nil => simp at h
    | cons y Y =>
      have := ih (Y := Y) (by simpa using h)
      simp only [xorBytes, List.zipWith_cons_cons] at *
      rw [this, BitVec.xor_assoc, BitVec.xor_self, BitVec.xor_zero]

/-- A draw in the range stands for itself, so every base in the range can be drawn (41_miller_rabin.md R157). -/
theorem drawNat_of_mem {lo hi a : Nat} (h₁ : lo ≤ a) (h₂ : a ≤ hi) : drawNat lo hi a = a := by
  rw [drawNat, Nat.mod_eq_of_lt (by omega)]; omega

/-- A drawn natural lies in its range (41_miller_rabin.md R157). -/
theorem drawNat_mem {lo hi : Nat} (h : lo ≤ hi) (a : Nat) : lo ≤ drawNat lo hi a ∧ drawNat lo hi a ≤ hi := by
  have := Nat.mod_lt (a - lo) (show 0 < hi - lo + 1 by omega)
  unfold drawNat; omega

end Sys2Proof.Machine
end

