-- ==== Sys2Proof/Laws/Decode.lean ====
section
/-! SUPPORT. The fields of a command word as numbers, and that they make the word up (30_encoding.md R90, R96). -/

namespace Sys2Proof

theorem Cmd32.ofWord_op_toNat (w : Word) : (Cmd32.ofWord w).op.toNat = w.toNat % 16 := by
  simp [Cmd32.ofWord]

theorem Cmd32.ofWord_hsel_toNat (w : Word) : (Cmd32.ofWord w).hsel.toNat = w.toNat / 16 % 4 := by
  simp [Cmd32.ofWord, Nat.shiftRight_eq_div_pow]

theorem Cmd32.ofWord_reg_toNat (w : Word) : (Cmd32.ofWord w).reg.toNat = w.toNat / 64 % 4 := by
  simp [Cmd32.ofWord, Nat.shiftRight_eq_div_pow]

theorem Cmd32.ofWord_reserved_toNat (w : Word) : (Cmd32.ofWord w).reserved.toNat = w.toNat / 256 := by
  have := w.isLt
  simp [Cmd32.ofWord, Nat.shiftRight_eq_div_pow]
  omega

/-- A word is the sum of its fields in their places. -/
theorem Cmd32.word_toNat (w : Word) :
    w.toNat = (Cmd32.ofWord w).op.toNat + 16 * (Cmd32.ofWord w).hsel.toNat + 64 * (Cmd32.ofWord w).reg.toNat +
      256 * (Cmd32.ofWord w).reserved.toNat := by
  rw [ofWord_op_toNat, ofWord_hsel_toNat, ofWord_reg_toNat, ofWord_reserved_toNat]
  omega

@[simp] theorem HashSel.code_ofBits (b : BitVec 2) : (HashSel.ofBits b).code = b.toNat := by
  revert b; decide

@[simp] theorem BigReg.code_ofBits (b : BitVec 2) : (BigReg.ofBits b).code = b.toNat := by
  revert b; decide

theorem encode_toNat (i : Instr) : (encode i).toNat = i.op + 16 * i.hselField + 64 * i.regField := by
  cases i with
  | mgf1 h | pssenc h | pssdec h | sign h | verify h => cases h <;> rfl
  | importReg r | exportReg r => cases r <;> rfl
  | _ => rfl

end Sys2Proof
end

