-- ==== Sys2Proof/Laws/Memory.lean ====
section
/-! SUPPORT. The byte buffers: reads after writes, and that every operation keeps the form of `Memory`. -/

namespace Sys2Proof.Machine

@[simp] theorem Memory.read_nil (a : Nat) : Memory.read [] a = 0 := rfl

@[simp] theorem Memory.read_cons (a b m x) :
    Memory.read ((a, b) :: m) x = if x = a then b else Memory.read m x := rfl

@[simp] theorem Memory.wf_nil : Memory.wf [] = true := rfl

@[simp] theorem Memory.below_nil (n : Nat) : Memory.below [] n = true := rfl

theorem Memory.wf_cons {a : Nat} {b : Byte} {m : Memory} :
    Memory.wf ((a, b) :: m) = true ↔ b ≠ 0 ∧ (∀ c ∈ m, a < c.1) ∧ m.wf = true := by
  simp [Memory.wf, and_assoc]

theorem Memory.below_iff {m : Memory} {n : Nat} : m.below n = true ↔ ∀ c ∈ m, c.1 < n := by
  simp [Memory.below]

/-- A buffer reads 0x00 wherever nothing is listed. -/
theorem Memory.read_eq_zero {m : Memory} {a : Nat} (h : ∀ c ∈ m, c.1 ≠ a) : m.read a = 0 := by
  induction m with
  | nil => rfl
  | cons c m ih =>
    obtain ⟨a', b⟩ := c
    have h1 : a' ≠ a := h (a', b) (by simp)
    rw [Memory.read, if_neg (by exact fun e => h1 e.symm)]
    exact ih fun c hc => h c (by simp [hc])

theorem Memory.read_above {m : Memory} {n a : Nat} (h : m.below n = true) (ha : n ≤ a) : m.read a = 0 :=
  Memory.read_eq_zero fun c hc => by have := Memory.below_iff.1 h c hc; omega

/-- Read after write: the written byte at its index, and every other byte as before. -/
theorem Memory.read_write {m : Memory} (h : m.wf = true) (a x : Nat) (b : Byte) :
    (m.write a b).read x = if x = a then b else m.read x := by
  induction m with
  | nil =>
    by_cases hb : b = 0
    · rw [Memory.write, if_pos hb, hb]; simp
    · rw [Memory.write, if_neg hb]; simp
  | cons c m ih =>
    obtain ⟨a', b'⟩ := c
    obtain ⟨hb', hlt, hm⟩ := Memory.wf_cons.1 h
    have zero_of_le : ∀ y, y ≤ a' → Memory.read m y = 0 := fun y hy =>
      Memory.read_eq_zero fun c hc => by have := hlt c hc; omega
    rw [Memory.write]
    rcases lt_trichotomy a a' with h1 | rfl | h1
    · rw [if_pos h1]
      by_cases hb : b = 0
      · rw [if_pos hb, hb]
        by_cases hx : x = a
        · rw [if_pos hx, hx, Memory.read_cons, if_neg h1.ne, zero_of_le _ h1.le]
        · rw [if_neg hx]
      · rw [if_neg hb, Memory.read_cons]
    · rw [if_neg (lt_irrefl a), if_pos rfl]
      by_cases hb : b = 0
      · rw [if_pos hb, hb, Memory.read_cons]
        by_cases hx : x = a
        · rw [if_pos hx, hx, zero_of_le _ le_rfl]
        · rw [if_neg hx, if_neg hx]
      · rw [if_neg hb, Memory.read_cons, Memory.read_cons]
        by_cases hx : x = a
        · rw [if_pos hx, if_pos hx]
        · rw [if_neg hx, if_neg hx, if_neg hx]
    · rw [if_neg (by omega), if_neg (by omega), Memory.read_cons, ih hm, Memory.read_cons]
      by_cases hx : x = a'
      · rw [if_pos hx, if_neg (by omega), if_pos hx]
      · rw [if_neg hx, if_neg hx]

theorem Memory.mem_write {m : Memory} {a : Nat} {b : Byte} {c : Host.Cell} (h : c ∈ m.write a b) :
    c = (a, b) ∨ c ∈ m := by
  induction m with
  | nil =>
    unfold Memory.write at h
    split_ifs at h <;> simp at h
    exact .inl h
  | cons c' m ih =>
    obtain ⟨a', b'⟩ := c'
    unfold Memory.write at h
    split_ifs at h <;> simp only [List.mem_cons] at h ⊢
    · exact .inr h
    · exact h
    · exact .inr (.inr h)
    · exact h.imp_right .inr
    · rcases h with h | h
      · exact .inr (.inl h)
      · exact (ih h).imp_right .inr

/-- A write keeps the form. -/
theorem Memory.wf_write {m : Memory} (h : m.wf = true) (a : Nat) (b : Byte) : (m.write a b).wf = true := by
  induction m with
  | nil =>
    unfold Memory.write
    split_ifs with hb
    · rfl
    · exact Memory.wf_cons.2 ⟨hb, by simp, rfl⟩
  | cons c m ih =>
    obtain ⟨a', b'⟩ := c
    obtain ⟨hb', hlt, hm⟩ := Memory.wf_cons.1 h
    unfold Memory.write
    split_ifs with h1 hb h2 hb
    · exact h
    · refine Memory.wf_cons.2 ⟨hb, ?_, h⟩
      intro c hc
      rcases List.mem_cons.1 hc with rfl | hc
      · exact h1
      · have := hlt c hc; omega
    · exact hm
    · exact Memory.wf_cons.2 ⟨hb, fun c hc => by have := hlt c hc; omega, hm⟩
    · refine Memory.wf_cons.2 ⟨hb', ?_, ih hm⟩
      intro c hc
      rcases Memory.mem_write hc with rfl | hc
      · show a' < a; omega
      · exact hlt c hc

/-- A write below a bound keeps the bound. -/
theorem Memory.below_write {m : Memory} {n a : Nat} (h : m.below n = true) (ha : a < n) (b : Byte) :
    (m.write a b).below n = true := by
  rw [Memory.below_iff] at *
  intro c hc
  rcases Memory.mem_write hc with rfl | hc
  · exact ha
  · exact h c hc

theorem Memory.wf_writeBytes {m : Memory} (h : m.wf = true) (a : Nat) (X : List Byte) :
    (m.writeBytes a X).wf = true := by
  induction X generalizing m a with
  | nil => exact h
  | cons b X ih => exact ih (Memory.wf_write h a b) (a + 1)

theorem Memory.below_writeBytes {m : Memory} {n a : Nat} {X : List Byte} (h : m.below n = true)
    (ha : a + X.length ≤ n) : (m.writeBytes a X).below n = true := by
  induction X generalizing m a with
  | nil => exact h
  | cons b X ih =>
    simp only [List.length_cons] at ha
    exact ih (Memory.below_write h (by omega) b) (by omega)

/-- Read after a write of a string: the string's byte inside it, and every other byte as before. -/
theorem Memory.read_writeBytes {m : Memory} (h : m.wf = true) (a x : Nat) (X : List Byte) :
    (m.writeBytes a X).read x = if a ≤ x ∧ x < a + X.length then X[x - a]?.getD 0 else m.read x := by
  induction X generalizing m a with
  | nil =>
    have : ¬(a ≤ x ∧ x < a) := by omega
    simp [Memory.writeBytes, this]
  | cons b X ih =>
    rw [Memory.writeBytes, ih (Memory.wf_write h a b), Memory.read_write h]
    simp only [List.length_cons]
    by_cases h1 : a + 1 ≤ x ∧ x < a + 1 + X.length
    · rw [if_pos h1, if_pos (by omega)]
      obtain ⟨j, rfl⟩ := Nat.exists_eq_add_of_le h1.1
      rw [show a + 1 + j - (a + 1) = j by omega, show a + 1 + j - a = j + 1 by omega, List.getElem?_cons_succ]
    · rw [if_neg h1]
      by_cases h2 : x = a
      · subst h2; simp
      · rw [if_neg h2, if_neg (by omega)]

@[simp] theorem Memory.length_readBytes (m : Memory) (a n : Nat) : (m.readBytes a n).length = n := by
  simp [Memory.readBytes]

theorem Memory.getElem?_readBytes (m : Memory) (a n i : Nat) :
    (m.readBytes a n)[i]? = if i < n then some (m.read (a + i)) else none := by
  by_cases h : i < n <;> simp [Memory.readBytes, h]

/-- Reading back a string that was written. -/
theorem Memory.readBytes_writeBytes {m : Memory} (h : m.wf = true) (a : Nat) (X : List Byte) :
    (m.writeBytes a X).readBytes a X.length = X := by
  apply List.ext_getElem?
  intro i
  rw [Memory.getElem?_readBytes]
  split
  · next hi =>
    rw [Memory.read_writeBytes h, if_pos (by omega), Nat.add_sub_cancel_left, List.getElem?_eq_getElem hi]
    rfl
  · next hi => rw [List.getElem?_eq_none (by omega)]

/-- Equal reads are equal buffers. -/
theorem Memory.ext_of_read {m m' : Memory} (h : m.wf = true) (h' : m'.wf = true)
    (e : ∀ a, m.read a = m'.read a) : m = m' := by
  induction m generalizing m' with
  | nil =>
    cases m' with
    | nil => rfl
    | cons c m' =>
      obtain ⟨a, b⟩ := c
      have := e a
      simp [Memory.read] at this
      exact absurd this.symm (Memory.wf_cons.1 h').1
  | cons c m ih =>
    obtain ⟨a, b⟩ := c
    obtain ⟨hb, hlt, hm⟩ := Memory.wf_cons.1 h
    cases m' with
    | nil =>
      have := e a
      simp [Memory.read] at this
      exact absurd this hb
    | cons c' m' =>
      obtain ⟨a', b'⟩ := c'
      obtain ⟨hb', hlt', hm'⟩ := Memory.wf_cons.1 h'
      have below : ∀ {y : Nat} {m : Memory} {z : Nat}, (∀ c ∈ m, z < c.1) → y ≤ z → m.read y = 0 := fun hl hy =>
        Memory.read_eq_zero fun c hc => by have := hl c hc; omega
      have haa : a = a' := by
        rcases lt_trichotomy a a' with h1 | h1 | h1
        · have := e a
          rw [Memory.read, if_pos rfl, Memory.read, if_neg h1.ne, below hlt' h1.le] at this
          exact absurd this hb
        · exact h1
        · have := e a'
          rw [Memory.read, if_neg h1.ne, below hlt h1.le, Memory.read, if_pos rfl] at this
          exact absurd this.symm hb'
      subst haa
      have hbb : b = b' := by simpa [Memory.read] using e a
      subst hbb
      congr 1
      refine ih hm hm' fun y => ?_
      by_cases hy : y = a
      · rw [below hlt hy.le, below hlt' hy.le]
      · have := e y
        rwa [Memory.read, if_neg hy, Memory.read, if_neg hy] at this

end Sys2Proof.Machine
end

