-- ==== Sys2Proof/Laws/Pss.lean ====
section
/-! SUPPORT. The mask generator byte by byte (43_mgf1.md R181) and the lengths of the PSS strings (44_pss.md R191). -/

namespace Sys2Proof.Machine

/-- The loop with `n` blocks gathered ends with every block whose start lies below `L`. -/
theorem mgfLoop_getElem? {H : List Byte → List Byte} {hl : Nat} (hH : ∀ X, (H X).length = hl) (hl0 : 0 < hl)
    (seed : List Byte) (L fuel i : Nat) (T : List Byte) (hT : T.length = i * hl)
    (hb : ∀ j < T.length, T[j]? = (H (seed ++ i2osp (j / hl) 4))[j % hl]?) (hf : L ≤ i + fuel) :
    L ≤ (mgfLoop H seed L fuel i T).length ∧ ∀ j < (mgfLoop H seed L fuel i T).length,
      (mgfLoop H seed L fuel i T)[j]? = (H (seed ++ i2osp (j / hl) 4))[j % hl]? := by
  have le_mul : i ≤ i * hl := Nat.le_mul_of_pos_right i hl0
  induction fuel generalizing i T with
  | zero => exact ⟨by rw [mgfLoop]; omega, by rw [mgfLoop]; exact hb⟩
  | succ fuel ih =>
    rw [mgfLoop]
    split
    · next hlt =>
      refine ih (i + 1) _ (by rw [List.length_append, hH, hT]; ring) ?_ (by omega)
        (Nat.le_mul_of_pos_right _ hl0)
      intro j hj
      rw [List.length_append, hH] at hj
      by_cases h1 : j < T.length
      · rw [List.getElem?_append_left h1, hb j h1]
      · rw [List.getElem?_append_right (by omega)]
        have hd : j / hl = i := by
          rw [Nat.div_eq_iff hl0]; constructor <;> [rw [hT] at h1; rw [hT] at hj] <;> [omega; omega]
        have hm : j % hl = j - T.length := by
          have := Nat.div_add_mod j hl
          rw [hd, Nat.mul_comm] at this; omega
        rw [hd, hm]
    · next hge => exact ⟨by omega, hb⟩

/-- `Mgf_h(seed, L)` has exactly `L` bytes (43_mgf1.md R180). -/
theorem length_mgf {H : List Byte → List Byte} {hl : Nat} (hH : ∀ X, (H X).length = hl) (hl0 : 0 < hl)
    (seed : List Byte) (L : Nat) : (mgf H seed L).length = L := by
  have := (mgfLoop_getElem? hH hl0 seed L L 0 [] (by simp) (by simp) (by omega)).1
  rw [mgf, List.length_take]; omega

/-- Byte `j` of the mask is byte `j mod hLen` of `Hash_h(seed ‖ I2OSP(j div hLen, 4))` (43_mgf1.md R181). -/
theorem mgf_getElem? {H : List Byte → List Byte} {hl : Nat} (hH : ∀ X, (H X).length = hl) (hl0 : 0 < hl)
    (seed : List Byte) {L j : Nat} (hj : j < L) :
    (mgf H seed L)[j]? = (H (seed ++ i2osp (j / hl) 4))[j % hl]? := by
  obtain ⟨h1, h2⟩ := mgfLoop_getElem? hH hl0 seed L L 0 [] (by simp) (by simp) (by omega)
  rw [mgf, List.getElem?_take_of_lt hj, h2 j (by omega)]

theorem hLen_pos (h : HashSel) : 0 < hLen h := by cases h <;> decide

@[simp] theorem length_mgf_hash (h : HashSel) (seed : List Byte) (L : Nat) : (mgf (hash h) seed L).length = L :=
  length_mgf (length_hash h) (hLen_pos h) seed L

/-- DB has `dbLen` bytes (44_pss.md R191). -/
theorem length_dataBlock {kl hl : Nat} {salt : List Byte} (hs : salt.length = hl) (hk : 2 * hl + 2 ≤ kl) :
    (dataBlock kl hl salt).length = dbLen kl hl := by
  simp [dataBlock, hs, psLen, dbLen]; omega

/-- The encoding has `kLen` bytes (44_pss.md R202). -/
theorem length_pssEncode {H : List Byte → List Byte} {hl kl : Nat} (hH : ∀ X, (H X).length = hl) (hl0 : 0 < hl)
    (M : List Byte) {salt : List Byte} (hs : salt.length = hl) (hk : 2 * hl + 2 ≤ kl) :
    (pssEncode H hl kl M salt).length = kl := by
  simp only [pssEncode, length_clearTopBit, List.length_append, length_xorBytes, length_dataBlock hs hk,
    length_mgf hH hl0, hH, List.length_singleton, min_self, dbLen]
  omega

/-- A slice that is the middle of three pieces. -/
theorem slice_middle {A B C : List Byte} {a b : Nat} (ha : A.length = a) (hb : a + B.length = b) :
    slice (A ++ B ++ C) a b = B := by
  subst ha; subst hb
  rw [slice, List.take_left' (by simp)]; simp

/-- A slice that is the first of two pieces. -/
theorem slice_front {A B : List Byte} {a : Nat} (ha : A.length = a) : slice (A ++ B) 0 a = A := by
  subst ha; simp [slice]

theorem clearTopBit_append {X : List Byte} (h : X ≠ []) (Y : List Byte) : clearTopBit (X ++ Y) = clearTopBit X ++ Y := by
  cases X with
  | nil => exact absurd rfl h
  | cons => rfl

/-- The first bit is clear (44_pss.md R199). -/
theorem clearTopBit_head (X : List Byte) : (clearTopBit X)[0]?.getD 0 &&& 0x80 = 0 := by
  cases X with
  | nil => rfl
  | cons b X => simp only [clearTopBit]; simp [BitVec.and_assoc]

/-- The byte string `clearTopBit(X xor mask) ‖ digest ‖ 0xBC`, the mask being that of the digest: the form of an encoding
(44_pss.md R198, R199, R202). -/
def maskedEncoding (H : List Byte → List Byte) (hl kl : Nat) (X digest : List Byte) : List Byte :=
  clearTopBit (xorBytes X (mgf H digest (dbLen kl hl))) ++ digest ++ [0xBC]

theorem length_maskedEncoding {H : List Byte → List Byte} {hl kl : Nat} (hH : ∀ X, (H X).length = hl) (hl0 : 0 < hl)
    {X digest : List Byte} (hX : X.length = dbLen kl hl) (hd : digest.length = hl) (hk : hl + 1 ≤ kl) :
    (maskedEncoding H hl kl X digest).length = kl := by
  simp only [maskedEncoding, List.length_append, length_clearTopBit, length_xorBytes, hX, length_mgf hH hl0, hd,
    min_self, List.length_singleton, dbLen]
  omega

/-- What the encoder builds (44_pss.md R202). -/
theorem pssEncode_eq_masked {H : List Byte → List Byte} {hl kl : Nat} (hH : ∀ X, (H X).length = hl) (hl0 : 0 < hl)
    (M : List Byte) {salt : List Byte} (hs : salt.length = hl) (hk : 2 * hl + 2 ≤ kl) :
    pssEncode H hl kl M salt = maskedEncoding H hl kl (dataBlock kl hl salt) (H (mPrime (H M) salt)) := by
  have hlen : (xorBytes (dataBlock kl hl salt) (mgf H (H (mPrime (H M) salt)) (dbLen kl hl))).length = dbLen kl hl := by
    rw [length_xorBytes, length_dataBlock hs hk, length_mgf hH hl0, min_self]
  rw [pssEncode, maskedEncoding, List.append_assoc, clearTopBit_append, List.append_assoc]
  intro h0
  rw [h0] at hlen
  simp [dbLen] at hlen
  omega

/-- The digest stands where the decoder takes it from (44_pss.md R207). -/
theorem slice_maskedEncoding {H : List Byte → List Byte} {hl kl : Nat} (hH : ∀ X, (H X).length = hl) (hl0 : 0 < hl)
    {X digest : List Byte} (hX : X.length = dbLen kl hl) (hd : digest.length = hl) :
    slice (maskedEncoding H hl kl X digest) (dbLen kl hl) (dbLen kl hl + hl) = digest :=
  slice_middle (by rw [length_clearTopBit, length_xorBytes, hX, length_mgf hH hl0, min_self]) (by rw [hd])

/-- The decoder recovers the masked string when its first byte is below 0x80 (44_pss.md R207, R208). -/
theorem recoverDB_maskedEncoding {H : List Byte → List Byte} {hl kl : Nat} (hH : ∀ X, (H X).length = hl) (hl0 : 0 < hl)
    {b : Byte} {X digest : List Byte} (hb : b &&& 0x7F = b) (hX : (b :: X).length = dbLen kl hl)
    (hd : digest.length = hl) : recoverDB H hl kl (maskedEncoding H hl kl (b :: X) digest) = b :: X := by
  have clear : ∀ m : Byte, ((b ^^^ m) &&& 0x7F ^^^ m) &&& 0x7F = b := by
    intro m
    have : ∀ x y : Byte, ((x ^^^ y) &&& 0x7F ^^^ y) &&& 0x7F = x &&& 0x7F := by
      intro x y
      ext i hi
      simp only [BitVec.getElem_and, BitVec.getElem_xor]
      cases x[i] <;> cases y[i] <;> cases (0x7F : Byte)[i] <;> rfl
    rw [this, hb]
  rw [recoverDB, slice_maskedEncoding hH hl0 hX hd, maskedEncoding, List.append_assoc,
    slice_front (by rw [length_clearTopBit, length_xorBytes, hX, length_mgf hH hl0, min_self])]
  have hm := length_mgf hH hl0 digest (dbLen kl hl)
  generalize mgf H digest (dbLen kl hl) = mask at *
  cases mask with
  | nil => rw [← hm] at hX; cases hX
  | cons m mask =>
    have hx : xorBytes (xorBytes X mask) mask = X := xorBytes_cancel (by simp at hX hm; omega)
    simp only [xorBytes, List.zipWith_cons_cons, clearTopBit] at hx ⊢
    rw [hx, clear]

end Sys2Proof.Machine
end

