-- ==== Sys2Proof/Laws/State.lean ====
section
/-! SUPPORT. For each named update of the state or of STATUS, what each field holds after it. -/

namespace Sys2Proof.Machine

/-! ### consumeDraws -/

@[simp] theorem State.consumeDraws_opa (s : State) (n : Nat) : (s.consumeDraws n).opa = s.opa := rfl
@[simp] theorem State.consumeDraws_opb (s : State) (n : Nat) : (s.consumeDraws n).opb = s.opb := rfl
@[simp] theorem State.consumeDraws_mod (s : State) (n : Nat) : (s.consumeDraws n).mod = s.mod := rfl
@[simp] theorem State.consumeDraws_res (s : State) (n : Nat) : (s.consumeDraws n).res = s.res := rfl
@[simp] theorem State.consumeDraws_status (s : State) (n : Nat) : (s.consumeDraws n).status = s.status := rfl
@[simp] theorem State.consumeDraws_cmd (s : State) (n : Nat) : (s.consumeDraws n).cmd = s.cmd := rfl
@[simp] theorem State.consumeDraws_keybits (s : State) (n : Nat) : (s.consumeDraws n).keybits = s.keybits := rfl
@[simp] theorem State.consumeDraws_mrRounds (s : State) (n : Nat) : (s.consumeDraws n).mrRounds = s.mrRounds := rfl
@[simp] theorem State.consumeDraws_msglen (s : State) (n : Nat) : (s.consumeDraws n).msglen = s.msglen := rfl
@[simp] theorem State.consumeDraws_outlen (s : State) (n : Nat) : (s.consumeDraws n).outlen = s.outlen := rfl
@[simp] theorem State.consumeDraws_msg (s : State) (n : Nat) : (s.consumeDraws n).msg = s.msg := rfl
@[simp] theorem State.consumeDraws_em (s : State) (n : Nat) : (s.consumeDraws n).em = s.em := rfl
@[simp] theorem State.consumeDraws_out (s : State) (n : Nat) : (s.consumeDraws n).out = s.out := rfl
@[simp] theorem State.consumeDraws_schedule (s : State) (n : Nat) : (s.consumeDraws n).schedule = s.schedule := rfl
@[simp] theorem State.consumeDraws_draws (s : State) (n : Nat) : (s.consumeDraws n).draws = s.draws.drop n := rfl
@[simp] theorem State.consumeDraws_drawPos (s : State) (n : Nat) : (s.consumeDraws n).drawPos = s.drawPos + n := rfl
@[simp] theorem State.consumeDraws_freePos (s : State) (n : Nat) : (s.consumeDraws n).freePos = s.freePos := rfl
@[simp] theorem State.consumeDraws_readData (s : State) (n : Nat) : (s.consumeDraws n).readData = s.readData := rfl
@[simp] theorem State.consumeDraws_keySize (s : State) (n : Nat) : (s.consumeDraws n).keySize = s.keySize := rfl
@[simp] theorem State.consumeDraws_kLen (s : State) (n : Nat) : (s.consumeDraws n).kLen = s.kLen := rfl
@[simp] theorem State.consumeDraws_legal (s : State) (n : Nat) : (s.consumeDraws n).legal = s.legal := rfl
@[simp] theorem State.consumeDraws_message (s : State) (n : Nat) : (s.consumeDraws n).message = s.message := rfl

/-! ### complete -/

@[simp] theorem State.complete_opa (s : State) : (s.complete).opa = s.opa := rfl
@[simp] theorem State.complete_opb (s : State) : (s.complete).opb = s.opb := rfl
@[simp] theorem State.complete_mod (s : State) : (s.complete).mod = s.mod := rfl
@[simp] theorem State.complete_res (s : State) : (s.complete).res = s.res := rfl
@[simp] theorem State.complete_status (s : State) : (s.complete).status = s.status.complete := rfl
@[simp] theorem State.complete_cmd (s : State) : (s.complete).cmd = s.cmd := rfl
@[simp] theorem State.complete_keybits (s : State) : (s.complete).keybits = s.keybits := rfl
@[simp] theorem State.complete_mrRounds (s : State) : (s.complete).mrRounds = s.mrRounds := rfl
@[simp] theorem State.complete_msglen (s : State) : (s.complete).msglen = s.msglen := rfl
@[simp] theorem State.complete_outlen (s : State) : (s.complete).outlen = s.outlen := rfl
@[simp] theorem State.complete_msg (s : State) : (s.complete).msg = s.msg := rfl
@[simp] theorem State.complete_em (s : State) : (s.complete).em = s.em := rfl
@[simp] theorem State.complete_out (s : State) : (s.complete).out = s.out := rfl
@[simp] theorem State.complete_schedule (s : State) : (s.complete).schedule = s.schedule := rfl
@[simp] theorem State.complete_draws (s : State) : (s.complete).draws = s.draws := rfl
@[simp] theorem State.complete_drawPos (s : State) : (s.complete).drawPos = s.drawPos := rfl
@[simp] theorem State.complete_freePos (s : State) : (s.complete).freePos = s.freePos := rfl
@[simp] theorem State.complete_readData (s : State) : (s.complete).readData = s.readData := rfl
@[simp] theorem State.complete_keySize (s : State) : (s.complete).keySize = s.keySize := rfl
@[simp] theorem State.complete_kLen (s : State) : (s.complete).kLen = s.kLen := rfl
@[simp] theorem State.complete_legal (s : State) : (s.complete).legal = s.legal := rfl
@[simp] theorem State.complete_message (s : State) : (s.complete).message = s.message := rfl

/-! ### completeError -/

@[simp] theorem State.completeError_opa (s : State) (k : ErrorKind) : (s.completeError k).opa = s.opa := rfl
@[simp] theorem State.completeError_opb (s : State) (k : ErrorKind) : (s.completeError k).opb = s.opb := rfl
@[simp] theorem State.completeError_mod (s : State) (k : ErrorKind) : (s.completeError k).mod = s.mod := rfl
@[simp] theorem State.completeError_res (s : State) (k : ErrorKind) : (s.completeError k).res = s.res := rfl
@[simp] theorem State.completeError_status (s : State) (k : ErrorKind) : (s.completeError k).status = s.status.completeError k := rfl
@[simp] theorem State.completeError_cmd (s : State) (k : ErrorKind) : (s.completeError k).cmd = s.cmd := rfl
@[simp] theorem State.completeError_keybits (s : State) (k : ErrorKind) : (s.completeError k).keybits = s.keybits := rfl
@[simp] theorem State.completeError_mrRounds (s : State) (k : ErrorKind) : (s.completeError k).mrRounds = s.mrRounds := rfl
@[simp] theorem State.completeError_msglen (s : State) (k : ErrorKind) : (s.completeError k).msglen = s.msglen := rfl
@[simp] theorem State.completeError_outlen (s : State) (k : ErrorKind) : (s.completeError k).outlen = s.outlen := rfl
@[simp] theorem State.completeError_msg (s : State) (k : ErrorKind) : (s.completeError k).msg = s.msg := rfl
@[simp] theorem State.completeError_em (s : State) (k : ErrorKind) : (s.completeError k).em = s.em := rfl
@[simp] theorem State.completeError_out (s : State) (k : ErrorKind) : (s.completeError k).out = s.out := rfl
@[simp] theorem State.completeError_schedule (s : State) (k : ErrorKind) : (s.completeError k).schedule = s.schedule := rfl
@[simp] theorem State.completeError_draws (s : State) (k : ErrorKind) : (s.completeError k).draws = s.draws := rfl
@[simp] theorem State.completeError_drawPos (s : State) (k : ErrorKind) : (s.completeError k).drawPos = s.drawPos := rfl
@[simp] theorem State.completeError_freePos (s : State) (k : ErrorKind) : (s.completeError k).freePos = s.freePos := rfl
@[simp] theorem State.completeError_readData (s : State) (k : ErrorKind) : (s.completeError k).readData = s.readData := rfl
@[simp] theorem State.completeError_keySize (s : State) (k : ErrorKind) : (s.completeError k).keySize = s.keySize := rfl
@[simp] theorem State.completeError_kLen (s : State) (k : ErrorKind) : (s.completeError k).kLen = s.kLen := rfl
@[simp] theorem State.completeError_legal (s : State) (k : ErrorKind) : (s.completeError k).legal = s.legal := rfl
@[simp] theorem State.completeError_message (s : State) (k : ErrorKind) : (s.completeError k).message = s.message := rfl

/-! ### halt -/

@[simp] theorem State.halt_opa (s : State) : (s.halt).opa = s.opa := rfl
@[simp] theorem State.halt_opb (s : State) : (s.halt).opb = s.opb := rfl
@[simp] theorem State.halt_mod (s : State) : (s.halt).mod = s.mod := rfl
@[simp] theorem State.halt_res (s : State) : (s.halt).res = s.res := rfl
@[simp] theorem State.halt_status (s : State) : (s.halt).status = s.status.halt := rfl
@[simp] theorem State.halt_cmd (s : State) : (s.halt).cmd = s.cmd := rfl
@[simp] theorem State.halt_keybits (s : State) : (s.halt).keybits = s.keybits := rfl
@[simp] theorem State.halt_mrRounds (s : State) : (s.halt).mrRounds = s.mrRounds := rfl
@[simp] theorem State.halt_msglen (s : State) : (s.halt).msglen = s.msglen := rfl
@[simp] theorem State.halt_outlen (s : State) : (s.halt).outlen = s.outlen := rfl
@[simp] theorem State.halt_msg (s : State) : (s.halt).msg = s.msg := rfl
@[simp] theorem State.halt_em (s : State) : (s.halt).em = s.em := rfl
@[simp] theorem State.halt_out (s : State) : (s.halt).out = s.out := rfl
@[simp] theorem State.halt_schedule (s : State) : (s.halt).schedule = s.schedule := rfl
@[simp] theorem State.halt_draws (s : State) : (s.halt).draws = s.draws := rfl
@[simp] theorem State.halt_drawPos (s : State) : (s.halt).drawPos = s.drawPos := rfl
@[simp] theorem State.halt_freePos (s : State) : (s.halt).freePos = s.freePos := rfl
@[simp] theorem State.halt_readData (s : State) : (s.halt).readData = s.readData := rfl
@[simp] theorem State.halt_keySize (s : State) : (s.halt).keySize = s.keySize := rfl
@[simp] theorem State.halt_kLen (s : State) : (s.halt).kLen = s.kLen := rfl
@[simp] theorem State.halt_legal (s : State) : (s.halt).legal = s.legal := rfl
@[simp] theorem State.halt_message (s : State) : (s.halt).message = s.message := rfl

/-! ### issue -/

@[simp] theorem State.issue_opa (s : State) (w : Word) : (s.issue w).opa = s.opa := rfl
@[simp] theorem State.issue_opb (s : State) (w : Word) : (s.issue w).opb = s.opb := rfl
@[simp] theorem State.issue_mod (s : State) (w : Word) : (s.issue w).mod = s.mod := rfl
@[simp] theorem State.issue_res (s : State) (w : Word) : (s.issue w).res = s.res := rfl
@[simp] theorem State.issue_status (s : State) (w : Word) : (s.issue w).status = s.status.issue := rfl
@[simp] theorem State.issue_cmd (s : State) (w : Word) : (s.issue w).cmd = w := rfl
@[simp] theorem State.issue_keybits (s : State) (w : Word) : (s.issue w).keybits = s.keybits := rfl
@[simp] theorem State.issue_mrRounds (s : State) (w : Word) : (s.issue w).mrRounds = s.mrRounds := rfl
@[simp] theorem State.issue_msglen (s : State) (w : Word) : (s.issue w).msglen = s.msglen := rfl
@[simp] theorem State.issue_outlen (s : State) (w : Word) : (s.issue w).outlen = s.outlen := rfl
@[simp] theorem State.issue_msg (s : State) (w : Word) : (s.issue w).msg = s.msg := rfl
@[simp] theorem State.issue_em (s : State) (w : Word) : (s.issue w).em = s.em := rfl
@[simp] theorem State.issue_out (s : State) (w : Word) : (s.issue w).out = s.out := rfl
@[simp] theorem State.issue_schedule (s : State) (w : Word) : (s.issue w).schedule = s.schedule := rfl
@[simp] theorem State.issue_draws (s : State) (w : Word) : (s.issue w).draws = s.draws := rfl
@[simp] theorem State.issue_drawPos (s : State) (w : Word) : (s.issue w).drawPos = s.drawPos := rfl
@[simp] theorem State.issue_freePos (s : State) (w : Word) : (s.issue w).freePos = s.freePos := rfl
@[simp] theorem State.issue_readData (s : State) (w : Word) : (s.issue w).readData = s.readData := rfl
@[simp] theorem State.issue_keySize (s : State) (w : Word) : (s.issue w).keySize = s.keySize := rfl
@[simp] theorem State.issue_kLen (s : State) (w : Word) : (s.issue w).kLen = s.kLen := rfl
@[simp] theorem State.issue_legal (s : State) (w : Word) : (s.issue w).legal = s.legal := rfl
@[simp] theorem State.issue_message (s : State) (w : Word) : (s.issue w).message = s.message := rfl

/-! ### resetBlock -/

@[simp] theorem State.resetBlock_opa (s : State) : (s.resetBlock).opa = 0 := rfl
@[simp] theorem State.resetBlock_opb (s : State) : (s.resetBlock).opb = 0 := rfl
@[simp] theorem State.resetBlock_mod (s : State) : (s.resetBlock).mod = 0 := rfl
@[simp] theorem State.resetBlock_res (s : State) : (s.resetBlock).res = 0 := rfl
@[simp] theorem State.resetBlock_status (s : State) : (s.resetBlock).status = Status.reset := rfl
@[simp] theorem State.resetBlock_cmd (s : State) : (s.resetBlock).cmd = 0 := rfl
@[simp] theorem State.resetBlock_keybits (s : State) : (s.resetBlock).keybits = 0 := rfl
@[simp] theorem State.resetBlock_mrRounds (s : State) : (s.resetBlock).mrRounds = 50 := rfl
@[simp] theorem State.resetBlock_msglen (s : State) : (s.resetBlock).msglen = 0 := rfl
@[simp] theorem State.resetBlock_outlen (s : State) : (s.resetBlock).outlen = 0 := rfl
@[simp] theorem State.resetBlock_msg (s : State) : (s.resetBlock).msg = [] := rfl
@[simp] theorem State.resetBlock_em (s : State) : (s.resetBlock).em = [] := rfl
@[simp] theorem State.resetBlock_out (s : State) : (s.resetBlock).out = [] := rfl
@[simp] theorem State.resetBlock_schedule (s : State) : (s.resetBlock).schedule = s.schedule := rfl
@[simp] theorem State.resetBlock_draws (s : State) : (s.resetBlock).draws = s.draws := rfl
@[simp] theorem State.resetBlock_drawPos (s : State) : (s.resetBlock).drawPos = s.drawPos := rfl
@[simp] theorem State.resetBlock_freePos (s : State) : (s.resetBlock).freePos = s.freePos := rfl
@[simp] theorem State.resetBlock_readData (s : State) : (s.resetBlock).readData = s.readData := rfl

/-! ### resetEvent -/

@[simp] theorem State.resetEvent_opa (s : State) : (s.resetEvent).opa = 0 := rfl
@[simp] theorem State.resetEvent_opb (s : State) : (s.resetEvent).opb = 0 := rfl
@[simp] theorem State.resetEvent_mod (s : State) : (s.resetEvent).mod = 0 := rfl
@[simp] theorem State.resetEvent_res (s : State) : (s.resetEvent).res = 0 := rfl
@[simp] theorem State.resetEvent_status (s : State) : (s.resetEvent).status = Status.reset := rfl
@[simp] theorem State.resetEvent_cmd (s : State) : (s.resetEvent).cmd = 0 := rfl
@[simp] theorem State.resetEvent_keybits (s : State) : (s.resetEvent).keybits = 0 := rfl
@[simp] theorem State.resetEvent_mrRounds (s : State) : (s.resetEvent).mrRounds = 50 := rfl
@[simp] theorem State.resetEvent_msglen (s : State) : (s.resetEvent).msglen = 0 := rfl
@[simp] theorem State.resetEvent_outlen (s : State) : (s.resetEvent).outlen = 0 := rfl
@[simp] theorem State.resetEvent_msg (s : State) : (s.resetEvent).msg = [] := rfl
@[simp] theorem State.resetEvent_em (s : State) : (s.resetEvent).em = [] := rfl
@[simp] theorem State.resetEvent_out (s : State) : (s.resetEvent).out = [] := rfl
@[simp] theorem State.resetEvent_schedule (s : State) : (s.resetEvent).schedule = s.schedule := by
  unfold State.resetEvent State.abandonCommand; split <;> rfl
@[simp] theorem State.resetEvent_readData (s : State) : (s.resetEvent).readData = s.readData := by
  unfold State.resetEvent State.abandonCommand; split <;> rfl

/-! ### setRes -/

@[simp] theorem State.setRes_opa (s : State) (v : Nat) : (s.setRes v).opa = s.opa := rfl
@[simp] theorem State.setRes_opb (s : State) (v : Nat) : (s.setRes v).opb = s.opb := rfl
@[simp] theorem State.setRes_mod (s : State) (v : Nat) : (s.setRes v).mod = s.mod := rfl
@[simp] theorem State.setRes_res (s : State) (v : Nat) : (s.setRes v).res = v := rfl
@[simp] theorem State.setRes_status (s : State) (v : Nat) : (s.setRes v).status = s.status := rfl
@[simp] theorem State.setRes_cmd (s : State) (v : Nat) : (s.setRes v).cmd = s.cmd := rfl
@[simp] theorem State.setRes_keybits (s : State) (v : Nat) : (s.setRes v).keybits = s.keybits := rfl
@[simp] theorem State.setRes_mrRounds (s : State) (v : Nat) : (s.setRes v).mrRounds = s.mrRounds := rfl
@[simp] theorem State.setRes_msglen (s : State) (v : Nat) : (s.setRes v).msglen = s.msglen := rfl
@[simp] theorem State.setRes_outlen (s : State) (v : Nat) : (s.setRes v).outlen = s.outlen := rfl
@[simp] theorem State.setRes_msg (s : State) (v : Nat) : (s.setRes v).msg = s.msg := rfl
@[simp] theorem State.setRes_em (s : State) (v : Nat) : (s.setRes v).em = s.em := rfl
@[simp] theorem State.setRes_out (s : State) (v : Nat) : (s.setRes v).out = s.out := rfl
@[simp] theorem State.setRes_schedule (s : State) (v : Nat) : (s.setRes v).schedule = s.schedule := rfl
@[simp] theorem State.setRes_draws (s : State) (v : Nat) : (s.setRes v).draws = s.draws := rfl
@[simp] theorem State.setRes_drawPos (s : State) (v : Nat) : (s.setRes v).drawPos = s.drawPos := rfl
@[simp] theorem State.setRes_freePos (s : State) (v : Nat) : (s.setRes v).freePos = s.freePos := rfl
@[simp] theorem State.setRes_readData (s : State) (v : Nat) : (s.setRes v).readData = s.readData := rfl
@[simp] theorem State.setRes_keySize (s : State) (v : Nat) : (s.setRes v).keySize = s.keySize := rfl
@[simp] theorem State.setRes_kLen (s : State) (v : Nat) : (s.setRes v).kLen = s.kLen := rfl
@[simp] theorem State.setRes_legal (s : State) (v : Nat) : (s.setRes v).legal = s.legal := rfl
@[simp] theorem State.setRes_message (s : State) (v : Nat) : (s.setRes v).message = s.message := rfl

/-! ### putEm -/

@[simp] theorem State.putEm_opa (s : State) (X : List Byte) : (s.putEm X).opa = s.opa := rfl
@[simp] theorem State.putEm_opb (s : State) (X : List Byte) : (s.putEm X).opb = s.opb := rfl
@[simp] theorem State.putEm_mod (s : State) (X : List Byte) : (s.putEm X).mod = s.mod := rfl
@[simp] theorem State.putEm_res (s : State) (X : List Byte) : (s.putEm X).res = s.res := rfl
@[simp] theorem State.putEm_status (s : State) (X : List Byte) : (s.putEm X).status = s.status := rfl
@[simp] theorem State.putEm_cmd (s : State) (X : List Byte) : (s.putEm X).cmd = s.cmd := rfl
@[simp] theorem State.putEm_keybits (s : State) (X : List Byte) : (s.putEm X).keybits = s.keybits := rfl
@[simp] theorem State.putEm_mrRounds (s : State) (X : List Byte) : (s.putEm X).mrRounds = s.mrRounds := rfl
@[simp] theorem State.putEm_msglen (s : State) (X : List Byte) : (s.putEm X).msglen = s.msglen := rfl
@[simp] theorem State.putEm_outlen (s : State) (X : List Byte) : (s.putEm X).outlen = s.outlen := rfl
@[simp] theorem State.putEm_msg (s : State) (X : List Byte) : (s.putEm X).msg = s.msg := rfl
@[simp] theorem State.putEm_em (s : State) (X : List Byte) : (s.putEm X).em = s.em.writeBytes 0 X := rfl
@[simp] theorem State.putEm_out (s : State) (X : List Byte) : (s.putEm X).out = s.out := rfl
@[simp] theorem State.putEm_schedule (s : State) (X : List Byte) : (s.putEm X).schedule = s.schedule := rfl
@[simp] theorem State.putEm_draws (s : State) (X : List Byte) : (s.putEm X).draws = s.draws := rfl
@[simp] theorem State.putEm_drawPos (s : State) (X : List Byte) : (s.putEm X).drawPos = s.drawPos := rfl
@[simp] theorem State.putEm_freePos (s : State) (X : List Byte) : (s.putEm X).freePos = s.freePos := rfl
@[simp] theorem State.putEm_readData (s : State) (X : List Byte) : (s.putEm X).readData = s.readData := rfl
@[simp] theorem State.putEm_keySize (s : State) (X : List Byte) : (s.putEm X).keySize = s.keySize := rfl
@[simp] theorem State.putEm_kLen (s : State) (X : List Byte) : (s.putEm X).kLen = s.kLen := rfl
@[simp] theorem State.putEm_legal (s : State) (X : List Byte) : (s.putEm X).legal = s.legal := rfl
@[simp] theorem State.putEm_message (s : State) (X : List Byte) : (s.putEm X).message = s.message := rfl

/-! ### putOut -/

@[simp] theorem State.putOut_opa (s : State) (X : List Byte) : (s.putOut X).opa = s.opa := rfl
@[simp] theorem State.putOut_opb (s : State) (X : List Byte) : (s.putOut X).opb = s.opb := rfl
@[simp] theorem State.putOut_mod (s : State) (X : List Byte) : (s.putOut X).mod = s.mod := rfl
@[simp] theorem State.putOut_res (s : State) (X : List Byte) : (s.putOut X).res = s.res := rfl
@[simp] theorem State.putOut_status (s : State) (X : List Byte) : (s.putOut X).status = s.status := rfl
@[simp] theorem State.putOut_cmd (s : State) (X : List Byte) : (s.putOut X).cmd = s.cmd := rfl
@[simp] theorem State.putOut_keybits (s : State) (X : List Byte) : (s.putOut X).keybits = s.keybits := rfl
@[simp] theorem State.putOut_mrRounds (s : State) (X : List Byte) : (s.putOut X).mrRounds = s.mrRounds := rfl
@[simp] theorem State.putOut_msglen (s : State) (X : List Byte) : (s.putOut X).msglen = s.msglen := rfl
@[simp] theorem State.putOut_outlen (s : State) (X : List Byte) : (s.putOut X).outlen = s.outlen := rfl
@[simp] theorem State.putOut_msg (s : State) (X : List Byte) : (s.putOut X).msg = s.msg := rfl
@[simp] theorem State.putOut_em (s : State) (X : List Byte) : (s.putOut X).em = s.em := rfl
@[simp] theorem State.putOut_out (s : State) (X : List Byte) : (s.putOut X).out = s.out.writeBytes 0 X := rfl
@[simp] theorem State.putOut_schedule (s : State) (X : List Byte) : (s.putOut X).schedule = s.schedule := rfl
@[simp] theorem State.putOut_draws (s : State) (X : List Byte) : (s.putOut X).draws = s.draws := rfl
@[simp] theorem State.putOut_drawPos (s : State) (X : List Byte) : (s.putOut X).drawPos = s.drawPos := rfl
@[simp] theorem State.putOut_freePos (s : State) (X : List Byte) : (s.putOut X).freePos = s.freePos := rfl
@[simp] theorem State.putOut_readData (s : State) (X : List Byte) : (s.putOut X).readData = s.readData := rfl
@[simp] theorem State.putOut_keySize (s : State) (X : List Byte) : (s.putOut X).keySize = s.keySize := rfl
@[simp] theorem State.putOut_kLen (s : State) (X : List Byte) : (s.putOut X).kLen = s.kLen := rfl
@[simp] theorem State.putOut_legal (s : State) (X : List Byte) : (s.putOut X).legal = s.legal := rfl
@[simp] theorem State.putOut_message (s : State) (X : List Byte) : (s.putOut X).message = s.message := rfl

/-! ### setPrime -/

@[simp] theorem State.setPrime_opa (s : State) (p : Bool) : (s.setPrime p).opa = s.opa := rfl
@[simp] theorem State.setPrime_opb (s : State) (p : Bool) : (s.setPrime p).opb = s.opb := rfl
@[simp] theorem State.setPrime_mod (s : State) (p : Bool) : (s.setPrime p).mod = s.mod := rfl
@[simp] theorem State.setPrime_res (s : State) (p : Bool) : (s.setPrime p).res = s.res := rfl
@[simp] theorem State.setPrime_status (s : State) (p : Bool) : (s.setPrime p).status = s.status.withPrime p := rfl
@[simp] theorem State.setPrime_cmd (s : State) (p : Bool) : (s.setPrime p).cmd = s.cmd := rfl
@[simp] theorem State.setPrime_keybits (s : State) (p : Bool) : (s.setPrime p).keybits = s.keybits := rfl
@[simp] theorem State.setPrime_mrRounds (s : State) (p : Bool) : (s.setPrime p).mrRounds = s.mrRounds := rfl
@[simp] theorem State.setPrime_msglen (s : State) (p : Bool) : (s.setPrime p).msglen = s.msglen := rfl
@[simp] theorem State.setPrime_outlen (s : State) (p : Bool) : (s.setPrime p).outlen = s.outlen := rfl
@[simp] theorem State.setPrime_msg (s : State) (p : Bool) : (s.setPrime p).msg = s.msg := rfl
@[simp] theorem State.setPrime_em (s : State) (p : Bool) : (s.setPrime p).em = s.em := rfl
@[simp] theorem State.setPrime_out (s : State) (p : Bool) : (s.setPrime p).out = s.out := rfl
@[simp] theorem State.setPrime_schedule (s : State) (p : Bool) : (s.setPrime p).schedule = s.schedule := rfl
@[simp] theorem State.setPrime_draws (s : State) (p : Bool) : (s.setPrime p).draws = s.draws := rfl
@[simp] theorem State.setPrime_drawPos (s : State) (p : Bool) : (s.setPrime p).drawPos = s.drawPos := rfl
@[simp] theorem State.setPrime_freePos (s : State) (p : Bool) : (s.setPrime p).freePos = s.freePos := rfl
@[simp] theorem State.setPrime_readData (s : State) (p : Bool) : (s.setPrime p).readData = s.readData := rfl
@[simp] theorem State.setPrime_keySize (s : State) (p : Bool) : (s.setPrime p).keySize = s.keySize := rfl
@[simp] theorem State.setPrime_kLen (s : State) (p : Bool) : (s.setPrime p).kLen = s.kLen := rfl
@[simp] theorem State.setPrime_legal (s : State) (p : Bool) : (s.setPrime p).legal = s.legal := rfl
@[simp] theorem State.setPrime_message (s : State) (p : Bool) : (s.setPrime p).message = s.message := rfl

/-! ### setKeybits -/

@[simp] theorem State.setKeybits_opa (s : State) (v : Word) : (s.setKeybits v).opa = 0 := rfl
@[simp] theorem State.setKeybits_opb (s : State) (v : Word) : (s.setKeybits v).opb = 0 := rfl
@[simp] theorem State.setKeybits_mod (s : State) (v : Word) : (s.setKeybits v).mod = 0 := rfl
@[simp] theorem State.setKeybits_res (s : State) (v : Word) : (s.setKeybits v).res = 0 := rfl
@[simp] theorem State.setKeybits_status (s : State) (v : Word) : (s.setKeybits v).status = s.status := rfl
@[simp] theorem State.setKeybits_cmd (s : State) (v : Word) : (s.setKeybits v).cmd = s.cmd := rfl
@[simp] theorem State.setKeybits_keybits (s : State) (v : Word) : (s.setKeybits v).keybits = v := rfl
@[simp] theorem State.setKeybits_mrRounds (s : State) (v : Word) : (s.setKeybits v).mrRounds = s.mrRounds := rfl
@[simp] theorem State.setKeybits_msglen (s : State) (v : Word) : (s.setKeybits v).msglen = s.msglen := rfl
@[simp] theorem State.setKeybits_outlen (s : State) (v : Word) : (s.setKeybits v).outlen = s.outlen := rfl
@[simp] theorem State.setKeybits_msg (s : State) (v : Word) : (s.setKeybits v).msg = s.msg := rfl
@[simp] theorem State.setKeybits_em (s : State) (v : Word) : (s.setKeybits v).em = [] := rfl
@[simp] theorem State.setKeybits_out (s : State) (v : Word) : (s.setKeybits v).out = s.out := rfl
@[simp] theorem State.setKeybits_schedule (s : State) (v : Word) : (s.setKeybits v).schedule = s.schedule := rfl
@[simp] theorem State.setKeybits_draws (s : State) (v : Word) : (s.setKeybits v).draws = s.draws := rfl
@[simp] theorem State.setKeybits_drawPos (s : State) (v : Word) : (s.setKeybits v).drawPos = s.drawPos := rfl
@[simp] theorem State.setKeybits_freePos (s : State) (v : Word) : (s.setKeybits v).freePos = s.freePos := rfl
@[simp] theorem State.setKeybits_readData (s : State) (v : Word) : (s.setKeybits v).readData = s.readData := rfl
@[simp] theorem State.setKeybits_message (s : State) (v : Word) : (s.setKeybits v).message = s.message := rfl

/-! ### setMrRounds -/

@[simp] theorem State.setMrRounds_opa (s : State) (v : Word) : (s.setMrRounds v).opa = s.opa := rfl
@[simp] theorem State.setMrRounds_opb (s : State) (v : Word) : (s.setMrRounds v).opb = s.opb := rfl
@[simp] theorem State.setMrRounds_mod (s : State) (v : Word) : (s.setMrRounds v).mod = s.mod := rfl
@[simp] theorem State.setMrRounds_res (s : State) (v : Word) : (s.setMrRounds v).res = s.res := rfl
@[simp] theorem State.setMrRounds_status (s : State) (v : Word) : (s.setMrRounds v).status = s.status := rfl
@[simp] theorem State.setMrRounds_cmd (s : State) (v : Word) : (s.setMrRounds v).cmd = s.cmd := rfl
@[simp] theorem State.setMrRounds_keybits (s : State) (v : Word) : (s.setMrRounds v).keybits = s.keybits := rfl
@[simp] theorem State.setMrRounds_mrRounds (s : State) (v : Word) : (s.setMrRounds v).mrRounds = v := rfl
@[simp] theorem State.setMrRounds_msglen (s : State) (v : Word) : (s.setMrRounds v).msglen = s.msglen := rfl
@[simp] theorem State.setMrRounds_outlen (s : State) (v : Word) : (s.setMrRounds v).outlen = s.outlen := rfl
@[simp] theorem State.setMrRounds_msg (s : State) (v : Word) : (s.setMrRounds v).msg = s.msg := rfl
@[simp] theorem State.setMrRounds_em (s : State) (v : Word) : (s.setMrRounds v).em = s.em := rfl
@[simp] theorem State.setMrRounds_out (s : State) (v : Word) : (s.setMrRounds v).out = s.out := rfl
@[simp] theorem State.setMrRounds_schedule (s : State) (v : Word) : (s.setMrRounds v).schedule = s.schedule := rfl
@[simp] theorem State.setMrRounds_draws (s : State) (v : Word) : (s.setMrRounds v).draws = s.draws := rfl
@[simp] theorem State.setMrRounds_drawPos (s : State) (v : Word) : (s.setMrRounds v).drawPos = s.drawPos := rfl
@[simp] theorem State.setMrRounds_freePos (s : State) (v : Word) : (s.setMrRounds v).freePos = s.freePos := rfl
@[simp] theorem State.setMrRounds_readData (s : State) (v : Word) : (s.setMrRounds v).readData = s.readData := rfl
@[simp] theorem State.setMrRounds_keySize (s : State) (v : Word) : (s.setMrRounds v).keySize = s.keySize := rfl
@[simp] theorem State.setMrRounds_kLen (s : State) (v : Word) : (s.setMrRounds v).kLen = s.kLen := rfl
@[simp] theorem State.setMrRounds_legal (s : State) (v : Word) : (s.setMrRounds v).legal = s.legal := rfl
@[simp] theorem State.setMrRounds_message (s : State) (v : Word) : (s.setMrRounds v).message = s.message := rfl

/-! ### setMsglen -/

@[simp] theorem State.setMsglen_opa (s : State) (v : DWord) : (s.setMsglen v).opa = s.opa := rfl
@[simp] theorem State.setMsglen_opb (s : State) (v : DWord) : (s.setMsglen v).opb = s.opb := rfl
@[simp] theorem State.setMsglen_mod (s : State) (v : DWord) : (s.setMsglen v).mod = s.mod := rfl
@[simp] theorem State.setMsglen_res (s : State) (v : DWord) : (s.setMsglen v).res = s.res := rfl
@[simp] theorem State.setMsglen_status (s : State) (v : DWord) : (s.setMsglen v).status = s.status := rfl
@[simp] theorem State.setMsglen_cmd (s : State) (v : DWord) : (s.setMsglen v).cmd = s.cmd := rfl
@[simp] theorem State.setMsglen_keybits (s : State) (v : DWord) : (s.setMsglen v).keybits = s.keybits := rfl
@[simp] theorem State.setMsglen_mrRounds (s : State) (v : DWord) : (s.setMsglen v).mrRounds = s.mrRounds := rfl
@[simp] theorem State.setMsglen_msglen (s : State) (v : DWord) : (s.setMsglen v).msglen = v := rfl
@[simp] theorem State.setMsglen_outlen (s : State) (v : DWord) : (s.setMsglen v).outlen = s.outlen := rfl
@[simp] theorem State.setMsglen_msg (s : State) (v : DWord) : (s.setMsglen v).msg = s.msg := rfl
@[simp] theorem State.setMsglen_em (s : State) (v : DWord) : (s.setMsglen v).em = s.em := rfl
@[simp] theorem State.setMsglen_out (s : State) (v : DWord) : (s.setMsglen v).out = s.out := rfl
@[simp] theorem State.setMsglen_schedule (s : State) (v : DWord) : (s.setMsglen v).schedule = s.schedule := rfl
@[simp] theorem State.setMsglen_draws (s : State) (v : DWord) : (s.setMsglen v).draws = s.draws := rfl
@[simp] theorem State.setMsglen_drawPos (s : State) (v : DWord) : (s.setMsglen v).drawPos = s.drawPos := rfl
@[simp] theorem State.setMsglen_freePos (s : State) (v : DWord) : (s.setMsglen v).freePos = s.freePos := rfl
@[simp] theorem State.setMsglen_readData (s : State) (v : DWord) : (s.setMsglen v).readData = s.readData := rfl
@[simp] theorem State.setMsglen_keySize (s : State) (v : DWord) : (s.setMsglen v).keySize = s.keySize := rfl
@[simp] theorem State.setMsglen_kLen (s : State) (v : DWord) : (s.setMsglen v).kLen = s.kLen := rfl
@[simp] theorem State.setMsglen_legal (s : State) (v : DWord) : (s.setMsglen v).legal = s.legal := rfl

/-! ### setOutlen -/

@[simp] theorem State.setOutlen_opa (s : State) (v : DWord) : (s.setOutlen v).opa = s.opa := rfl
@[simp] theorem State.setOutlen_opb (s : State) (v : DWord) : (s.setOutlen v).opb = s.opb := rfl
@[simp] theorem State.setOutlen_mod (s : State) (v : DWord) : (s.setOutlen v).mod = s.mod := rfl
@[simp] theorem State.setOutlen_res (s : State) (v : DWord) : (s.setOutlen v).res = s.res := rfl
@[simp] theorem State.setOutlen_status (s : State) (v : DWord) : (s.setOutlen v).status = s.status := rfl
@[simp] theorem State.setOutlen_cmd (s : State) (v : DWord) : (s.setOutlen v).cmd = s.cmd := rfl
@[simp] theorem State.setOutlen_keybits (s : State) (v : DWord) : (s.setOutlen v).keybits = s.keybits := rfl
@[simp] theorem State.setOutlen_mrRounds (s : State) (v : DWord) : (s.setOutlen v).mrRounds = s.mrRounds := rfl
@[simp] theorem State.setOutlen_msglen (s : State) (v : DWord) : (s.setOutlen v).msglen = s.msglen := rfl
@[simp] theorem State.setOutlen_outlen (s : State) (v : DWord) : (s.setOutlen v).outlen = v := rfl
@[simp] theorem State.setOutlen_msg (s : State) (v : DWord) : (s.setOutlen v).msg = s.msg := rfl
@[simp] theorem State.setOutlen_em (s : State) (v : DWord) : (s.setOutlen v).em = s.em := rfl
@[simp] theorem State.setOutlen_out (s : State) (v : DWord) : (s.setOutlen v).out = s.out := rfl
@[simp] theorem State.setOutlen_schedule (s : State) (v : DWord) : (s.setOutlen v).schedule = s.schedule := rfl
@[simp] theorem State.setOutlen_draws (s : State) (v : DWord) : (s.setOutlen v).draws = s.draws := rfl
@[simp] theorem State.setOutlen_drawPos (s : State) (v : DWord) : (s.setOutlen v).drawPos = s.drawPos := rfl
@[simp] theorem State.setOutlen_freePos (s : State) (v : DWord) : (s.setOutlen v).freePos = s.freePos := rfl
@[simp] theorem State.setOutlen_readData (s : State) (v : DWord) : (s.setOutlen v).readData = s.readData := rfl
@[simp] theorem State.setOutlen_keySize (s : State) (v : DWord) : (s.setOutlen v).keySize = s.keySize := rfl
@[simp] theorem State.setOutlen_kLen (s : State) (v : DWord) : (s.setOutlen v).kLen = s.kLen := rfl
@[simp] theorem State.setOutlen_legal (s : State) (v : DWord) : (s.setOutlen v).legal = s.legal := rfl
@[simp] theorem State.setOutlen_message (s : State) (v : DWord) : (s.setOutlen v).message = s.message := rfl

/-! ### setMsgByte -/

@[simp] theorem State.setMsgByte_opa (s : State) (a : Nat) (b : Byte) : (s.setMsgByte a b).opa = s.opa := rfl
@[simp] theorem State.setMsgByte_opb (s : State) (a : Nat) (b : Byte) : (s.setMsgByte a b).opb = s.opb := rfl
@[simp] theorem State.setMsgByte_mod (s : State) (a : Nat) (b : Byte) : (s.setMsgByte a b).mod = s.mod := rfl
@[simp] theorem State.setMsgByte_res (s : State) (a : Nat) (b : Byte) : (s.setMsgByte a b).res = s.res := rfl
@[simp] theorem State.setMsgByte_status (s : State) (a : Nat) (b : Byte) : (s.setMsgByte a b).status = s.status := rfl
@[simp] theorem State.setMsgByte_cmd (s : State) (a : Nat) (b : Byte) : (s.setMsgByte a b).cmd = s.cmd := rfl
@[simp] theorem State.setMsgByte_keybits (s : State) (a : Nat) (b : Byte) : (s.setMsgByte a b).keybits = s.keybits := rfl
@[simp] theorem State.setMsgByte_mrRounds (s : State) (a : Nat) (b : Byte) : (s.setMsgByte a b).mrRounds = s.mrRounds := rfl
@[simp] theorem State.setMsgByte_msglen (s : State) (a : Nat) (b : Byte) : (s.setMsgByte a b).msglen = s.msglen := rfl
@[simp] theorem State.setMsgByte_outlen (s : State) (a : Nat) (b : Byte) : (s.setMsgByte a b).outlen = s.outlen := rfl
@[simp] theorem State.setMsgByte_msg (s : State) (a : Nat) (b : Byte) : (s.setMsgByte a b).msg = s.msg.write a b := rfl
@[simp] theorem State.setMsgByte_em (s : State) (a : Nat) (b : Byte) : (s.setMsgByte a b).em = s.em := rfl
@[simp] theorem State.setMsgByte_out (s : State) (a : Nat) (b : Byte) : (s.setMsgByte a b).out = s.out := rfl
@[simp] theorem State.setMsgByte_schedule (s : State) (a : Nat) (b : Byte) : (s.setMsgByte a b).schedule = s.schedule := rfl
@[simp] theorem State.setMsgByte_draws (s : State) (a : Nat) (b : Byte) : (s.setMsgByte a b).draws = s.draws := rfl
@[simp] theorem State.setMsgByte_drawPos (s : State) (a : Nat) (b : Byte) : (s.setMsgByte a b).drawPos = s.drawPos := rfl
@[simp] theorem State.setMsgByte_freePos (s : State) (a : Nat) (b : Byte) : (s.setMsgByte a b).freePos = s.freePos := rfl
@[simp] theorem State.setMsgByte_readData (s : State) (a : Nat) (b : Byte) : (s.setMsgByte a b).readData = s.readData := rfl
@[simp] theorem State.setMsgByte_keySize (s : State) (a : Nat) (b : Byte) : (s.setMsgByte a b).keySize = s.keySize := rfl
@[simp] theorem State.setMsgByte_kLen (s : State) (a : Nat) (b : Byte) : (s.setMsgByte a b).kLen = s.kLen := rfl
@[simp] theorem State.setMsgByte_legal (s : State) (a : Nat) (b : Byte) : (s.setMsgByte a b).legal = s.legal := rfl

/-! ### setBig -/

@[simp] theorem State.setBig_status (s : State) (r : BigReg) (v : Nat) : (s.setBig r v).status = s.status := by cases r <;> rfl
@[simp] theorem State.setBig_cmd (s : State) (r : BigReg) (v : Nat) : (s.setBig r v).cmd = s.cmd := by cases r <;> rfl
@[simp] theorem State.setBig_keybits (s : State) (r : BigReg) (v : Nat) : (s.setBig r v).keybits = s.keybits := by cases r <;> rfl
@[simp] theorem State.setBig_mrRounds (s : State) (r : BigReg) (v : Nat) : (s.setBig r v).mrRounds = s.mrRounds := by cases r <;> rfl
@[simp] theorem State.setBig_msglen (s : State) (r : BigReg) (v : Nat) : (s.setBig r v).msglen = s.msglen := by cases r <;> rfl
@[simp] theorem State.setBig_outlen (s : State) (r : BigReg) (v : Nat) : (s.setBig r v).outlen = s.outlen := by cases r <;> rfl
@[simp] theorem State.setBig_msg (s : State) (r : BigReg) (v : Nat) : (s.setBig r v).msg = s.msg := by cases r <;> rfl
@[simp] theorem State.setBig_em (s : State) (r : BigReg) (v : Nat) : (s.setBig r v).em = s.em := by cases r <;> rfl
@[simp] theorem State.setBig_out (s : State) (r : BigReg) (v : Nat) : (s.setBig r v).out = s.out := by cases r <;> rfl
@[simp] theorem State.setBig_schedule (s : State) (r : BigReg) (v : Nat) : (s.setBig r v).schedule = s.schedule := by cases r <;> rfl
@[simp] theorem State.setBig_draws (s : State) (r : BigReg) (v : Nat) : (s.setBig r v).draws = s.draws := by cases r <;> rfl
@[simp] theorem State.setBig_drawPos (s : State) (r : BigReg) (v : Nat) : (s.setBig r v).drawPos = s.drawPos := by cases r <;> rfl
@[simp] theorem State.setBig_freePos (s : State) (r : BigReg) (v : Nat) : (s.setBig r v).freePos = s.freePos := by cases r <;> rfl
@[simp] theorem State.setBig_readData (s : State) (r : BigReg) (v : Nat) : (s.setBig r v).readData = s.readData := by cases r <;> rfl
@[simp] theorem State.setBig_keySize (s : State) (r : BigReg) (v : Nat) : (s.setBig r v).keySize = s.keySize := by cases r <;> rfl
@[simp] theorem State.setBig_kLen (s : State) (r : BigReg) (v : Nat) : (s.setBig r v).kLen = s.kLen := by cases r <;> rfl
@[simp] theorem State.setBig_legal (s : State) (r : BigReg) (v : Nat) : (s.setBig r v).legal = s.legal := by cases r <;> rfl
@[simp] theorem State.setBig_message (s : State) (r : BigReg) (v : Nat) : (s.setBig r v).message = s.message := by cases r <;> rfl

@[simp] theorem State.getBig_setBig_same (s : State) (r : BigReg) (v : Nat) : (s.setBig r v).getBig r = v := by
  cases r <;> rfl

theorem State.getBig_setBig (s : State) (r r' : BigReg) (v : Nat) :
    (s.setBig r v).getBig r' = if r' = r then v else s.getBig r' := by
  cases r <;> cases r' <;> rfl

/-! ### STATUS -/

@[simp] theorem Status.issue_busy (t : Status) : (t.issue).busy = true := rfl
@[simp] theorem Status.issue_done (t : Status) : (t.issue).done = false := rfl
@[simp] theorem Status.issue_fatal (t : Status) : (t.issue).fatal = t.fatal := rfl
@[simp] theorem Status.issue_prime (t : Status) : (t.issue).prime = false := rfl
@[simp] theorem Status.issue_err (t : Status) : (t.issue).err = 0 := rfl
@[simp] theorem Status.complete_busy (t : Status) : (t.complete).busy = false := rfl
@[simp] theorem Status.complete_done (t : Status) : (t.complete).done = true := rfl
@[simp] theorem Status.complete_fatal (t : Status) : (t.complete).fatal = t.fatal := rfl
@[simp] theorem Status.complete_prime (t : Status) : (t.complete).prime = t.prime := rfl
@[simp] theorem Status.complete_err (t : Status) : (t.complete).err = t.err := rfl
@[simp] theorem Status.completeError_busy (t : Status) (k : ErrorKind) : (t.completeError k).busy = false := rfl
@[simp] theorem Status.completeError_done (t : Status) (k : ErrorKind) : (t.completeError k).done = true := rfl
@[simp] theorem Status.completeError_fatal (t : Status) (k : ErrorKind) : (t.completeError k).fatal = t.fatal := rfl
@[simp] theorem Status.completeError_prime (t : Status) (k : ErrorKind) : (t.completeError k).prime = t.prime := rfl
@[simp] theorem Status.completeError_err (t : Status) (k : ErrorKind) : (t.completeError k).err = k.code := rfl
@[simp] theorem Status.halt_busy (t : Status) : (t.halt).busy = false := rfl
@[simp] theorem Status.halt_done (t : Status) : (t.halt).done = t.done := rfl
@[simp] theorem Status.halt_fatal (t : Status) : (t.halt).fatal = true := rfl
@[simp] theorem Status.halt_prime (t : Status) : (t.halt).prime = t.prime := rfl
@[simp] theorem Status.halt_err (t : Status) : (t.halt).err = t.err := rfl
@[simp] theorem Status.withPrime_busy (t : Status) (p : Bool) : (t.withPrime p).busy = t.busy := rfl
@[simp] theorem Status.withPrime_done (t : Status) (p : Bool) : (t.withPrime p).done = t.done := rfl
@[simp] theorem Status.withPrime_fatal (t : Status) (p : Bool) : (t.withPrime p).fatal = t.fatal := rfl
@[simp] theorem Status.withPrime_prime (t : Status) (p : Bool) : (t.withPrime p).prime = p := rfl
@[simp] theorem Status.withPrime_err (t : Status) (p : Bool) : (t.withPrime p).err = t.err := rfl

end Sys2Proof.Machine
end

