-- ==== Sys2Proof/Laws/Exec.lean ====
section
/-! SUPPORT. What `exec` answers: always a next state, which is the command's body on a legal KEYBITS and the BadConfig
completion otherwise (60_exceptions.md R250, R255); and the cases of the shared parts of the bodies. -/

namespace Sys2Proof.Machine

theorem legalKeySize_iff (K : Nat) : legalKeySize K = true ↔ 0 < K ∧ K % 8 = 0 ∧ K ≤ Config.maxBits := by
  simp [legalKeySize, and_assoc]

/-- Every key size up to 2048 bits is supported (log entry 7). -/
theorem legalKeySize_of_le {K : Nat} (h0 : 0 < K) (h8 : K % 8 = 0) (h : K ≤ 2048) : legalKeySize K = true :=
  (legalKeySize_iff K).2 ⟨h0, h8, by unfold Config.maxBits; omega⟩

/-- `2 ^ K = 256 ^ kLen` for a legal `K` (10_state.md R33). -/
theorem State.two_pow_keySize {s : State} (h : s.legal = true) : 2 ^ s.keySize = 256 ^ s.kLen := by
  obtain ⟨_, h8, _⟩ := (legalKeySize_iff _).1 h
  rw [State.kLen, show (256 : Nat) = 2 ^ 8 from rfl, ← pow_mul, Nat.mul_div_cancel' (Nat.dvd_of_mod_eq_zero h8)]

/-- The body of a command: what it does once KEYBITS is legal. -/
def execBody (i : Instr) (s : State) : State :=
  match i with
  | .modadd => s.modular fun a b m => (a + b) % m
  | .modsub => s.modular fun a b m => (a % m + m - b % m) % m
  | .modmul => s.modular fun a b m => (a * b) % m
  | .modexp => s.modular modExp
  | .mrtest => (s.setPrime (mrTest s.opa)).complete
  | .mrtestr =>
    ((s.consumeDraws (mrTestRandom s.opa s.mrRounds.toNat s.draw).2).setPrime
      (mrTestRandom s.opa s.mrRounds.toNat s.draw).1).complete
  | .rsaxf =>
    match rsaTransform s.opa s.opb s.mod with
    | .error k => s.completeError k
    | .ok v => (s.setRes v).complete
  | .mgf1 h =>
    if 2 ^ 32 * hLen h < s.outlen.toNat then s.completeError .maskTooLong
    else (s.putOut (mgf (hash h) s.message s.outlen.toNat)).complete
  | .pssenc h => s.whenFits h fun s => ((s.consumeDraws 1).putEm (s.encodeNext h)).complete
  | .pssdec h => s.whenFits h fun s => s.completeDecode h s.encoded
  | .sign h => s.whenFits h fun s =>
    match rsaTransform (os2ip (s.encodeNext h)) s.opb s.mod with
    | .error k => (s.consumeDraws 1).completeError k
    | .ok v => ((s.consumeDraws 1).setRes v).complete
  | .verify h => s.whenFits h fun s =>
    match rsaTransform s.opa s.opb s.mod with
    | .error k => s.completeError k
    | .ok v => s.completeDecode h (i2osp v s.kLen)
  | .importReg r =>
    if 2 ^ s.keySize ≤ os2ip s.message then s.completeError .widthOverflow
    else (s.setBig r (os2ip s.message)).complete
  | .exportReg r =>
    if 256 ^ s.outlen.toNat ≤ s.getBig r then s.completeError .widthOverflow
    else (s.putOut (i2osp (s.getBig r) s.outlen.toNat)).complete

/-- Every command ends, in one next state (60_exceptions.md R250). -/
theorem exec_eq (i : Instr) (s : State) :
    exec i s = .next (if s.legal then execBody i s else s.completeError .badConfig) := by
  cases i <;> rfl

theorem exec_of_legal {s : State} (h : s.legal = true) (i : Instr) : exec i s = .next (execBody i s) := by
  rw [exec_eq, if_pos h]

theorem exec_of_not_legal {s : State} (h : s.legal = false) (i : Instr) :
    exec i s = .next (s.completeError .badConfig) := by
  rw [exec_eq, h]; rfl

theorem exec_eq_next_iff {i : Instr} {s t : State} :
    exec i s = .next t ↔ t = if s.legal then execBody i s else s.completeError .badConfig := by
  rw [exec_eq, Host.Outcome.next.injEq, eq_comm]

theorem State.modular_of_pos {s : State} (h : s.mod ≠ 0) (f : Nat → Nat → Nat → Nat) :
    s.modular f = (s.setRes (f s.opa s.opb s.mod)).complete := if_neg h

theorem State.modular_of_zero {s : State} (h : s.mod = 0) (f : Nat → Nat → Nat → Nat) : s.modular f = s.halt := if_pos h

theorem rsaTransform_of_lt {m n : Nat} (h : m < n) (k : Nat) : rsaTransform m k n = .ok (modExp m k n) :=
  if_neg (not_le.2 h)

theorem rsaTransform_of_le {m n : Nat} (h : n ≤ m) (k : Nat) : rsaTransform m k n = .error .messageOutOfRange := if_pos h

/-- The setup checks pass exactly when the encoding fits and the message is not too long (44_pss.md R192). -/
theorem pssSetup_eq_none_iff (h : HashSel) (s : State) :
    pssSetup h s = none ↔ 2 * hLen h + 9 ≤ s.kLen ∧ s.msglen.toNat ≤ hashMaxIn h := by
  unfold pssSetup
  split
  · next h1 => simp; omega
  · split <;> simp <;> omega

theorem State.whenFits_of_none {h : HashSel} {s : State} (hs : pssSetup h s = none) (body : State → State) :
    s.whenFits h body = body s := by rw [State.whenFits, hs]

theorem State.whenFits_of_some {h : HashSel} {s : State} {k : ErrorKind} (hs : pssSetup h s = some k)
    (body : State → State) : s.whenFits h body = s.completeError k := by rw [State.whenFits, hs]

/-- The setup checks report one of their two kinds. -/
theorem pssSetup_cases (h : HashSel) (s : State) :
    pssSetup h s = none ∨ pssSetup h s = some .hashTooLong ∨ pssSetup h s = some .messageTooLong := by
  unfold pssSetup; split
  · simp
  · split <;> simp

/-- The decoder reports Valid or one of its four kinds (44_pss.md R203). -/
theorem pssDecode_cases (H : List Byte → List Byte) (hl kl : Nat) (M EM : List Byte) :
    pssDecode H hl kl M EM = none ∨ pssDecode H hl kl M EM = some .invalidTrailer ∨
    pssDecode H hl kl M EM = some .invalidLeadingBit ∨ pssDecode H hl kl M EM = some .invalidPadding ∨
    pssDecode H hl kl M EM = some .hashMismatch := by
  unfold pssDecode
  split
  · simp
  · split
    · simp
    · dsimp only
      split
      · simp
      · split <;> simp

/-- What a command has written when it completes without error, before the completion event itself (20_memory.md R61). -/
inductive Output (s : State) : Instr → State → Prop
  | res (i : Instr) (v : Nat) (arith : i ∈ [Instr.modadd, .modsub, .modmul, .modexp, .rsaxf]) (below : v < s.mod) :
      Output s i (s.setRes v)
  | sign (h : HashSel) (v : Nat) (below : v < s.mod) : Output s (.sign h) ((s.consumeDraws 1).setRes v)
  | mrtest (p : Bool) : Output s .mrtest (s.setPrime p)
  | mrtestr (p : Bool) (k : Nat) (rounds : k ≤ s.mrRounds.toNat) : Output s .mrtestr ((s.consumeDraws k).setPrime p)
  | mgf1 (h : HashSel) (X : List Byte) (len : X.length = s.outlen.toNat) : Output s (.mgf1 h) (s.putOut X)
  | exportReg (r : BigReg) (X : List Byte) (len : X.length = s.outlen.toNat) : Output s (.exportReg r) (s.putOut X)
  | pssenc (h : HashSel) (X : List Byte) (len : X.length = s.kLen) :
      Output s (.pssenc h) ((s.consumeDraws 1).putEm X)
  | pssdec (h : HashSel) : Output s (.pssdec h) s
  | verify (h : HashSel) : Output s (.verify h) s
  | importReg (r : BigReg) (v : Nat) (below : v < 2 ^ s.keySize) : Output s (.importReg r) (s.setBig r v)

/-- How the body of a command ends: with an error of the command, which SIGN alone can raise after its draw, in the fatal
halt, or with its output written (60_exceptions.md R250, R251). -/
inductive Ending (s : State) (i : Instr) : State → Prop
  | error (k : ErrorKind) (mem : k ∈ mayRaise i) : Ending s i (s.completeError k)
  | signError (h : HashSel) (sign : i = .sign h) : Ending s i ((s.consumeDraws 1).completeError .messageOutOfRange)
  | halt (arith : i ∈ [Instr.modadd, .modsub, .modmul, .modexp]) (zero : s.mod = 0) : Ending s i s.halt
  | done (u : State) (out : Output s i u) : Ending s i u.complete

theorem mrTestRandom_snd_le (n R : Nat) (draw : Nat → Nat) : (mrTestRandom n R draw).2 ≤ R := by
  unfold mrTestRandom
  split
  · exact Nat.zero_le _
  · split
    · exact Nat.zero_le _
    · exact Nat.zero_le _
    · rcases baseLoop_spec n (decompose n).1 (decompose n).2 draw R 0 with ⟨_, h, _⟩ | ⟨j, hj, h, _⟩
      · omega
      · rw [h]; dsimp only; omega

/-- A candidate the pre-check answers, and 3, cost no draw (41_miller_rabin.md R156). -/
theorem mrTestRandom_snd_eq_zero {n : Nat} (h : n < 5 ∨ n % 2 = 0) (R : Nat) (draw : Nat → Nat) :
    (mrTestRandom n R draw).2 = 0 := by
  unfold mrTestRandom
  by_cases h3 : n = 3
  · rw [if_pos h3]
  · rw [if_neg h3]
    cases hp : preCheck n with
    | reject | accept => rfl
    | test =>
      simp only [preCheck] at hp
      split at hp
      · cases hp
      · split at hp
        · cases hp
        · split at hp
          · cases hp
          · omega

theorem State.modular_ending {s : State} {i : Instr} (hi : i ∈ [Instr.modadd, .modsub, .modmul, .modexp])
    (f : Nat → Nat → Nat → Nat) (hf : ∀ a b m, 0 < m → f a b m < m) : Ending s i (s.modular f) := by
  by_cases hm : s.mod = 0
  · rw [State.modular_of_zero hm]; exact .halt hi hm
  · rw [State.modular_of_pos hm]
    refine .done _ (.res i _ ?_ (hf _ _ _ (Nat.pos_of_ne_zero hm)))
    simp only [List.mem_cons, List.not_mem_nil, or_false] at hi ⊢
    tauto

theorem State.completeDecode_ending {s : State} {i : Instr} {h : HashSel} (EM : List Byte)
    (hi : i = .pssdec h ∨ i = .verify h) : Ending s i (s.completeDecode h EM) := by
  unfold State.completeDecode
  split
  · next k hk =>
    have := pssDecode_cases (hash h) (hLen h) s.kLen s.message EM
    rw [hk] at this
    refine .error k ?_
    rcases hi with rfl | rfl <;> simp [mayRaise] at this ⊢ <;> tauto
  · rcases hi with rfl | rfl
    · exact .done s (.pssdec h)
    · exact .done s (.verify h)

theorem State.whenFits_ending {s : State} {i : Instr} {h : HashSel} {body : State → State}
    (hi : ErrorKind.hashTooLong ∈ mayRaise i ∧ ErrorKind.messageTooLong ∈ mayRaise i)
    (hb : s.pssFits h → Ending s i (body s)) : Ending s i (s.whenFits h body) := by
  rcases pssSetup_cases h s with hs | hs | hs
  · rw [State.whenFits_of_none hs]; exact hb ((pssSetup_eq_none_iff h s).1 hs)
  · rw [State.whenFits_of_some hs]; exact .error _ hi.1
  · rw [State.whenFits_of_some hs]; exact .error _ hi.2

/-- Every way a command on a legal KEYBITS ends. -/
theorem execBody_ending (i : Instr) (s : State) : Ending s i (execBody i s) := by
  cases i with
  | modadd => exact State.modular_ending (by simp) _ fun a b m h => Nat.mod_lt _ h
  | modsub => exact State.modular_ending (by simp) _ fun a b m h => Nat.mod_lt _ h
  | modmul => exact State.modular_ending (by simp) _ fun a b m h => Nat.mod_lt _ h
  | modexp => exact State.modular_ending (by simp) _ fun a b m h => modExp_lt a b h
  | mrtest => exact .done _ (.mrtest _)
  | mrtestr => exact .done _ (.mrtestr _ _ (mrTestRandom_snd_le _ _ _))
  | rsaxf =>
    simp only [execBody]
    rcases Nat.lt_or_ge s.opa s.mod with h | h
    · rw [rsaTransform_of_lt h]; exact .done _ (.res _ _ (by simp) (modExp_lt _ _ (by omega)))
    · rw [rsaTransform_of_le h]; exact .error _ (by simp [mayRaise])
  | mgf1 h =>
    simp only [execBody]
    split
    · exact .error _ (by simp [mayRaise])
    · exact .done _ (.mgf1 h _ (by simp))
  | pssenc h =>
    have hi : ErrorKind.hashTooLong ∈ mayRaise (.pssenc h) ∧ ErrorKind.messageTooLong ∈ mayRaise (.pssenc h) := by
      simp [mayRaise]
    rw [execBody]
    refine State.whenFits_ending hi fun hf => .done ((s.consumeDraws 1).putEm (s.encodeNext h)) (.pssenc h _ ?_)
    exact length_pssEncode (length_hash h) (hLen_pos h) _ (by simp) (by have := hf.1; omega)
  | pssdec h =>
    have hi : ErrorKind.hashTooLong ∈ mayRaise (.pssdec h) ∧ ErrorKind.messageTooLong ∈ mayRaise (.pssdec h) := by
      simp [mayRaise]
    rw [execBody]
    exact State.whenFits_ending hi fun _ => State.completeDecode_ending _ (.inl rfl)
  | sign h =>
    have hi : ErrorKind.hashTooLong ∈ mayRaise (.sign h) ∧ ErrorKind.messageTooLong ∈ mayRaise (.sign h) := by
      simp [mayRaise]
    rw [execBody]
    refine State.whenFits_ending hi fun _ => ?_
    rcases Nat.lt_or_ge (os2ip (s.encodeNext h)) s.mod with h1 | h1
    · rw [rsaTransform_of_lt h1]
      exact .done ((s.consumeDraws 1).setRes _) (.sign h _ (modExp_lt _ _ (by omega)))
    · rw [rsaTransform_of_le h1]; exact .signError h rfl
  | verify h =>
    have hi : ErrorKind.hashTooLong ∈ mayRaise (.verify h) ∧ ErrorKind.messageTooLong ∈ mayRaise (.verify h) := by
      simp [mayRaise]
    rw [execBody]
    refine State.whenFits_ending hi fun _ => ?_
    rcases Nat.lt_or_ge s.opa s.mod with h1 | h1
    · rw [rsaTransform_of_lt h1]; exact State.completeDecode_ending _ (.inr rfl)
    · rw [rsaTransform_of_le h1]; exact .error _ (by simp [mayRaise])
  | importReg r =>
    simp only [execBody]
    split
    · exact .error _ (by simp [mayRaise])
    · next h => exact .done _ (.importReg r _ (by omega))
  | exportReg r =>
    simp only [execBody]
    split
    · exact .error _ (by simp [mayRaise])
    · exact .done _ (.exportReg r _ (by simp))

/-- Every way the completion of a command ends. -/
theorem exec_ending {i : Instr} {s t : State} (h : exec i s = .next t) :
    (s.legal = false ∧ t = s.completeError .badConfig) ∨ (s.legal = true ∧ Ending s i t) := by
  rw [exec_eq_next_iff] at h
  cases hl : s.legal with
  | false => exact .inl ⟨rfl, by rw [h, hl]; rfl⟩
  | true => exact .inr ⟨rfl, by rw [h, hl]; exact execBody_ending i s⟩

end Sys2Proof.Machine
end

