-- ==== Sys2Proof/Laws/PerInstr.lean ====
section
/-! SUPPORT. One lemma per command: the fields of its word are those of the opcode map (30_encoding.md R96) and pass the
checks of the format. -/

namespace Sys2Proof.Laws.EncodedFields

/-- The word of the command has the command's OP, HSEL and REG, no reserved bit, and is well formed. -/
def Statement (i : Instr) : Prop :=
  (Cmd32.ofWord (encode i)).op.toNat = i.op ∧ (Cmd32.ofWord (encode i)).hsel.toNat = i.hselField ∧
  (Cmd32.ofWord (encode i)).reg.toNat = i.regField ∧ (Cmd32.ofWord (encode i)).reserved = 0 ∧ i.wellFormed = true

theorem modadd : Statement .modadd := ⟨rfl, rfl, rfl, rfl, rfl⟩
theorem modsub : Statement .modsub := ⟨rfl, rfl, rfl, rfl, rfl⟩
theorem modmul : Statement .modmul := ⟨rfl, rfl, rfl, rfl, rfl⟩
theorem modexp : Statement .modexp := ⟨rfl, rfl, rfl, rfl, rfl⟩
theorem mrtest : Statement .mrtest := ⟨rfl, rfl, rfl, rfl, rfl⟩
theorem mrtestr : Statement .mrtestr := ⟨rfl, rfl, rfl, rfl, rfl⟩
theorem rsaxf : Statement .rsaxf := ⟨rfl, rfl, rfl, rfl, rfl⟩
theorem mgf1 (h : HashSel) : Statement (.mgf1 h) := by cases h <;> exact ⟨rfl, rfl, rfl, rfl, rfl⟩
theorem pssenc (h : HashSel) : Statement (.pssenc h) := by cases h <;> exact ⟨rfl, rfl, rfl, rfl, rfl⟩
theorem pssdec (h : HashSel) : Statement (.pssdec h) := by cases h <;> exact ⟨rfl, rfl, rfl, rfl, rfl⟩
theorem sign (h : HashSel) : Statement (.sign h) := by cases h <;> exact ⟨rfl, rfl, rfl, rfl, rfl⟩
theorem verify (h : HashSel) : Statement (.verify h) := by cases h <;> exact ⟨rfl, rfl, rfl, rfl, rfl⟩
theorem importReg (r : BigReg) : Statement (.importReg r) := by cases r <;> exact ⟨rfl, rfl, rfl, rfl, rfl⟩
theorem exportReg (r : BigReg) : Statement (.exportReg r) := by cases r <;> exact ⟨rfl, rfl, rfl, rfl, rfl⟩

end Sys2Proof.Laws.EncodedFields
end

