-- ==== Sys2Proof/Laws/Step.lean ====
section
/-! SUPPORT. What a step can do, move by move (20_memory.md R69, R70). -/

namespace Sys2Proof.Machine

theorem step_nil {s : State} (h : s.schedule = []) : step s = blockStep s := by
  rw [step, sequencerStep, h]

theorem step_cons {s : State} {mv : Move} {rest : List Move} (h : s.schedule = mv :: rest) :
    step s = moveStep mv { s with schedule := rest } := by
  rw [step, sequencerStep, h]

theorem completeWord_of_ok {s : State} {i : Instr} (h : decode s.cmd = .ok i) : completeWord s = exec i s := by
  rw [completeWord, h]

theorem completeWord_of_error {s : State} {e : IllegalReason} (h : decode s.cmd = .error e) :
    completeWord s = .next (s.completeError .illegalCommand) := by
  rw [completeWord, h]

/-- The completion event of any word ends in a next state (70_reset_and_hazards.md R299). -/
theorem completeWord_next (s : State) : ∃ t, completeWord s = .next t := by
  unfold completeWord
  split
  · exact ⟨_, exec_eq _ _⟩
  · exact ⟨_, rfl⟩

theorem State.pendingDraws_of_idle {s : State} (h : s.status.busy = false) : s.pendingDraws = 0 := by
  rw [State.pendingDraws, h]; rfl

/-- The draws of the command in flight are those its completion consumes (10_state.md R36). -/
theorem State.pendingDraws_of_next {s t : State} (hb : s.status.busy = true) (h : completeWord s = .next t) :
    s.pendingDraws = t.drawPos - s.drawPos := by
  rw [State.pendingDraws, if_pos hb, h]

/-- All an abandoned command leaves behind: some of its draws consumed, none when it had none to make
(70_reset_and_hazards.md R291). -/
theorem State.abandonCommand_eq (s : State) :
    ∃ k n, s.abandonCommand = { s with draws := s.draws.drop k, drawPos := s.drawPos + k, freePos := n } ∧
      k ≤ s.pendingDraws ∧ (s.pendingDraws = 0 → n = s.freePos) := by
  unfold State.abandonCommand
  split
  · exact ⟨0, s.freePos, rfl, Nat.zero_le _, fun _ => rfl⟩
  · next h => exact ⟨_, _, rfl, Nat.lt_succ_iff.1 (Nat.mod_lt _ (Nat.succ_pos _)), fun h0 => absurd h0 h⟩

/-- All a reset can do (70_reset_and_hazards.md R290, R291). -/
theorem State.resetEvent_eq (s : State) :
    ∃ k n, s.resetEvent = { State.reset with schedule := s.schedule, draws := s.draws.drop k, drawPos := s.drawPos + k,
                                             freePos := n, readData := s.readData } ∧
      k ≤ s.pendingDraws ∧ (s.pendingDraws = 0 → n = s.freePos) := by
  obtain ⟨k, n, h, hk, hn⟩ := s.abandonCommand_eq
  exact ⟨k, n, by rw [State.resetEvent, h]; rfl, hk, hn⟩

theorem State.ifIdle_of_busy {s : State} (h : s.status.busy = true) (f : State → State) : s.ifIdle f = s := if_pos h

theorem State.ifIdle_of_idle {s : State} (h : s.status.busy = false) (f : State → State) : s.ifIdle f = f s := by
  rw [State.ifIdle, h]; rfl

/-- A host read changes nothing but the two fields of the host's side (20_memory.md R66). -/
theorem readStep_eq (index : Nat) (offset : DWord) (s : State) :
    ∃ v n, readStep index offset s = { s with readData := some v, freePos := n } := by
  unfold readStep
  split
  · exact ⟨_, s.freePos, rfl⟩
  · exact ⟨_, _, rfl⟩

/-- While BUSY = 1 a write to any port but CTRL is ignored (20_memory.md R71). -/
theorem hostWrite_of_busy {s : State} (hb : s.status.busy = true) {p : Port} (hp : p ≠ .ctrl) (offset : DWord) (v : Nat) :
    hostWrite p offset v s = s := by
  cases p <;> first | exact absurd rfl hp | rfl | exact State.ifIdle_of_busy hb _

/-- The effects a host write can have, one per row of 46_control_load_store_system.md R245. -/
inductive WriteEffect (s : State) (v : Nat) : Port → State → Prop
  | ignored (p : Port) : WriteEffect s v p s
  | reset (odd : v % 2 = 1) : WriteEffect s v .ctrl s.resetEvent
  | issued (idle : s.status.busy = false) (live : s.status.fatal = false) :
      WriteEffect s v .cmd (s.issue (BitVec.ofNat 32 v))
  | keybits (idle : s.status.busy = false) : WriteEffect s v .keybits (s.setKeybits (BitVec.ofNat 32 v))
  | mrRounds (idle : s.status.busy = false) : WriteEffect s v .mrRounds (s.setMrRounds (BitVec.ofNat 32 v))
  | msglen (idle : s.status.busy = false) : WriteEffect s v .msglen (s.setMsglen (BitVec.ofNat 64 v))
  | outlen (idle : s.status.busy = false) : WriteEffect s v .outlen (s.setOutlen (BitVec.ofNat 64 v))
  | big (idle : s.status.busy = false) (r : BigReg) (writable : r ≠ .res) (legal : s.legal = true) :
      WriteEffect s v (.big r) (s.setBig r v)
  | msg (idle : s.status.busy = false) (offset : DWord) :
      WriteEffect s v .msg (s.setMsgByte offset.toNat (BitVec.ofNat 8 v))
  | em (idle : s.status.busy = false) (offset : DWord) (legal : s.legal = true) (inside : offset.toNat < s.kLen) :
      WriteEffect s v .em { s with em := s.em.write offset.toNat (BitVec.ofNat 8 v) }

/-- What a host write can do to the state. -/
theorem hostWrite_effect (p : Port) (offset : DWord) (v : Nat) (s : State) :
    WriteEffect s v p (hostWrite p offset v s) := by
  by_cases hc : p = .ctrl
  · subst hc
    simp only [hostWrite]
    split
    · next h => exact .reset h
    · exact .ignored _
  cases hb : s.status.busy with
  | true => rw [hostWrite_of_busy hb hc]; exact .ignored p
  | false =>
    cases p with
    | ctrl => exact absurd rfl hc
    | status | out | reserved => exact .ignored _
    | cmd =>
      simp only [hostWrite, State.ifIdle_of_idle hb, State.writeCmd]
      cases hf : s.status.fatal with
      | true => exact .ignored _
      | false => exact .issued hb hf
    | keybits => simp only [hostWrite, State.ifIdle_of_idle hb]; exact .keybits hb
    | mrRounds => simp only [hostWrite, State.ifIdle_of_idle hb]; exact .mrRounds hb
    | msglen => simp only [hostWrite, State.ifIdle_of_idle hb]; exact .msglen hb
    | outlen => simp only [hostWrite, State.ifIdle_of_idle hb]; exact .outlen hb
    | msg => simp only [hostWrite, State.ifIdle_of_idle hb]; exact .msg hb offset
    | big r =>
      simp only [hostWrite, State.ifIdle_of_idle hb]
      cases r with
      | res => exact .ignored _
      | opa | opb | mod =>
        simp only [State.hostSetBig]
        split
        · next hl => exact .big hb _ (by decide) hl
        · exact .ignored _
    | em =>
      simp only [hostWrite, State.ifIdle_of_idle hb, State.setEmByte]
      split
      · next h =>
        simp only [Bool.and_eq_true, decide_eq_true_eq] at h
        exact .em hb offset h.1 h.2
      · exact .ignored _

/-- What a step that answers a next state can have done: nothing (an idle block), the completion event, a host read, a
host write, or the hardware reset. -/
theorem step_cases {s t : State} (h : step s = .next t) :
    ∃ rest, (s.schedule = [] ∧ rest = [] ∨ ∃ mv, s.schedule = mv :: rest) ∧
      ((s.status.busy = false ∧ t = { s with schedule := rest }) ∨
       (s.status.busy = true ∧ completeWord { s with schedule := rest } = .next t) ∨
       (∃ index offset, s.schedule = .read index offset :: rest ∧ t = readStep index offset { s with schedule := rest }) ∨
       (∃ index offset v, s.schedule = .write index offset v :: rest ∧
          (Port.ofIndex index).fits v { s with schedule := rest } = true ∧
          t = hostWrite (Port.ofIndex index) offset v { s with schedule := rest }) ∨
       (s.schedule = .hardwareReset :: rest ∧ t = State.resetEvent { s with schedule := rest })) := by
  have blockCase : ∀ u : State, blockStep u = .next t →
      (u.status.busy = false ∧ t = u) ∨ (u.status.busy = true ∧ completeWord u = .next t) := by
    intro u hu
    unfold blockStep at hu
    split at hu
    · next hb => exact .inr ⟨hb, hu⟩
    · next hb => exact .inl ⟨by simpa using hb, by injection hu with hu; exact hu.symm⟩
  cases hs : s.schedule with
  | nil =>
    rw [step_nil hs] at h
    refine ⟨[], .inl ⟨rfl, rfl⟩, ?_⟩
    have e : s = { s with schedule := [] } := by rw [← hs]
    rcases blockCase s h with ⟨h1, h2⟩ | ⟨h1, h2⟩
    · exact .inl ⟨h1, h2.trans e⟩
    · exact .inr (.inl ⟨h1, by rw [← e]; exact h2⟩)
  | cons mv rest =>
    rw [step_cons hs] at h
    refine ⟨rest, .inr ⟨mv, rfl⟩, ?_⟩
    cases mv with
    | write index offset v =>
      simp only [moveStep, writeStep] at h
      split at h
      · next hf =>
        injection h with h
        exact .inr (.inr (.inr (.inl ⟨index, offset, v, rfl, hf, h.symm⟩)))
      · cases h
    | read index offset =>
      injection h with h
      exact .inr (.inr (.inl ⟨index, offset, rfl, h.symm⟩))
    | block =>
      rcases blockCase _ h with ⟨h1, h2⟩ | ⟨h1, h2⟩
      · exact .inl ⟨h1, h2⟩
      · exact .inr (.inl ⟨h1, h2⟩)
    | hardwareReset =>
      injection h with h
      exact .inr (.inr (.inr (.inr ⟨rfl, h.symm⟩)))

/-- A host write leaves the schedule alone. -/
theorem WriteEffect.schedule {s t : State} {v : Nat} {p : Port} (h : WriteEffect s v p t) : t.schedule = s.schedule := by
  cases h <;> first | rfl | exact State.resetEvent_schedule s | (rename_i r _ _; cases r <;> rfl)

theorem Ending.busy {s t : State} {i : Instr} (h : Ending s i t) : t.status.busy = false := by
  cases h <;> rfl

/-- A completed command is not running (20_memory.md R70). -/
theorem exec_busy {s t : State} {i : Instr} (h : exec i s = .next t) : t.status.busy = false := by
  rcases exec_ending h with ⟨_, rfl⟩ | ⟨_, h⟩
  · rfl
  · exact h.busy

/-- The completion event of any word clears BUSY (20_memory.md R70). -/
theorem completeWord_busy {s t : State} (h : completeWord s = .next t) : t.status.busy = false := by
  unfold completeWord at h
  split at h
  · exact exec_busy h
  · injection h with h; rw [← h]; rfl

/-- The completion event of any word leaves the command Done or the block halted (60_exceptions.md R250). -/
theorem completeWord_ended {s t : State} (h : completeWord s = .next t) : t.status.done = true ∨ t.status.fatal = true := by
  unfold completeWord at h
  split at h
  · rcases exec_ending h with ⟨_, rfl⟩ | ⟨_, h⟩
    · exact .inl rfl
    · cases h with
      | halt => exact .inr rfl
      | error | signError | done => exact .inl rfl
  · injection h with h; rw [← h]; exact .inl rfl

/-- The completion event of any word only moves forward in the draws (10_state.md R36). -/
theorem completeWord_drawPos_le {s t : State} (h : completeWord s = .next t) : s.drawPos ≤ t.drawPos := by
  unfold completeWord at h
  split at h
  · rcases exec_ending h with ⟨_, rfl⟩ | ⟨_, h⟩
    · exact le_rfl
    · cases h with
      | error | halt => exact le_rfl
      | signError => exact Nat.le_add_right _ _
      | done u out =>
        cases out with
        | sign | mrtestr | pssenc => exact Nat.le_add_right _ _
        | importReg r => cases r <;> exact le_rfl
        | res | mrtest | mgf1 | exportReg | pssdec | verify => exact le_rfl
  · injection h with h; rw [← h]
    exact le_rfl

/-- Both reset events are one (70_reset_and_hazards.md R290). -/
theorem step_reset {s : State} {rest : List Move} {offset : DWord} {v : Nat} (hv : v < 2 ^ 32)
    (h : s.schedule = .hardwareReset :: rest ∨ (s.schedule = .write 0x00 offset v :: rest ∧ v % 2 = 1)) :
    step s = .next (State.resetEvent { s with schedule := rest }) := by
  rcases h with hs | ⟨hs, hodd⟩
  · rw [step_cons hs]; rfl
  · have hf : (Port.ofIndex 0x00).fits v { s with schedule := rest } = true := decide_eq_true hv
    rw [step_cons hs]
    exact (if_pos hf).trans (congrArg _ (if_pos hodd))

end Sys2Proof.Machine
end

