-- ==== Sys2Proof/Machine/Script.lean ====
section
/-! DEFINITION. The script notation for host programs and the document's functions written in it
(30_encoding.md R100, R101). Each line stands for host accesses; a script is placed in `State.schedule`. -/

namespace Sys2Proof.Machine

/-- The index of a port (10_state.md R38); `reserved` stands for the first index the table leaves out. -/
def Port.index : Port → Nat
  | .ctrl => 0x00
  | .status => 0x01
  | .cmd => 0x02
  | .keybits => 0x03
  | .mrRounds => 0x04
  | .msglen => 0x05
  | .outlen => 0x06
  | .big .opa => 0x10
  | .big .opb => 0x11
  | .big .mod => 0x12
  | .big .res => 0x13
  | .msg => 0x20
  | .em => 0x21
  | .out => 0x22
  | .reserved => 0x07

/-- One line of a script (30_encoding.md R100). -/
inductive ScriptLine where
  | wr (p : Port) (v : Nat)
  | wrb (p : Port) (X : List Byte)
  | cmd (i : Instr)
  | wait
  | rd (p : Port)
  | rdb (p : Port) (n : Nat)
  | reset
deriving DecidableEq, Repr

/-- The moves of a line (30_encoding.md R100). In `wait` the block reaches its completion and the host then reads
STATUS. -/
def ScriptLine.moves : ScriptLine → List Move
  | .wr p v => [.write p.index 0 v]
  | .wrb p X => X.zipIdx.map fun c => .write p.index (BitVec.ofNat 64 c.2) c.1.toNat
  | .cmd i => [.write Port.cmd.index 0 (encode i).toNat]
  | .wait => [.block, .read Port.status.index 0]
  | .rd p => [.read p.index 0]
  | .rdb p n => (List.range n).map fun i => .read p.index (BitVec.ofNat 64 i)
  | .reset => [.write Port.ctrl.index 0 1]

/-- The moves of a script. -/
def scriptMoves (lines : List ScriptLine) : List Move := lines.flatMap ScriptLine.moves

/-- `modadd`, `modsub`, `modmul`, `modexp`: the command `i` on three operands (30_encoding.md R101). -/
def scriptModular (i : Instr) (a b m : Nat) : List ScriptLine :=
  [.wr (.big .opa) a, .wr (.big .opb) b, .wr (.big .mod) m, .cmd i, .wait, .rd (.big .res)]

/-- `is_probable_prime n` (30_encoding.md R101). -/
def scriptIsProbablePrime (n : Nat) : List ScriptLine := [.wr (.big .opa) n, .cmd .mrtest, .wait, .rd .status]

/-- `rsa_transform m, k, n` (30_encoding.md R101). -/
def scriptRsaTransform (m k n : Nat) : List ScriptLine :=
  [.wr (.big .opa) m, .wr (.big .opb) k, .wr (.big .mod) n, .cmd .rsaxf, .wait, .rd .status, .rd (.big .res)]

/-- `mgf.<h> seed, mask_len` (30_encoding.md R101). -/
def scriptMgf (h : HashSel) (seed : List Byte) (maskLen : Nat) : List ScriptLine :=
  [.wrb .msg seed, .wr .msglen seed.length, .wr .outlen maskLen, .cmd (.mgf1 h), .wait, .rd .status, .rdb .out maskLen]

/-- `sign.<h> msg, d, n` (30_encoding.md R101). -/
def scriptSign (h : HashSel) (msg : List Byte) (d n : Nat) : List ScriptLine :=
  [.wrb .msg msg, .wr .msglen msg.length, .wr (.big .opb) d, .wr (.big .mod) n, .cmd (.sign h), .wait, .rd .status,
   .rd (.big .res)]

/-- `verify.<h> msg, e, n, s` (30_encoding.md R101). -/
def scriptVerify (h : HashSel) (msg : List Byte) (e n sig : Nat) : List ScriptLine :=
  [.wrb .msg msg, .wr .msglen msg.length, .wr (.big .opa) sig, .wr (.big .opb) e, .wr (.big .mod) n, .cmd (.verify h),
   .wait, .rd .status]

/-- `import <reg>, bytes` (30_encoding.md R101). -/
def scriptImport (r : BigReg) (X : List Byte) : List ScriptLine :=
  [.wrb .msg X, .wr .msglen X.length, .cmd (.importReg r), .wait, .rd .status]

/-- `export <reg>, width` (30_encoding.md R101). -/
def scriptExport (r : BigReg) (width : Nat) : List ScriptLine :=
  [.wr .outlen width, .cmd (.exportReg r), .wait, .rd .status, .rdb .out width]

end Sys2Proof.Machine
end

