-- ==== Sys2Proof/Tests/Slice0.lean ====
section
/-! SUPPORT. Tests against 95_test_vectors.md and the encodings of 30_encoding.md, and for every obligation with
hypotheses a named witness that meets them. -/

namespace Sys2Proof.Tests

open Sys2Proof Sys2Proof.Machine

/-! ### Ill-formed words: one for each check of `Cmd32.wellFormed` -/

theorem test_reservedBits_illFormed : ({ op := 1, hsel := 0, reg := 0, reserved := 1 } : Cmd32).reservedOk = false ∧
    ({ op := 1, hsel := 0, reg := 0, reserved := 1 } : Cmd32).wellFormed = false := by decide
theorem test_opcode_illFormed : ({ op := 0, hsel := 0, reg := 0, reserved := 0 } : Cmd32).opOk = false ∧
    ({ op := 0xF, hsel := 0, reg := 0, reserved := 0 } : Cmd32).wellFormed = false := by decide
theorem test_hsel_illFormed : ({ op := 1, hsel := 1, reg := 0, reserved := 0 } : Cmd32).hselOk = false ∧
    ({ op := 1, hsel := 1, reg := 0, reserved := 0 } : Cmd32).wellFormed = false := by decide
theorem test_reg_illFormed : ({ op := 8, hsel := 0, reg := 1, reserved := 0 } : Cmd32).regOk = false ∧
    ({ op := 8, hsel := 0, reg := 1, reserved := 0 } : Cmd32).wellFormed = false := by decide
theorem test_wellFormed_accepts : ({ op := 8, hsel := 3, reg := 0, reserved := 0 } : Cmd32).wellFormed = true := by decide

/-! ### Words written out field by field, reserved ++ REG ++ HSEL ++ OP (30_encoding.md R90, R96) -/

theorem test_decode_modadd : decode (0#24 ++ 0b00#2 ++ 0b00#2 ++ 0b0001#4) = .ok .modadd := rfl
theorem test_decode_modsub : decode (0#24 ++ 0b00#2 ++ 0b00#2 ++ 0b0010#4) = .ok .modsub := rfl
theorem test_decode_modmul : decode (0#24 ++ 0b00#2 ++ 0b00#2 ++ 0b0011#4) = .ok .modmul := rfl
theorem test_decode_modexp : decode (0#24 ++ 0b00#2 ++ 0b00#2 ++ 0b0100#4) = .ok .modexp := rfl
theorem test_decode_mrtest : decode (0#24 ++ 0b00#2 ++ 0b00#2 ++ 0b0101#4) = .ok .mrtest := rfl
theorem test_decode_mrtestr : decode (0#24 ++ 0b00#2 ++ 0b00#2 ++ 0b0110#4) = .ok .mrtestr := rfl
theorem test_decode_rsaxf : decode (0#24 ++ 0b00#2 ++ 0b00#2 ++ 0b0111#4) = .ok .rsaxf := rfl
theorem test_decode_mgf1 : decode (0#24 ++ 0b00#2 ++ 0b10#2 ++ 0b1000#4) = .ok (.mgf1 .h384) := rfl
theorem test_decode_pssenc : decode (0#24 ++ 0b00#2 ++ 0b00#2 ++ 0b1001#4) = .ok (.pssenc .h224) := rfl
theorem test_decode_pssdec : decode (0#24 ++ 0b00#2 ++ 0b10#2 ++ 0b1010#4) = .ok (.pssdec .h384) := rfl
theorem test_decode_sign : decode (0#24 ++ 0b00#2 ++ 0b01#2 ++ 0b1011#4) = .ok (.sign .h256) := rfl
theorem test_decode_verify : decode (0#24 ++ 0b00#2 ++ 0b11#2 ++ 0b1100#4) = .ok (.verify .h512) := rfl
theorem test_decode_import : decode (0#24 ++ 0b10#2 ++ 0b00#2 ++ 0b1101#4) = .ok (.importReg .mod) := rfl
theorem test_decode_export : decode (0#24 ++ 0b11#2 ++ 0b00#2 ++ 0b1110#4) = .ok (.exportReg .res) := rfl

/-- V50, the illegal words. -/
theorem test_decode_illegal : [0x00000000, 0x0000000F, 0x00000011, 0x00000041, 0x00000101, 0x80000001, 0x00000037, 0x00000048,
    0x0000009D, 0x000000FF, 0xFFFFFFFF].all (fun w => (decodeTableWord 32 w).isNone) = true := by decide

theorem test_decodeTableWord : decodeTableWord 32 0xCD = some (.importReg .res) := rfl

/-! ### States for the tests -/

/-- A command in flight with the key size `K` and nothing else set. -/
def running (K : Word) : State := { State.reset with keybits := K, status := Status.running }

/-- An idle block with the key size `K` and the moves to come. -/
def idle (K : Word) (moves : List Move) : State := { State.reset with keybits := K, schedule := moves }

/-- STATUS after a completion without error, and with the error code `e`. -/
def done : Status := { Status.reset with done := true }
def doneErr (e : Byte) : Status := { Status.reset with done := true, err := e }

theorem legal_of {s : State} (h : 0 < s.keybits.toNat ∧ s.keybits.toNat % 8 = 0 ∧ s.keybits.toNat ≤ 2048) :
    s.legal = true := legalKeySize_of_le h.1 h.2.1 h.2.2

theorem getBig_zero {s : State} (h : s.opa = 0 ∧ s.opb = 0 ∧ s.mod = 0 ∧ s.res = 0) (r : BigReg) : s.getBig r = 0 := by
  cases r <;> simp [State.getBig, h]

/-- A state with nothing in its registers and buffers meets the invariant. -/
theorem inv_of_empty {s : State} (h : s.opa = 0 ∧ s.opb = 0 ∧ s.mod = 0 ∧ s.res = 0)
    (hb : s.msg = [] ∧ s.em = [] ∧ s.out = []) (hs : s.status.coherent = true) : s.Inv := by
  refine ⟨fun r _ => ?_, fun r _ => getBig_zero h r, ?_, ?_, ?_, ?_, ?_, ?_, hs⟩
  · rw [getBig_zero h]; exact Nat.two_pow_pos _
  all_goals simp [hb]

/-- The toy hash T1 of 95_test_vectors.md, Part 0. -/
def toyHash (hl : Nat) (X : List Byte) : List Byte :=
  (List.range hl).map fun j => BitVec.ofNat 8 ((X.map BitVec.toNat).sum + X.length + j)

/-- "test", and the salt 01 .. 1C (V40). -/
def msgTest : List Byte := [0x74, 0x65, 0x73, 0x74]
def saltV40 : List Byte := (List.range 28).map fun j => BitVec.ofNat 8 (j + 1)

/-- The 65 bytes of V40. -/
def emV40 : List Byte :=
  [0x1A, 0x9B, 0x9C, 0x9D, 0x9E, 0x9F, 0xA0, 0xA0, 0xA3, 0xA1, 0xA7, 0xA1, 0xA3, 0xA1, 0xAF, 0xA1, 0xA3, 0xA1, 0xA7, 0xA1,
   0xA3, 0xA1, 0xBF, 0xA1, 0xA3, 0xA1, 0xA7, 0xA1, 0x8E, 0x8A, 0x8A, 0x86, 0x86, 0xBA, 0xBA, 0xBE, 0xC0, 0xC1, 0xC2, 0xC3,
   0xC4, 0xC5, 0xC6, 0xC7, 0xC8, 0xC9, 0xCA, 0xCB, 0xCC, 0xCD, 0xCE, 0xCF, 0xD0, 0xD1, 0xD2, 0xD3, 0xD4, 0xD5, 0xD6, 0xD7,
   0xD8, 0xD9, 0xDA, 0xDB, 0xBC]

/-- The modulus and the private exponent of the key K1, and the signature of V42. -/
def nK1 : Nat := 0xa87aade471d7df943710347f86117302c8d81edf4ab469f90fdefa9feb7092ef9c6ad83570496f83ad9a0dcb625eca754fa68284b2be6667e19431e69c4cc24ccd
def dK1 : Nat := 0x04b39dbb9e7af9c7679f4266143765ccdc333537eb132c7731c115327ac97e21f22643adc488c04c2dcfe83379b0df938439140bd688fa9de52aa208696553b589
def sigV42 : Nat := 0x0173e76c0755c2644984fccf71504272e74234595cebc84bb5eebf1dfb2afbea7b244c11d5f09a9aa6bba0f8ba2df13a593ee39a5ad92e1a536d1be98bc9ce44c5

/-! ### One command on a small state -/

/-- V1 to V4, row (3, 5, 7): 8 mod 7, 3 - 5 wraps, 15 mod 7, 243 mod 7. -/
def arith (a b m : Nat) : State := { running 64 with opa := a, opb := b, mod := m }

theorem test_modadd : exec .modadd (arith 3 5 7) = .next { arith 3 5 7 with res := 1, status := done } := by
  rw [exec_of_legal (legal_of (by decide))]; rfl
theorem test_modsub_wraps : exec .modsub (arith 3 5 7) = .next { arith 3 5 7 with res := 5, status := done } := by
  rw [exec_of_legal (legal_of (by decide))]; rfl
theorem test_modmul_reduces : exec .modmul (arith 250 10 7) = .next { arith 250 10 7 with res := 1, status := done } := by
  rw [exec_of_legal (legal_of (by decide))]; rfl
theorem test_modexp_exponent_not_reduced :
    exec .modexp (arith 3 20 7) = .next { arith 3 20 7 with res := 2, status := done } := by
  rw [exec_of_legal (legal_of (by decide))]; rfl

/-- 40_bigint_modular.md R121 and V51: the fatal halt. -/
theorem test_modadd_zero_modulus :
    exec .modadd (arith 3 5 0) = .next { arith 3 5 0 with status := { Status.reset with fatal := true } } := by
  rw [exec_of_legal (legal_of (by decide))]; rfl

/-- V1 to V4: the sum of all-ones operands is formed exactly; `(2, 64, 2^64 - 1)`, `(7, 2^64 - 1, 13)`. -/
theorem test_modadd_no_wrap : (2 ^ 64 - 1 + (2 ^ 64 - 1)) % 9223372036854775809 = 9223372036854775803 ∧
    modExp 2 64 (2 ^ 64 - 1) = 1 ∧ modExp 7 (2 ^ 64 - 1) 13 = 5 := by decide +kernel

/-- V5: `00 00 FF FF` into OPB at K = 16, and `01 00 00` rejected. -/
theorem test_import_leading_zeros :
    let s := { running 16 with msg := [(2, 0xFF), (3, 0xFF)], msglen := 4 }
    exec (.importReg .opb) s = .next { s with opb := 65535, status := done } := by
  intro s; rw [exec_of_legal (legal_of (by decide))]; exact congrArg _ (by decide +kernel)
theorem test_import_overflow :
    let s := { running 16 with msg := [(0, 0x01)], msglen := 3, mod := 7 }
    exec (.importReg .mod) s = .next { s with status := doneErr 0x09 } := by
  intro s; rw [exec_of_legal (legal_of (by decide))]; exact congrArg _ (by decide +kernel)

/-- V6: OPA = 65537 in 6 bytes, and in 2 bytes. -/
theorem test_export_wide :
    let s := { running 32 with opa := 65537, outlen := 6 }
    exec (.exportReg .opa) s = .next { s with out := [(3, 0x01), (5, 0x01)], status := done } := by
  intro s; rw [exec_of_legal (legal_of (by decide))]; exact congrArg _ (by decide +kernel)
theorem test_export_overflow :
    let s := { running 32 with opa := 65537, outlen := 2 }
    exec (.exportReg .opa) s = .next { s with status := doneErr 0x09 } := by
  intro s; rw [exec_of_legal (legal_of (by decide))]; exact congrArg _ (by decide +kernel)

/-- V10 to V20: 7919 is prime; 3825123056546413051 passes every witness but 37. -/
theorem test_mrtest_prime : exec .mrtest { running 64 with opa := 7919 } =
    .next { running 64 with opa := 7919, status := { done with prime := true } } := by
  rw [exec_of_legal (legal_of (by decide))]; rfl
theorem test_mrtest_last_witness : mrTest 3825123056546413051 = false ∧
    mrTest 318665857834031151167461 = true ∧ [0, 1, 4, 9, 2047, 3277].all (fun n => mrTest n = false) = true ∧
    [2, 3, 5, 7, 37].all (fun n => mrTest n = true) = true := by decide +kernel

/-- V10 to V20: 221 with the draws 174, 137, and with 137 first. -/
theorem test_mrtestr_liar_then_witness : exec .mrtestr { running 64 with opa := 221, mrRounds := 2, draws := [174, 137] } =
    .next { running 64 with opa := 221, mrRounds := 2, drawPos := 2, status := done } := by
  rw [exec_of_legal (legal_of (by decide))]; rfl
theorem test_mrtestr_stops_early : exec .mrtestr { running 64 with opa := 221, mrRounds := 2, draws := [137, 5] } =
    .next { running 64 with opa := 221, mrRounds := 2, draws := [5], drawPos := 1, status := done } := by
  rw [exec_of_legal (legal_of (by decide))]; rfl

/-- V30. -/
theorem test_rsaxf : exec .rsaxf { running 16 with opa := 65, opb := 17, mod := 3233 } =
    .next { running 16 with opa := 65, opb := 17, mod := 3233, res := 2790, status := done } := by
  rw [exec_of_legal (legal_of (by decide))]; rfl
theorem test_rsaxf_range : exec .rsaxf { running 16 with opa := 3233, opb := 17, mod := 3233 } =
    .next { running 16 with opa := 3233, opb := 17, mod := 3233, status := doneErr 0x01 } := by
  rw [exec_of_legal (legal_of (by decide))]; rfl

/-- V35, toy hash: 30 bytes from `abc`, 28 of counter 0 and 2 of counter 1; 4 bytes from the empty seed. -/
theorem test_mgf : mgf (toyHash 28) [0x61, 0x62, 0x63] 30 =
    ((List.range 28).map fun j => BitVec.ofNat 8 (0x2D + j)) ++ [0x2E, 0x2F] ∧
    mgf (toyHash 28) [] 4 = [0x04, 0x05, 0x06, 0x07] := by decide +kernel
/-- V35: `28 * 2^32 + 1` is too long. -/
theorem test_mgf1_too_long : exec (.mgf1 .h224) { running 64 with outlen := 120259084289 } =
    .next { running 64 with outlen := 120259084289, status := doneErr 0x04 } := by
  rw [exec_of_legal (legal_of (by decide))]; rfl

/-- V40 and its K = 584 variant, toy hash. -/
theorem test_pssEncode : pssEncode (toyHash 28) 28 65 msgTest saltV40 = emV40 := by decide +kernel
theorem test_pssEncode_584 : pssEncode (toyHash 32) 32 73 [0x68, 0x65, 0x6C, 0x6C, 0x6F]
      ((List.range 32).map fun j => BitVec.ofNat 8 (0xA0 + j)) =
    [0x14, 0x15, 0x16, 0x17, 0x18, 0x19, 0x1A, 0x1A, 0xBC, 0xBC, 0xBC, 0xBC, 0x84, 0x84, 0x84, 0x84, 0x8C, 0x8C, 0x8C, 0x8C,
     0x84, 0x84, 0x84, 0x84, 0x9C, 0x9C, 0x9C, 0x9C, 0x84, 0x84, 0x84, 0x84, 0xAD, 0xAF, 0xAD, 0xA3, 0xA5, 0xA7, 0xA5, 0xA3,
     0x48, 0x49, 0x4A, 0x4B, 0x4C, 0x4D, 0x4E, 0x4F, 0x50, 0x51, 0x52, 0x53, 0x54, 0x55, 0x56, 0x57, 0x58, 0x59, 0x5A, 0x5B,
     0x5C, 0x5D, 0x5E, 0x5F, 0x60, 0x61, 0x62, 0x63, 0x64, 0x65, 0x66, 0x67, 0xBC] := by decide +kernel
/-- V51: KEYBITS = 64 is too short for PSSENC. -/
theorem test_pssenc_hashTooLong : exec (.pssenc .h224) (running 64) = .next { running 64 with status := doneErr 0x03 } := by
  rw [exec_of_legal (legal_of (by decide))]; rfl

/-- V41, toy hash. -/
theorem test_pssDecode_valid : pssDecode (toyHash 28) 28 65 msgTest emV40 = none := by decide +kernel
theorem test_pssDecode_rejects :
    pssDecode (toyHash 28) 28 65 msgTest (emV40.set 64 0xBD) = some .invalidTrailer ∧
    pssDecode (toyHash 28) 28 65 msgTest (emV40.set 0 0x9A) = some .invalidLeadingBit ∧
    pssDecode (toyHash 28) 28 65 msgTest (emV40.set 6 0xB0) = some .invalidPadding ∧
    pssDecode (toyHash 28) 28 65 msgTest (emV40.set 7 0xA1) = some .invalidPadding ∧
    pssDecode (toyHash 28) 28 65 msgTest (emV40.set 35 0xBF) = some .hashMismatch ∧
    pssDecode (toyHash 28) 28 65 [0x74, 0x65, 0x73, 0x75] emV40 = some .hashMismatch := by decide +kernel

/-- V42 and V43, toy hash, key K1: the signature, and the encoding recovered from it. -/
theorem test_sign_v42 : modExp (os2ip emV40) dK1 nK1 = sigV42 := by decide +kernel
theorem test_verify_v43 : i2osp (modExp sigV42 65537 nK1) 65 = emV40 := by decide +kernel
/-- V42: a zero modulus is out of range after the salt was drawn. -/
theorem test_sign_zero_modulus : exec (.sign .h224) (running 520) =
    .next { running 520 with drawPos := 1, status := doneErr 0x01 } := by
  rw [exec_of_legal (legal_of (by decide)), execBody,
    State.whenFits_of_none ((pssSetup_eq_none_iff _ _).2 ⟨by decide, by simp [running, State.reset]⟩),
    rsaTransform_of_le (by exact Nat.zero_le _)]
  rfl
/-- V43: `OPA = n`. -/
theorem test_verify_out_of_range : exec (.verify .h224) { running 520 with opa := nK1, mod := nK1 } =
    .next { running 520 with opa := nK1, mod := nK1, status := doneErr 0x01 } := by
  rw [exec_of_legal (legal_of (by decide)), execBody,
    State.whenFits_of_none ((pssSetup_eq_none_iff _ _).2 ⟨by decide, by simp [running, State.reset]⟩),
    rsaTransform_of_le (by exact le_rfl)]
  rfl

/-! ### The sequencer, the host's accesses and the scripts -/

/-- V51: the words 0x11 and 0x1 right after reset. -/
theorem test_reset_illegalCommand : step (State.reset.withFetchWord 32 0x11) =
    .next { State.reset with cmd := 0x11, status := doneErr 0x0A } := rfl
theorem test_reset_badConfig : step (State.reset.withFetchWord 32 0x01) =
    .next { State.reset with cmd := 0x01, status := doneErr 0x0B } := rfl

/-- V51: the STATUS words. -/
theorem test_status_words : done.word = 0x00000002 ∧ (doneErr 0x0A).word = 0x00000A02 ∧
    ({ done with prime := true } : Status).word = 0x0000000A ∧ ({ Status.reset with fatal := true } : Status).word = 0x00000004 ∧
    Status.running.word = 0x00000001 := by decide

/-- P6: a CMD write under FATAL is ignored, and the word is not stored. -/
theorem test_fatal_ignores_cmd :
    let s := { idle 64 [.write 0x02 0 0x03] with cmd := 0x01, status := { Status.reset with fatal := true } }
    step s = .next { s with schedule := [] } := rfl

/-- 10_state.md R24: a CTRL write resets while a command is in flight. -/
theorem test_reset_in_flight : step { running 64 with opa := 5, schedule := [.write 0x00 0 1] } = .next State.reset := rfl

/-- 70_reset_and_hazards.md R291, 44_pss.md R201: SIGN with a zero modulus would have consumed one draw by its completion. -/
theorem test_pendingDraws_sign : State.pendingDraws { running 520 with cmd := 0x0B } = 1 := by
  have h : completeWord { running 520 with cmd := 0x0B } =
      .next { running 520 with cmd := 0x0B, drawPos := 1, status := doneErr 0x01 } := by
    rw [completeWord_of_ok (i := .sign .h224) rfl, exec_of_legal (legal_of (by decide)), execBody,
      State.whenFits_of_none ((pssSetup_eq_none_iff _ _).2 ⟨by decide, by simp [running, State.reset]⟩),
      rsaTransform_of_le (by exact Nat.zero_le _)]
    rfl
  rw [State.pendingDraws_of_next rfl h]; rfl

/-- P5: a KEYBITS write wipes the registers and leaves STATUS alone. -/
theorem test_keybits_clears :
    step { idle 520 [.write 0x03 0 520] with opa := 1, res := 2, em := [(0, 1)], status := doneErr 0x08 } =
      .next { idle 520 [] with status := doneErr 0x08 } := rfl

/-- 20_memory.md R64: EM at an index `>= kLen` reads 0. -/
theorem test_em_read_beyond : hostRead .em 2 { idle 16 [] with em := [(2, 0x55)] } = some 0 := by
  simp [hostRead, idle, State.reset, Status.reset, State.kLen, State.keySize]

/-- The script of `import OPA, 01 00` (30_encoding.md R101). -/
theorem test_script_import : scriptMoves (scriptImport .opa [0x01, 0x00]) =
    [.write 0x20 0 1, .write 0x20 1 0, .write 0x05 0 2, .write 0x02 0 0x0D, .block, .read 0x01 0, .read 0x01 0] := by decide

/-! ### A witness for the hypotheses of each obligation, clause by clause at the ends of its ranges

`witness_<Name>` belongs to `Obligations.<Name>`. -/

theorem witness_DecodeAcceptsExactlyTheOpcodeRows : decode 0xCE = .ok (.exportReg .res) ∧
    decode 0x0F = .error .illegalOp := ⟨rfl, rfl⟩

theorem witness_IllegalWordsCompleteWithIllegalCommand :
    let s := { running 64 with cmd := 0x11, schedule := [.block] }
    s.status.busy = true ∧ s.schedule = .block :: [] ∧ decode s.cmd = .error .unusedHsel ∧
      ({ s with schedule := [] } : State).status.busy = true ∧ ({ s with schedule := [] } : State).schedule = [] :=
  ⟨rfl, rfl, rfl, rfl, rfl⟩

theorem witness_StepRunsTheCommandInFlight :
    (let s := { running 64 with cmd := 0x05, schedule := [.block] };
      s.status.busy = true ∧ decode s.cmd = .ok .mrtest ∧ s.schedule = .block :: []) ∧
    (let s := { running 64 with cmd := 0xCD };
      s.status.busy = true ∧ decode s.cmd = .ok (.importReg .res) ∧ s.schedule = []) ∧
    decode (encode (.verify .h512)) = .ok (.verify .h512) := ⟨⟨rfl, rfl, rfl⟩, ⟨rfl, rfl, rfl⟩, rfl⟩

theorem witness_CmdWriteIssuesUnlessBusyOrHalted :
    let moves := [Move.write 0x02 0 (2 ^ 32 - 1)]
    ((idle 64 moves).schedule = .write 0x02 0 (2 ^ 32 - 1) :: [] ∧ 2 ^ 32 - 1 < 2 ^ 32 ∧
      (idle 64 moves).status.busy = false ∧ (idle 64 moves).status.fatal = false) ∧
    (let s := { idle 64 moves with status := Status.running };
      s.schedule = .write 0x02 0 (2 ^ 32 - 1) :: [] ∧ s.status.busy = true) ∧
    (let s := { idle 64 moves with status := { Status.reset with fatal := true } };
      s.schedule = .write 0x02 0 (2 ^ 32 - 1) :: [] ∧ s.status.fatal = true) ∧
    (idle 64 [.read 0x02 0]).schedule = .read 0x02 0 :: [] := by decide

theorem witness_IssueThenCompletionRunsTheCommand :
    let s := idle 64 [.write 0x02 0 (encode .modexp).toNat, .block]
    s.schedule = .write 0x02 0 (encode .modexp).toNat :: .block :: [] ∧ s.status.busy = false ∧ s.status.fatal = false :=
  ⟨rfl, rfl, rfl⟩

/-- No move left; only accesses left, of which the last is no access of the interface; and a reset left. -/
theorem witness_IssuedCommandsComplete : ((running 64).status.busy = true ∧ ∀ mv ∈ (running 64).schedule, mv.isReset = false) ∧
    (let s := { running 64 with schedule := [.read 0x01 0, .write 0x00 0 0, .write 0x05 0 (2 ^ 64)] };
      s.status.busy = true ∧ ∀ mv ∈ s.schedule, mv.isReset = false) ∧
    ({ running 64 with schedule := [.write 0x00 0 1] } : State).status.busy = true := by decide

/-- The last value that fits KEYBITS, and the first that does not. -/
theorem witness_OnlyTooWideHostWritesStopTheMachine :
    step (idle 64 [.write 0x03 0 (2 ^ 32)]) = .fault .hostValueTooWide ∧
    step (idle 64 [.write 0x03 0 (2 ^ 32 - 1)]) = .next (idle (BitVec.allOnes 32) []) := ⟨rfl, rfl⟩

theorem witness_IllegalKeySizeEndsEveryCommandWithBadConfig : (running 0).legal = false ∧ (running 12).legal = false ∧
    (running 8).legal = true := ⟨rfl, rfl, legal_of (by decide)⟩

/-- A nonzero and a zero modulus, for MODADD, MODSUB, MODMUL and MODEXP. -/
theorem witness_ModaddWritesTheResidueOfTheSum :
    (arith 3 5 1).legal = true ∧ (arith 3 5 1).mod ≠ 0 ∧ (arith 3 5 0).legal = true ∧ (arith 3 5 0).mod = 0 :=
  ⟨legal_of (by decide), by decide, legal_of (by decide), rfl⟩
theorem witness_ModsubWritesTheResidueOfTheDifference :
    (arith 0 1 1).legal = true ∧ (arith 0 1 1).mod ≠ 0 ∧ (arith 0 1 0).legal = true ∧ (arith 0 1 0).mod = 0 :=
  ⟨legal_of (by decide), by decide, legal_of (by decide), rfl⟩
theorem witness_ModmulWritesTheResidueOfTheProduct :
    (arith 6 1 7).legal = true ∧ (arith 6 1 7).mod ≠ 0 ∧ (arith 6 1 0).legal = true ∧ (arith 6 1 0).mod = 0 :=
  ⟨legal_of (by decide), by decide, legal_of (by decide), rfl⟩
theorem witness_ModexpWritesTheResidueOfThePower :
    (arith 0 0 1).legal = true ∧ (arith 0 0 1).mod ≠ 0 ∧ (arith 0 0 0).legal = true ∧ (arith 0 0 0).mod = 0 :=
  ⟨legal_of (by decide), by decide, legal_of (by decide), rfl⟩

theorem witness_ModularResultsAreCanonicalResidues :
    Instr.modsub ∈ [Instr.modadd, .modsub, .modmul, .modexp] ∧ (arith 20 30 7).legal = true ∧ (arith 20 30 7).mod ≠ 0 ∧
    Instr.modsub ≠ .modexp := ⟨by decide, legal_of (by decide), by decide, by decide⟩

theorem witness_FatalStaysUntilReset :
    let s := { idle 64 [.write 0x02 0 1] with status := { Status.reset with fatal := true } }
    s.status.fatal = true ∧ step s = .next { s with schedule := [] } ∧ s.status.busy = false := ⟨rfl, rfl, rfl⟩

/-- The largest value of 16 bits, and the one above it. -/
theorem witness_ImportLoadsTheIntegerOfTheMessage :
    (let s := { running 16 with msg := [(0, 0xFF), (1, 0xFF)], msglen := 2 };
      s.legal = true ∧ os2ip (s.msg.readBytes 0 s.msglen.toNat) < 2 ^ s.keybits.toNat) ∧
    (let s := { running 16 with msg := [(0, 0x01)], msglen := 3 };
      s.legal = true ∧ 2 ^ s.keybits.toNat ≤ os2ip (s.msg.readBytes 0 s.msglen.toNat)) :=
  ⟨⟨legal_of (by decide), by decide +kernel⟩, ⟨legal_of (by decide), by decide +kernel⟩⟩

/-- The largest value of two bytes, the one above it, and no bytes at all. -/
theorem witness_ExportStoresTheBytesOfTheRegister :
    (let s := { running 32 with opa := 65535, outlen := 2 };
      s.legal = true ∧ s.out.wf = true ∧ s.getBig .opa < 256 ^ s.outlen.toNat) ∧
    (let s := { running 32 with opa := 65536, outlen := 2 };
      s.legal = true ∧ s.out.wf = true ∧ 256 ^ s.outlen.toNat ≤ s.getBig .opa) ∧
    (running 32).getBig .res < 256 ^ (running 32).outlen.toNat :=
  ⟨⟨legal_of (by decide), rfl, by decide +kernel⟩, ⟨legal_of (by decide), rfl, by decide +kernel⟩, by decide +kernel⟩

theorem witness_MrtestAnswersByTheTwelveWitnesses : ({ running 64 with opa := 3 } : State).legal = true :=
  legal_of (by decide)

theorem witness_MrtestAcceptsEveryPrime : ({ running 64 with opa := 2 } : State).legal = true ∧ Nat.Prime 2 ∧
    ({ running 64 with opa := 7919 } : State).legal = true ∧ Nat.Prime 7919 :=
  ⟨legal_of (by decide), Nat.prime_two, legal_of (by decide), by norm_num⟩

theorem witness_MrtestAgreesWithTrialDivisionBelow10000 :
    ({ running 64 with opa := 9999 } : State).legal = true ∧ (9999 : Nat) < 10000 := ⟨legal_of (by decide), by decide⟩

/-- V10 to V20: `n = 5` with its two bases, and 221 with the draws 174 (a liar) and 137. -/
theorem witness_MrtestrAnswersByItsDraws :
    (2 ≤ 3 ∧ 3 ≤ 5 - 2) ∧
    (({ running 64 with opa := 3 } : State).legal = true) ∧ (({ running 64 with opa := 1 } : State).legal = true) ∧
    (let s := { running 64 with opa := 5, mrRounds := 2, draws := [2, 3] };
      s.legal = true ∧ 5 ≤ s.opa ∧ s.opa % 2 = 1 ∧
        ∀ j < s.mrRounds.toNat, strongProbablePrime s.opa (drawNat 2 (s.opa - 2) (s.draw j))) ∧
    (let s := { running 64 with opa := 221, mrRounds := 2, draws := [174, 137] };
      s.legal = true ∧ 5 ≤ s.opa ∧ s.opa % 2 = 1 ∧ 1 < s.mrRounds.toNat ∧
        ¬ strongProbablePrime s.opa (drawNat 2 (s.opa - 2) (s.draw 1)) ∧
        ∀ j' < 1, strongProbablePrime s.opa (drawNat 2 (s.opa - 2) (s.draw j'))) := by
  refine ⟨by decide, legal_of (by decide), legal_of (by decide), ⟨legal_of (by decide), by decide, by decide, ?_⟩,
    ⟨legal_of (by decide), by decide, by decide, by decide, ?_, ?_⟩⟩
  · intro j hj
    rw [← mrRound_decompose_iff (by decide) (by decide)]
    have : j = 0 ∨ j = 1 := by have : j < 2 := hj; omega
    rcases this with rfl | rfl <;> rfl
  · rw [← mrRound_decompose_iff (by decide) (by decide)]; decide +kernel
  · intro j hj
    rw [← mrRound_decompose_iff (by decide) (by decide), show j = 0 by omega]; rfl

theorem witness_MrtestrAcceptsEveryPrimeForEveryDraw :
    ({ running 64 with opa := 13 } : State).legal = true ∧ Nat.Prime 13 := ⟨legal_of (by decide), by norm_num⟩

theorem witness_RsaxfChecksTheRangeThenExponentiates :
    (let s := { running 16 with opa := 3233, mod := 3233 }; s.legal = true ∧ s.mod ≤ s.opa) ∧
    (let s := { running 16 with opa := 3232, mod := 3233 }; s.legal = true ∧ s.opa < s.mod) :=
  ⟨⟨legal_of (by decide), by decide⟩, ⟨legal_of (by decide), by decide⟩⟩

/-- The shortest key a hash admits, with an empty message (V45). -/
theorem pssFits_shortest {s : State} {h : HashSel} (hk : s.kLen = 2 * hLen h + 9) (hm : s.msglen = 0) : s.pssFits h :=
  ⟨by omega, by rw [hm]; exact Nat.zero_le _⟩

theorem witness_ZeroModulusIsOutOfRangeForTheCipher :
    (running 1096).legal = true ∧ (running 1096).mod = 0 ∧ (running 1096).pssFits .h512 :=
  ⟨legal_of (by decide), rfl, pssFits_shortest (by decide) rfl⟩

/-- V30's key, used in both orders. -/
theorem witness_RsaxfRoundTrip : KeyPair 61 53 17 413 3233 ∧
    (let s := { running 16 with opa := 3232, opb := 17, mod := 3233 };
      s.legal = true ∧ s.mod = 3233 ∧ s.opa < 3233 ∧ s.opb = 17) ∧
    (let s := { running 16 with opa := 0, opb := 413, mod := 3233 };
      s.legal = true ∧ s.mod = 3233 ∧ s.opa < 3233 ∧ s.opb = 413) :=
  ⟨⟨by norm_num, by norm_num, by decide, by decide, by decide⟩, ⟨legal_of (by decide), rfl, by decide, rfl⟩,
    ⟨legal_of (by decide), rfl, by decide, rfl⟩⟩

/-- V35: the longest mask of the 224-bit hash, and one byte more; and a seed whose hash input is the longest that every
hash of 224 bits admits (log entry 8). -/
theorem witness_Mgf1WritesTheMask :
    (let s := { running 64 with outlen := 120259084289 };
      s.legal = true ∧ s.out.wf = true ∧ 2 ^ 32 * hLen .h224 < s.outlen.toNat) ∧
    (let s := { running 64 with outlen := 120259084288 };
      s.legal = true ∧ s.out.wf = true ∧ s.outlen.toNat ≤ 2 ^ 32 * hLen .h224) ∧
    (let s := { running 64 with msglen := 60, outlen := 1 };
      s.legal = true ∧ s.out.wf = true ∧ s.outlen.toNat ≤ 2 ^ 32 * hLen .h224 ∧ s.msglen.toNat + 4 ≤ hashMaxIn .h224 ∧
        0 < s.outlen.toNat) :=
  ⟨⟨legal_of (by decide), rfl, by decide⟩, ⟨legal_of (by decide), rfl, by decide⟩,
    ⟨legal_of (by decide), rfl, by decide, Nat.le_add_right 64 _, by decide⟩⟩

theorem witness_ShorterMaskIsPrefix : (5 : Nat) ≤ 30 ∧ (30 : Nat) ≤ 30 := by decide

/-- V45, one byte below the boundary. MessageTooLong can occur only with a hash whose input limit is below the largest
MSGLEN (Part 0 of 95_test_vectors.md: with T1 it never does), so its witness is one for every such hash. -/
theorem witness_PssSetupChecks :
    (Instr.sign .h224 ∈ [Instr.pssenc .h224, .pssdec .h224, .sign .h224, .verify .h224] ∧ (running 512).legal = true ∧
      (running 512).keybits.toNat / 8 < 2 * hLen .h224 + 9) ∧
    (hashMaxIn .h224 < 2 ^ 64 - 1 →
      let s := { running 520 with msglen := BitVec.allOnes 64 }
      s.legal = true ∧ 2 * hLen .h224 + 9 ≤ s.keybits.toNat / 8 ∧ hashMaxIn .h224 < s.msglen.toNat) ∧
    ((running 520).legal = true ∧ 2 * hLen .h224 + 9 ≤ (running 520).keybits.toNat / 8 ∧
      (running 520).msglen.toNat ≤ hashMaxIn .h224 ∧ (running 520).status.err = 0) :=
  ⟨⟨by decide, legal_of (by decide), by decide⟩, fun h => ⟨legal_of (by decide), by decide, h⟩,
    legal_of (by decide), by decide, Nat.zero_le _, rfl⟩

theorem witness_PssencWritesTheEncoding :
    (running 520).legal = true ∧ (running 520).pssFits .h224 ∧ (running 520).em.wf = true :=
  ⟨legal_of (by decide), pssFits_shortest (by decide) rfl, rfl⟩

theorem witness_EncodingEndsInTrailerAndStaysBelowTopBit :
    2 * hLen .h224 + 9 ≤ 65 ∧ (zeros 28).length = hLen .h224 := by decide

/-- A state whose EM is the masked form of the string `X` and the digest. -/
def withEncoding (X digest : List Byte) : State :=
  { running 520 with em := Memory.writeBytes [] 0 (maskedEncoding (hash .h224) 28 65 X digest) }

theorem withEncoding_reads (X digest : List Byte) (hX : X.length = 36) (hd : digest.length = 28) :
    (withEncoding X digest).em.readBytes 0 65 = maskedEncoding (hash .h224) 28 65 X digest := by
  have hl : (maskedEncoding (hash .h224) 28 65 X digest).length = 65 :=
    length_maskedEncoding (length_hash .h224) (by decide) hX hd (by decide)
  have := Memory.readBytes_writeBytes Memory.wf_nil 0 (maskedEncoding (hash .h224) 28 65 X digest)
  rwa [hl] at this

theorem withEncoding_ends (X digest : List Byte) (hX : X.length = 36) (hd : digest.length = 28) :
    (withEncoding X digest).em.read 64 = 0xBC ∧ (withEncoding X digest).em.read 0 &&& 0x80 = 0 := by
  have h := withEncoding_reads X digest hX hd
  have hx : (clearTopBit (xorBytes X (mgf (hash .h224) digest 36))).length = 36 := by
    rw [length_clearTopBit, length_xorBytes, length_mgf_hash, hX]; rfl
  have get : ∀ i < 65, (withEncoding X digest).em.read i = (maskedEncoding (hash .h224) 28 65 X digest)[i]?.getD 0 := by
    intro i hi
    rw [← h, Memory.getElem?_readBytes, if_pos hi]; simp
  have e : maskedEncoding (hash .h224) 28 65 X digest =
      clearTopBit (xorBytes X (mgf (hash .h224) digest 36)) ++ digest ++ [0xBC] := rfl
  constructor
  · rw [get 64 (by decide), e, List.getElem?_append_right (by simp [hx, hd])]
    simp [hx, hd]
  · rw [get 0 (by decide), e, List.append_assoc, List.getElem?_append_left (by omega)]
    exact clearTopBit_head _

theorem withEncoding_recovers (X digest : List Byte) (hX : (0 :: X).length = 36) (hd : digest.length = 28) :
    slice ((withEncoding (0 :: X) digest).em.readBytes 0 65) 36 64 = digest ∧
    recoverDB (hash .h224) 28 65 ((withEncoding (0 :: X) digest).em.readBytes 0 65) = 0 :: X := by
  rw [withEncoding_reads _ _ hX hd]
  exact ⟨slice_maskedEncoding (length_hash .h224) (by decide) hX hd,
    recoverDB_maskedEncoding (length_hash .h224) (by decide) rfl hX hd⟩

/-- The digest that belongs to the empty message and a salt of zeros, and one that differs from it in every bit. -/
def rightDigest : List Byte := hash .h224 (zeros 8 ++ hash .h224 [] ++ zeros 28)
def wrongDigest : List Byte := rightDigest.map (~~~ ·)

theorem wrongDigest_ne : rightDigest ≠ wrongDigest := by
  intro h
  have h0 := congrArg (fun X => X[0]?) h
  have hl : 0 < rightDigest.length := by rw [rightDigest, length_hash]; decide
  simp only [wrongDigest, List.getElem?_map, List.getElem?_eq_getElem hl, Option.map_some, Option.some.injEq] at h0
  have : ∀ b : Byte, b ≠ ~~~ b := by decide
  exact this _ h0

/-- DB with a salt of zeros, and DB with no 0x01. -/
def paddedDB : List Byte := zeros 7 ++ [0x01] ++ zeros 28

/-- The five clauses: a wrong trailer, a set leading bit, bad padding, a wrong digest, and a valid encoding. -/
theorem witness_PssdecReportsTheFirstFailedCheck :
    (running 520).legal = true ∧ (running 520).pssFits .h224 ∧ (running 520).kLen = 65 ∧
    (running 520).em.read 64 ≠ 0xBC ∧
    (let m := Memory.write (Memory.write [] 0 0x80) 64 0xBC; m.read 64 = 0xBC ∧ m.read 0 &&& 0x80 ≠ 0) ∧
    (let s := withEncoding (zeros 36) (zeros 28);
      s.legal = true ∧ s.pssFits .h224 ∧ s.em.read 64 = 0xBC ∧ s.em.read 0 &&& 0x80 = 0 ∧
      ¬ (recoverDB (hash .h224) 28 65 (s.em.readBytes 0 65))[7]? = some 0x01) ∧
    (let s := withEncoding paddedDB wrongDigest;
      s.legal = true ∧ s.pssFits .h224 ∧ s.em.read 64 = 0xBC ∧ s.em.read 0 &&& 0x80 = 0 ∧
      recoverDB (hash .h224) 28 65 (s.em.readBytes 0 65) = paddedDB ∧
      hash .h224 (zeros 8 ++ hash .h224 (s.msg.readBytes 0 s.msglen.toNat) ++ slice paddedDB 8 36) ≠
        slice (s.em.readBytes 0 65) 36 64) ∧
    (let s := withEncoding paddedDB rightDigest;
      s.legal = true ∧ s.pssFits .h224 ∧ s.em.read 64 = 0xBC ∧ s.em.read 0 &&& 0x80 = 0 ∧
      recoverDB (hash .h224) 28 65 (s.em.readBytes 0 65) = paddedDB ∧
      slice paddedDB 0 7 = zeros 7 ∧ paddedDB[7]? = some 0x01 ∧
      hash .h224 (zeros 8 ++ hash .h224 (s.msg.readBytes 0 s.msglen.toNat) ++ slice paddedDB 8 36) =
        slice (s.em.readBytes 0 65) 36 64) := by
  have hr : rightDigest.length = 28 := length_hash .h224 _
  have hw : wrongDigest.length = 28 := by rw [wrongDigest, List.length_map, hr]
  have legal : ∀ X d, (withEncoding X d).legal = true := fun _ _ => legal_of (s := running 520) (by decide)
  have fits : ∀ X d, (withEncoding X d).pssFits .h224 := fun _ _ =>
    pssFits_shortest (show (520#32).toNat / 8 = 65 by decide) rfl
  have pad : paddedDB = 0 :: (zeros 6 ++ [0x01] ++ zeros 28) := rfl
  refine ⟨legal_of (by decide), pssFits_shortest (by decide) rfl, by decide, by decide, by decide,
    ⟨legal _ _, fits _ _, ?_, ?_, ?_⟩, ⟨legal _ _, fits _ _, ?_, ?_, ?_, ?_⟩, ⟨legal _ _, fits _ _, ?_, ?_, ?_, ?_, ?_, ?_⟩⟩
  · exact (withEncoding_ends _ _ (by decide) (by decide)).1
  · exact (withEncoding_ends _ _ (by decide) (by decide)).2
  · rw [show zeros 36 = 0 :: zeros 35 from rfl, (withEncoding_recovers _ _ (by decide) (by decide)).2]; decide
  · exact (withEncoding_ends _ _ (by decide) hw).1
  · exact (withEncoding_ends _ _ (by decide) hw).2
  · rw [pad]; exact (withEncoding_recovers _ _ (by decide) hw).2
  · rw [pad, (withEncoding_recovers _ _ (by decide) hw).1]; exact wrongDigest_ne
  · exact (withEncoding_ends _ _ (by decide) hr).1
  · exact (withEncoding_ends _ _ (by decide) hr).2
  · rw [pad]; exact (withEncoding_recovers _ _ (by decide) hr).2
  · decide
  · decide
  · rw [pad, (withEncoding_recovers _ _ (by decide) hr).1]; rfl

theorem witness_PssdecAcceptsTheOutputOfPssenc :
    (running 1096).legal = true ∧ (running 1096).pssFits .h512 ∧ (running 1096).em.wf = true :=
  ⟨legal_of (by decide), pssFits_shortest (by decide) rfl, rfl⟩

/-- An encoding of 65 bytes ends in 0xBC, so it is not the largest 520-bit number. -/
theorem encoding_lt_allOnes (M : List Byte) {salt : List Byte} (hs : salt.length = 28) :
    os2ip (pssEncode (hash .h224) 28 65 M salt) < 2 ^ 520 - 1 := by
  rw [pssEncode_eq_masked (hl := 28) (length_hash .h224) (by decide) M hs (by decide), maskedEncoding, os2ip_append]
  generalize hA : clearTopBit _ ++ _ = A
  have hl : A.length = 64 := by
    rw [← hA, List.length_append, length_clearTopBit, length_xorBytes, length_dataBlock hs (by decide),
      length_mgf (hl := 28) (length_hash .h224) (by decide), length_hash]
    rfl
  have h := os2ip_lt A
  rw [hl] at h
  refine lt_of_lt_of_le (show _ < (256 ^ 64 - 1) * 256 + 189 from ?_) (by decide +kernel)
  show os2ip A * 256 + 188 < _
  omega

/-- A modulus of 0, below every encoding, and the largest 520-bit modulus, above every encoding. -/
theorem witness_SignExponentiatesTheEncoding :
    (running 520).legal = true ∧ (running 520).pssFits .h224 ∧
    (running 520).mod ≤ os2ip ((running 520).encodeNext .h224) ∧
    (let s := { running 520 with mod := 2 ^ 520 - 1 };
      s.legal = true ∧ s.pssFits .h224 ∧ os2ip (s.encodeNext .h224) < s.mod) :=
  ⟨legal_of (by decide), pssFits_shortest (by decide) rfl, Nat.zero_le _, legal_of (by decide),
    pssFits_shortest (by decide) rfl, encoding_lt_allOnes _ (length_drawBytes _ _)⟩

theorem witness_SignSucceedsForAFullLengthModulus :
    let s := { running 520 with mod := 2 ^ 519 }
    s.legal = true ∧ s.pssFits .h224 ∧ 2 ^ (s.keybits.toNat - 1) ≤ s.mod :=
  ⟨legal_of (by decide), pssFits_shortest (by decide) rfl, by decide +kernel⟩

theorem witness_SignIsPssencThenRsaxf :
    (running 584).legal = true ∧ (running 584).pssFits .h256 ∧ (running 584).em.wf = true :=
  ⟨legal_of (by decide), pssFits_shortest (by decide) rfl, rfl⟩

theorem witness_VerifyDecodesTheRecoveredEncoding :
    ((running 520).legal = true ∧ (running 520).pssFits .h224 ∧ (running 520).mod ≤ (running 520).opa) ∧
    (let s := { running 520 with mod := 1 }; s.legal = true ∧ s.pssFits .h224 ∧ s.opa < s.mod) :=
  ⟨⟨legal_of (by decide), pssFits_shortest (by decide) rfl, le_rfl⟩,
    ⟨legal_of (by decide), pssFits_shortest (by decide) rfl, by decide⟩⟩

/-- A key pair of exactly 528 bits: 127, the Mersenne prime 2^521 - 1, e = 65537 and its inverse. -/
def dMersenne : Nat := 101262495475324854400003476951950053739062934447473005400780576349477945121106138876492709373557704338098731244839453244648322704257229803868787909730550906723

theorem keyPair_mersenne : KeyPair 127 (2 ^ 521 - 1) 65537 dMersenne (127 * (2 ^ 521 - 1)) where
  primeP := by norm_num
  primeQ := by
    have h : LucasLehmer.LucasLehmerTest 521 := by norm_num
    exact lucas_lehmer_sufficiency _ (by norm_num) h
  distinct := by decide +kernel
  modulus := rfl
  inverse := by
    rw [Nat.ModEq, Nat.lcm]
    decide +kernel

theorem witness_VerifyAcceptsTheOutputOfSign : KeyPair 127 (2 ^ 521 - 1) 65537 dMersenne (127 * (2 ^ 521 - 1)) ∧
    (let s := { running 528 with mod := 127 * (2 ^ 521 - 1), opb := dMersenne };
      s.legal = true ∧ s.pssFits .h224 ∧ exactBits s.keybits.toNat (127 * (2 ^ 521 - 1)) ∧
      s.mod = 127 * (2 ^ 521 - 1) ∧ s.opb = dMersenne) :=
  ⟨keyPair_mersenne, legal_of (by decide), ⟨by decide, Nat.zero_le _⟩, ⟨by decide +kernel, by decide +kernel⟩, rfl, rfl⟩

/-- The key above, whose exponent is 65537, and a key of 8 bits with a sampled exponent. -/
theorem witness_ValidKeyPairsHaveOddModuliOfExactLength :
    ValidKeyPair 528 127 (2 ^ 521 - 1) 65537 dMersenne (127 * (2 ^ 521 - 1)) ∧ ValidKeyPair 8 13 17 5 29 221 :=
  ⟨{ keyPair_mersenne with
      modulusForm := ⟨⟨by decide +kernel, by decide +kernel⟩, by decide +kernel⟩
      publicExponent := .inl rfl
      widths := ⟨by decide +kernel, by decide +kernel⟩ },
   { primeP := by norm_num
     primeQ := by norm_num
     distinct := by decide
     modulus := rfl
     inverse := by decide
     modulusForm := ⟨⟨by decide, by decide⟩, rfl⟩
     publicExponent := .inr (by decide)
     widths := by decide }⟩

/-- Commands that complete, end with an error and halt, from a running state whose buffers are in their form. -/
theorem witness_CommandsWriteOnlyTheirOutputs : ∃ t, exec .modadd (arith 3 5 7) = .next t ∧ writtenReg .modadd ≠ some .opa ∧
    (arith 3 5 7).em.wf = true ∧ (arith 3 5 7).out.wf = true := ⟨_, test_modadd, by decide, rfl, rfl⟩
theorem witness_CommandsEndInExactlyOneOutcome : (arith 3 5 0).status = Status.running := rfl
theorem witness_ErrorsWriteNothingButStatus :
    (∃ t, (running 64).status.err = 0 ∧ exec (.pssenc .h224) (running 64) = .next t ∧ t.status.err ≠ 0) ∧
    (∃ t, (running 520).status.err = 0 ∧ exec (.sign .h224) (running 520) = .next t ∧ t.status.err ≠ 0) :=
  ⟨⟨_, rfl, test_pssenc_hashTooLong, by decide⟩, ⟨_, rfl, test_sign_zero_modulus, by decide⟩⟩
theorem witness_CommandsRaiseOnlyTheirErrors :
    ∃ t, (running 64).status.err = 0 ∧ exec (.pssenc .h224) (running 64) = .next t := ⟨_, rfl, test_pssenc_hashTooLong⟩
/-- SIGN at the shortest key that fits and one byte below it; MRTESTR at 4 and at an even number; BadConfig. -/
theorem witness_DrawsAreConsumedOnlyWhereTheRulesDraw :
    ((∃ t, exec (.sign .h224) (running 520) = .next t) ∧ (running 520).legal = true ∧ (running 520).pssFits .h224) ∧
    ((∃ t, exec (.pssenc .h224) (running 512) = .next t) ∧ ¬ (running 512).pssFits .h224) ∧
    (∀ n : Nat, ∃ t, exec .mrtestr { running 64 with opa := n } = .next t) ∧ ((4 : Nat) < 5 ∧ (6 : Nat) % 2 = 0) ∧
    (running 12).legal = false :=
  ⟨⟨⟨_, test_sign_zero_modulus⟩, legal_of (by decide), pssFits_shortest (by decide) rfl⟩,
    ⟨⟨_, exec_eq _ _⟩, fun h => absurd h.1 (by decide)⟩, fun _ => ⟨_, exec_eq _ _⟩, by decide, rfl⟩
/-- EXPORT of RES with its own value, its first output byte among the bytes compared; and a command that does not read RES. -/
theorem witness_OutcomesDependOnlyOnOperandsAndDraws :
    (let s := { running 16 with outlen := 1, res := 7 };
      (Instr.exportReg .res = .exportReg .res → 7 = s.res) ∧ s.out.wf = true ∧ s.status.err = 0 ∧ 0 < s.outlen.toNat ∧
        ∃ t, exec (.exportReg .res) s = .next t ∧ t.status.err = 0) ∧
    (Instr.modadd ≠ .exportReg .res ∧ ∃ t, exec .modadd (arith 3 5 7) = .next t) :=
  ⟨⟨fun _ => rfl, rfl, rfl, by decide, _, exec_of_legal (legal_of (by decide)) _, by decide⟩, by decide, _, test_modadd⟩

/-- Both reset events with a command in flight; a CTRL write with bit 0 clear; a CTRL read. -/
theorem witness_ResetIsAcceptedInEveryState :
    ({ running 64 with schedule := [.hardwareReset] } : State).schedule = .hardwareReset :: [] ∧
    ({ running 64 with schedule := [.write 0x00 0 (2 ^ 32 - 1)] } : State).schedule = .write 0x00 0 (2 ^ 32 - 1) :: [] ∧
    (2 ^ 32 - 1) % 2 = 1 ∧ 2 ^ 32 - 1 < 2 ^ 32 ∧
    (idle 64 [.write 0x00 0 (2 ^ 32 - 2)]).schedule = .write 0x00 0 (2 ^ 32 - 2) :: [] ∧ (2 ^ 32 - 2) % 2 = 0 ∧
    (idle 64 [.read 0x00 0]).schedule = .read 0x00 0 :: [] := by decide

/-- A CTRL write that resets while SIGN is in flight. -/
theorem witness_ResetAbandonsTheCommandInFlight :
    let s := { running 520 with cmd := encode (.sign .h224), schedule := [.write 0x00 0 (2 ^ 32 - 1)] }
    s.status.busy = true ∧ 2 ^ 32 - 1 < 2 ^ 32 ∧ s.schedule = .write 0x00 0 (2 ^ 32 - 1) :: [] ∧ (2 ^ 32 - 1) % 2 = 1 :=
  ⟨rfl, by decide, rfl, by decide⟩

theorem witness_AccessesWhileBusy :
    (∀ moves, ({ running 64 with schedule := moves } : State).status.busy = true ∧
      ({ running 64 with schedule := moves } : State).Inv) ∧
    (Port.ofIndex 0x10).fits (2 ^ 64 - 1) { running 64 with schedule := [.write 0x10 0 (2 ^ 64 - 1)] } = true ∧
    (Port.ofIndex 0x01).fits 0 { running 64 with schedule := [.write 0x01 0 0] } = true := by
  refine ⟨fun moves => ⟨rfl, inv_of_empty ⟨rfl, rfl, rfl, rfl⟩ ⟨rfl, rfl, rfl⟩ rfl⟩, ?_, by decide⟩
  have h : Port.width (.big .opa) { running 64 with schedule := [.write 0x10 0 (2 ^ 64 - 1)] } = some 64 :=
    if_pos (legal_of (by decide))
  show Port.fits (.big .opa) _ _ = true
  rw [Port.fits, h]
  decide

theorem witness_KeybitsWriteClearsTheOperands :
    (idle 64 [.write 0x03 0 (2 ^ 32 - 1)]).schedule = .write 0x03 0 (2 ^ 32 - 1) :: [] ∧ 2 ^ 32 - 1 < 2 ^ 32 ∧
    (idle 64 []).status.busy = false ∧ (running 64).status.busy = true ∧
    (idle 64 [.read 0x03 0]).schedule = .read 0x03 0 :: [] := by decide

theorem witness_HostAccessOfBigRegisters :
    (idle 64 []).status.busy = false ∧ (idle 64 []).legal = true ∧ 2 ^ 64 - 1 < 2 ^ (idle 64 []).keybits.toNat ∧
    (idle 64 [.write 0x12 0 (2 ^ 64 - 1)]).schedule = .write 0x12 0 (2 ^ 64 - 1) :: [] ∧
    (idle 12 []).legal = false ∧ (idle 12 [.write 0x10 0 7]).schedule = .write 0x10 0 7 :: [] ∧
    (idle 12 [.write 0x21 0 255]).schedule = .write 0x21 0 255 :: [] ∧
    (idle 12 [.read 0x11 0]).schedule = .read 0x11 0 :: [] ∧ (idle 64 [.read 0x13 0]).schedule = .read 0x13 0 :: [] ∧
    (idle 12 [.read 0x21 0]).schedule = .read 0x21 0 :: [] :=
  ⟨rfl, legal_of (by decide), by decide, rfl, rfl, rfl, rfl, rfl, rfl, rfl⟩

theorem witness_RoundAndLengthRegistersStoreEveryValue :
    (idle 64 [.write 0x04 0 (2 ^ 32 - 1)]).schedule = .write 0x04 0 (2 ^ 32 - 1) :: [] ∧
    (idle 64 [.write 0x05 0 (2 ^ 64 - 1)]).schedule = .write 0x05 0 (2 ^ 64 - 1) :: [] ∧
    (idle 64 [.write 0x06 0 (2 ^ 64 - 1)]).schedule = .write 0x06 0 (2 ^ 64 - 1) :: [] ∧
    (idle 64 [.read 0x04 0]).schedule = .read 0x04 0 :: [] ∧ (idle 64 [.read 0x05 0]).schedule = .read 0x05 0 :: [] ∧
    (idle 64 [.read 0x06 0]).schedule = .read 0x06 0 :: [] ∧ (idle 64 []).status.busy = false := by decide

/-- The last byte of MSG and of OUT, and the last byte of EM and the index after it. -/
theorem witness_HostAccessOfBuffers :
    (∀ moves, (idle 16 moves).status.busy = false ∧ (idle 16 moves).Inv ∧ (idle 16 moves).legal = true ∧
      (idle 16 moves).kLen = 2 ∧ (idle 16 moves).schedule = moves) ∧
    (1#64).toNat < 2 ∧ 2 ≤ (2#64).toNat ∧ (BitVec.allOnes 64).toNat = 2 ^ 64 - 1 ∧ 255 < 256 := by
  refine ⟨fun moves => ⟨rfl, inv_of_empty ⟨rfl, rfl, rfl, rfl⟩ ⟨rfl, rfl, rfl⟩ rfl, legal_of (s := idle 16 []) (by decide),
    (show (16#32).toNat / 8 = 2 by decide), rfl⟩,
    by decide, by decide, by decide, by decide⟩

theorem witness_ReadOnlyAndReservedIndices :
    0x07 ∉ [0x00, 0x01, 0x02, 0x03, 0x04, 0x05, 0x06, 0x10, 0x11, 0x12, 0x13, 0x20, 0x21, 0x22] ∧
    0x23 ∉ [0x00, 0x01, 0x02, 0x03, 0x04, 0x05, 0x06, 0x10, 0x11, 0x12, 0x13, 0x20, 0x21, 0x22] ∧
    (idle 64 [.write 0x07 0 1]).schedule = .write 0x07 0 1 :: [] ∧
    (idle 0 [.write 0x13 0 1]).schedule = .write 0x13 0 1 :: [] ∧
    (Port.ofIndex 0x13).fits 1 (idle 0 [.write 0x13 0 1]) = true ∧
    (idle 64 [.read 0x23 0]).schedule = .read 0x23 0 :: [] := by
  refine ⟨by decide, by decide, rfl, rfl, rfl, rfl⟩

theorem witness_ReadsHaveNoSideEffect : (idle 64 [.read 0x22 5]).schedule = .read 0x22 5 :: [] ∧
    (idle 64 [.read 0x22 5]).status.busy = false := ⟨rfl, rfl⟩

/-- A read of STATUS from an idle block, with a command in flight, and in the fatal halt. -/
theorem witness_StatusWordLayout : ∀ st ∈ [Status.reset, Status.running, { Status.reset with fatal := true }],
    ({ idle 64 [.read 0x01 0] with status := st } : State).schedule = .read 0x01 0 :: [] := fun _ _ => rfl

theorem witness_StepKeepsTheInvariant : State.reset.Inv ∧ step State.reset = .next State.reset :=
  ⟨inv_of_empty ⟨rfl, rfl, rfl, rfl⟩ ⟨rfl, rfl, rfl⟩ rfl, rfl⟩

end Sys2Proof.Tests
end

section
/-! The values after reset (10_state.md R37). -/

namespace Sys2Proof.Machine

/-- STATUS reads as the zero word after reset (10_state.md R37). -/
@[simp] theorem Status.word_reset : Status.reset.word = 0 := by decide

/-- Settles O46: the registers hold their reset values by definition, the STATUS word is `Status.word_reset`, and each
buffer is the empty memory, whose bytes are all 0x00 by `Memory.read_nil`. -/
theorem resetValues : Obligations.ResetValues := by
  have bytes : ∀ a, State.reset.msg.read a = 0x00 ∧ State.reset.em.read a = 0x00 ∧ State.reset.out.read a = 0x00 :=
    fun a => ⟨Memory.read_nil a, Memory.read_nil a, Memory.read_nil a⟩
  exact ⟨rfl, rfl, rfl, rfl, Status.word_reset, rfl, rfl, rfl, rfl, rfl, bytes⟩

end Sys2Proof.Machine
end

section
/-! The big-integer commands: the four modular operations, IMPORT and EXPORT (40_bigint_modular.md). -/

namespace Sys2Proof.Machine

/-! ### Modular results are canonical residues (40_bigint_modular.md R120) -/

/-- A modular operation on a nonzero modulus writes RES and completes. -/
theorem exec_of_modular {i : Instr} {f : Nat → Nat → Nat → Nat} (hi : ∀ s : State, execBody i s = s.modular f) {s : State}
    (hl : s.legal = true) (hm : s.mod ≠ 0) : exec i s = .next (s.setRes (f s.opa s.opb s.mod)).complete := by
  rw [exec_of_legal hl, hi, State.modular_of_pos hm]

/-- What makes `f` an operation of R120: its result is below the modulus, and its first operand counts up to the modulus
only. -/
structure CanonicalResidue (f : Nat → Nat → Nat → Nat) : Prop where
  lt : ∀ a b {m : Nat}, 0 < m → f a b m < m
  mod_left : ∀ a b m, f (a % m) b m = f a b m

/-- R120 for a command whose body is the modular operation `f`; `hright` says when its second operand may be reduced. -/
theorem exec_canonicalResidue {i : Instr} {f : Nat → Nat → Nat → Nat} (hi : ∀ s : State, execBody i s = s.modular f)
    (hf : CanonicalResidue f) (hright : i ≠ .modexp → ∀ a b m, f a (b % m) m = f a b m) {s : State}
    (hl : s.legal = true) (hm : s.mod ≠ 0) :
    ∃ v, v < s.mod ∧
      exec i s = .next (s.setRes v).complete ∧
      exec i { s with opa := s.opa % s.mod } = .next (State.setRes { s with opa := s.opa % s.mod } v).complete ∧
      (i ≠ .modexp →
        exec i { s with opb := s.opb % s.mod } = .next (State.setRes { s with opb := s.opb % s.mod } v).complete) := by
  refine ⟨f s.opa s.opb s.mod, hf.lt _ _ (Nat.pos_of_ne_zero hm), exec_of_modular hi hl hm, ?_, fun hne => ?_⟩
  · rw [← hf.mod_left s.opa]
    exact exec_of_modular hi (s := { s with opa := s.opa % s.mod }) hl hm
  · rw [← hright hne s.opa]
    exact exec_of_modular hi (s := { s with opb := s.opb % s.mod }) hl hm

theorem canonicalResidue_add : CanonicalResidue fun a b m => (a + b) % m where
  lt _ _ _ := Nat.mod_lt _
  mod_left a b m := Nat.mod_add_mod a m b

theorem canonicalResidue_sub : CanonicalResidue fun a b m => (a % m + m - b % m) % m where
  lt _ _ _ := Nat.mod_lt _
  mod_left a b m := by rw [Nat.mod_mod]

theorem canonicalResidue_mul : CanonicalResidue fun a b m => (a * b) % m where
  lt _ _ _ := Nat.mod_lt _
  mod_left := Nat.mod_mul_mod

theorem canonicalResidue_modExp : CanonicalResidue modExp where
  lt a b _ := modExp_lt a b
  mod_left a b m := by rw [modExp_eq, modExp_eq, ← Nat.pow_mod]

/-- Settles O15: each of the four operations is a `CanonicalResidue`, and all but MODEXP reduce the second operand too. -/
theorem modularResultsAreCanonicalResidues : Obligations.ModularResultsAreCanonicalResidues := by
  intro i hi s hl hm
  simp only [List.mem_cons, List.not_mem_nil, or_false] at hi
  obtain rfl | rfl | rfl | rfl := hi
  · exact exec_canonicalResidue (fun _ => rfl) canonicalResidue_add (fun _ a b m => Nat.add_mod_mod a b m) hl hm
  · exact exec_canonicalResidue (fun _ => rfl) canonicalResidue_sub (fun _ a b m => by rw [Nat.mod_mod]) hl hm
  · exact exec_canonicalResidue (fun _ => rfl) canonicalResidue_mul (fun _ a b m => Nat.mul_mod_mod a b m) hl hm
  · exact exec_canonicalResidue (fun _ => rfl) canonicalResidue_modExp (fun hne => absurd rfl hne) hl hm

/-! ### IMPORT (40_bigint_modular.md R122) -/

@[simp] theorem State.getBig_complete (s : State) (r : BigReg) : s.complete.getBig r = s.getBig r := by
  cases r <;> rfl

theorem decode_importReg_word (r : BigReg) : decode (BitVec.ofNat 32 (0xD + 64 * r.code)) = .ok (.importReg r) := by
  cases r <;> rfl

theorem exec_importReg_of_lt {s : State} (hl : s.legal = true) (hv : os2ip s.message < 2 ^ s.keySize) (r : BigReg) :
    exec (.importReg r) s = .next (s.setBig r (os2ip s.message)).complete := by
  rw [exec_of_legal hl, execBody, if_neg (Nat.not_le.2 hv)]

theorem exec_importReg_of_le {s : State} (hl : s.legal = true) (hv : 2 ^ s.keySize ≤ os2ip s.message) (r : BigReg) :
    exec (.importReg r) s = .next (s.completeError .widthOverflow) := by
  rw [exec_of_legal hl, execBody, if_pos hv]

/-- The completion after a register write takes the rest of STATUS from before the write. -/
theorem State.complete_setBig (s : State) (r : BigReg) (v : Nat) :
    (s.setBig r v).complete = { s.setBig r v with status := s.status.complete } := by
  rw [State.complete, State.setBig_status]

/-- Settles O17, by the two sides of the width check; the other registers are kept by `State.getBig_setBig`. -/
theorem importLoadsTheIntegerOfTheMessage : Obligations.ImportLoadsTheIntegerOfTheMessage := by
  refine ⟨decode_importReg_word, fun r s hl => ⟨fun hv => ?_, fun hv => exec_importReg_of_le hl hv r⟩⟩
  have hget : (s.setBig r (os2ip s.message)).complete.getBig r = os2ip s.message := by simp
  refine ⟨_, exec_importReg_of_lt hl hv r, hget, ?_, fun r' hr => ?_⟩
  · rw [hget]
    exact State.complete_setBig s r _
  · rw [State.getBig_complete, State.getBig_setBig, if_neg hr]

/-! ### EXPORT (40_bigint_modular.md R123) -/

theorem decode_exportReg_word (r : BigReg) : decode (BitVec.ofNat 32 (0xE + 64 * r.code)) = .ok (.exportReg r) := by
  cases r <;> rfl

theorem exec_exportReg_of_lt {s : State} {r : BigReg} (hl : s.legal = true) (hv : s.getBig r < 256 ^ s.outlen.toNat) :
    exec (.exportReg r) s = .next (s.putOut (i2osp (s.getBig r) s.outlen.toNat)).complete := by
  rw [exec_of_legal hl, execBody, if_neg (Nat.not_le.2 hv)]

theorem exec_exportReg_of_le {s : State} {r : BigReg} (hl : s.legal = true) (hv : 256 ^ s.outlen.toNat ≤ s.getBig r) :
    exec (.exportReg r) s = .next (s.completeError .widthOverflow) := by
  rw [exec_of_legal hl, execBody, if_pos hv]

/-- `n` bytes of I2OSP written at the front of a buffer read back as the integer. -/
theorem os2ip_readBytes_writeBytes_i2osp {m : Memory} (h : m.wf = true) {v n : Nat} (hv : v < 256 ^ n) :
    os2ip ((m.writeBytes 0 (i2osp v n)).readBytes 0 n) = v := by
  have back := Memory.readBytes_writeBytes h 0 (i2osp v n)
  rw [length_i2osp] at back
  rw [back, os2ip_i2osp_of_lt hv]

/-- A byte behind a string written at the front of a buffer stays. -/
theorem Memory.read_writeBytes_of_length_le {m : Memory} (h : m.wf = true) {X : List Byte} {a : Nat} (ha : X.length ≤ a) :
    (m.writeBytes 0 X).read a = m.read a := by
  rw [Memory.read_writeBytes h, if_neg (by omega)]

/-- Settles O18, by the two sides of the length check: the written bytes read back as the value
(`os2ip_readBytes_writeBytes_i2osp`), and those behind them stay. -/
theorem exportStoresTheBytesOfTheRegister : Obligations.ExportStoresTheBytesOfTheRegister := by
  refine ⟨decode_exportReg_word, fun r s hl hwf => ⟨fun hv => ?_, exec_exportReg_of_le hl⟩⟩
  refine ⟨_, exec_exportReg_of_lt hl hv, os2ip_readBytes_writeBytes_i2osp hwf hv, fun a ha => ?_⟩
  exact Memory.read_writeBytes_of_length_le hwf (by rwa [length_i2osp])

end Sys2Proof.Machine
end

section
/-! The Miller-Rabin engine: MRTEST (41_miller_rabin.md). -/

namespace Sys2Proof.Machine

/-! ### MRTEST answers by the twelve witnesses (41_miller_rabin.md R151 to R154) -/

/-- The pre-check leaves the odd numbers from 3 on to the witnesses (41_miller_rabin.md R151). -/
theorem preCheck_of_odd {n : Nat} (h : 3 ≤ n) (odd : n % 2 = 1) : preCheck n = .test := by
  rw [preCheck, if_neg (by omega), if_neg (by omega), if_neg (by omega)]

theorem preCheck_of_even {n : Nat} (h : n ≠ 2) (even : n % 2 = 0) : preCheck n = .reject := by
  rw [preCheck, if_neg h, if_pos even, ite_self]

theorem mrTest_of_odd {n : Nat} (h : 3 ≤ n) (odd : n % 2 = 1) :
    mrTest n = true ↔ ∀ a ∈ witnesses, a < n - 1 → strongProbablePrime n a := by
  rw [mrTest, preCheck_of_odd h odd]
  simp only [witnessLoop_iff, mrRound_decompose_iff (show 2 ≤ n by omega) odd]

/-- The answer of MRTEST without its loops (41_miller_rabin.md R154). -/
theorem mrTest_iff (n : Nat) : mrTest n = true ↔
    n = 2 ∨ (3 ≤ n ∧ n % 2 = 1 ∧ ∀ a ∈ witnesses, a < n - 1 → strongProbablePrime n a) := by
  rcases Nat.mod_two_eq_zero_or_one n with even | odd
  · by_cases h2 : n = 2
    · exact iff_of_true (by rw [h2]; rfl) (.inl h2)
    · have rejected : mrTest n = false := by rw [mrTest, preCheck_of_even h2 even]
      simp [rejected, h2, even]
  · by_cases h3 : 3 ≤ n
    · rw [mrTest_of_odd h3 odd]
      have h2 : n ≠ 2 := by omega
      simp [h2, h3, odd]
    · obtain rfl : n = 1 := by omega
      exact iff_of_false (by decide) (by omega)

/-- MRTEST writes its answer to STATUS and nothing else (41_miller_rabin.md R150, R154). -/
theorem exec_mrtest {s : State} (hl : s.legal = true) :
    exec .mrtest s = .next { s with status := { s.status with busy := false, done := true, prime := mrTest s.opa } } :=
  exec_of_legal hl .mrtest

/-- Settles O19: the answer is `mrTest`, whose loops `mrTest_iff` removes. -/
theorem mrtestAnswersByTheTwelveWitnesses : Obligations.MrtestAnswersByTheTwelveWitnesses :=
  ⟨rfl, fun s hl => ⟨mrTest s.opa, exec_mrtest hl, mrTest_iff s.opa⟩⟩

/-! ### A strong probable prime in the ring of residues -/

theorem mod_eq_one_iff_zmod {n : Nat} (h : 2 ≤ n) (x : Nat) : x % n = 1 ↔ (x : ZMod n) = 1 := by
  rw [← Nat.cast_one (R := ZMod n), ZMod.natCast_eq_natCast_iff', Nat.mod_eq_of_lt (show 1 < n from h)]

theorem mod_eq_pred_iff_zmod {n : Nat} (h : 2 ≤ n) (x : Nat) : x % n = n - 1 ↔ (x : ZMod n) = -1 := by
  have pred : ((n - 1 : Nat) : ZMod n) = -1 := by rw [Nat.cast_sub (by omega)]; simp
  rw [← pred, ZMod.natCast_eq_natCast_iff', Nat.mod_eq_of_lt (show n - 1 < n by omega)]

/-- `strongProbablePrime` as equations in the residues modulo `n`. -/
theorem strongProbablePrime_iff_zmod {n : Nat} (h : 2 ≤ n) (a : Nat) : strongProbablePrime n a ↔
    ∃ k q, n - 1 = 2 ^ k * q ∧ q % 2 = 1 ∧
      ((a : ZMod n) ^ q = 1 ∨ ∃ i < k, ((a : ZMod n) ^ q) ^ 2 ^ i = -1) := by
  simp only [strongProbablePrime, mod_eq_one_iff_zmod h, mod_eq_pred_iff_zmod h, Nat.cast_pow, ← pow_mul,
    mul_comm (2 ^ _)]

/-- Where 1 and -1 are the only square roots of 1, repeated squaring reaches 1 from any other `x` through -1. -/
theorem eq_one_or_pow_eq_neg_one {R : Type*} [CommRing R] [NoZeroDivisors R] {k : Nat} {x : R} (h : x ^ 2 ^ k = 1) :
    x = 1 ∨ ∃ i < k, x ^ 2 ^ i = -1 := by
  induction k with
  | zero => exact .inl (by simpa using h)
  | succ k ih =>
    rw [pow_succ, pow_mul, pow_two, mul_self_eq_one_iff] at h
    rcases h with one | neg_one
    · exact (ih one).imp_right fun ⟨i, hi, hx⟩ => ⟨i, by omega, hx⟩
    · exact .inr ⟨k, by omega, neg_one⟩

/-- For a prime no base shows it composite: Fermat's little theorem, and that 1 has only the square roots 1 and -1. -/
theorem strongProbablePrime_of_prime {n a : Nat} (hn : n.Prime) (ha : 0 < a) (hlt : a < n) :
    strongProbablePrime n a := by
  have : Fact n.Prime := ⟨hn⟩
  have hn2 : 2 ≤ n := hn.two_le
  obtain ⟨hkq, odd⟩ := decompose_spec hn2
  have a_ne_zero : (a : ZMod n) ≠ 0 := by
    rw [Ne, ZMod.natCast_eq_zero_iff]; exact Nat.not_dvd_of_pos_of_lt ha hlt
  have fermat : ((a : ZMod n) ^ (decompose n).2) ^ 2 ^ (decompose n).1 = 1 := by
    rw [← pow_mul, mul_comm, ← hkq]; exact ZMod.pow_card_sub_one_eq_one a_ne_zero
  exact (strongProbablePrime_iff_zmod hn2 a).2 ⟨_, _, hkq, odd, eq_one_or_pow_eq_neg_one fermat⟩

/-- A base that does not show `n` composite passes Fermat's test. -/
theorem probablePrime_of_strongProbablePrime {n a : Nat} (hn : 2 ≤ n) (ha : 1 ≤ a) (h : strongProbablePrime n a) :
    n.ProbablePrime a := by
  obtain ⟨k, q, hkq, -, hpow⟩ := (strongProbablePrime_iff_zmod hn a).1 h
  rw [Nat.probablePrime_iff_modEq n ha, ← ZMod.natCast_eq_natCast_iff, Nat.cast_pow, Nat.cast_one, hkq, mul_comm,
    pow_mul]
  rcases hpow with one | ⟨i, hi, neg_one⟩
  · rw [one, one_pow]
  · obtain ⟨j, rfl⟩ := Nat.exists_eq_add_of_lt hi
    rw [add_assoc, pow_add, pow_mul, neg_one, pow_succ', pow_mul, neg_one_sq, one_pow]

/-! ### MRTEST agrees with trial division below 10,000 (41_miller_rabin.md R158) -/

/-- MRTEST declares every prime prime (41_miller_rabin.md R155). -/
theorem mrTest_of_prime {n : Nat} (hn : n.Prime) : mrTest n = true := by
  rcases hn.eq_two_or_odd with rfl | odd
  · rfl
  · have h3 : 3 ≤ n := by have := hn.two_le; omega
    refine (mrTest_of_odd h3 odd).2 fun a ha hlt => strongProbablePrime_of_prime hn ?_ (by omega)
    exact (show ∀ a ∈ witnesses, 0 < a by decide) a ha

/-- The primes between the largest witness and the square root of 10,000. -/
def primesBeyondWitnesses : List Nat := [41, 43, 47, 53, 59, 61, 67, 71, 73, 79, 83, 89, 97]

theorem mem_witnesses_or_beyond {p : Nat} (hp : p.Prime) (h : p < 100) : p ∈ witnesses ∨ p ∈ primesBeyondWitnesses := by
  have small : ∀ p < 100, p.Prime → p ∈ witnesses ∨ p ∈ primesBeyondWitnesses := by decide
  exact small p h hp

/-- A witness fails Fermat's test for a composite below 10,000 that has a prime factor above all witnesses. The bases 2 and 3
leave 6601 and 8911, which 7 divides. -/
theorem exists_witness_of_primesBeyondWitnesses : ∀ p ∈ primesBeyondWitnesses, ∀ m < 244, p ≤ m → p * m < 10000 →
    ∃ a ∈ witnesses, ¬ (p * m).ProbablePrime a := by
  decide +kernel

/-- A prime base fails Fermat's test for each of its multiples. -/
theorem not_probablePrime_of_dvd {n p : Nat} (hp : p.Prime) (hn : 1 ≤ n) (h : p ∣ n) : ¬ n.ProbablePrime p := fun hpsp =>
  hp.coprime_iff_not_dvd.1 (Nat.coprime_of_probablePrime hpsp hn hp.one_le).symm h

/-- A witness fails Fermat's test for every odd composite below 10,000: the least prime factor itself where it is one of the
twelve, and otherwise one found by computation. -/
theorem exists_witness_of_not_prime {n : Nat} (h3 : 3 ≤ n) (odd : n % 2 = 1) (h : n < 10000) (composite : ¬ n.Prime) :
    ∃ a ∈ witnesses, a < n - 1 ∧ ¬ n.ProbablePrime a := by
  obtain ⟨p, hp, ⟨m, rfl⟩, hsq⟩ : ∃ p, p.Prime ∧ p ∣ n ∧ p ^ 2 ≤ n :=
    ⟨n.minFac, Nat.minFac_prime (by omega), n.minFac_dvd, Nat.minFac_sq_le_self (by omega) composite⟩
  have hpm : p ≤ m := Nat.le_of_mul_le_mul_left (by rwa [← pow_two]) hp.pos
  have hp100 : p < 100 := by nlinarith
  rcases mem_witnesses_or_beyond hp hp100 with witness | beyond
  · have h2p : 2 * p ≤ p * m := Nat.mul_le_mul hp.two_le hpm
    have := hp.two_le
    exact ⟨p, witness, by omega, not_probablePrime_of_dvd hp (by omega) (Nat.dvd_mul_right p m)⟩
  · have h41 : 41 ≤ p := (show ∀ p ∈ primesBeyondWitnesses, 41 ≤ p by decide) p beyond
    have hm : 41 * m ≤ p * m := Nat.mul_le_mul_right m h41
    obtain ⟨a, ha, fails⟩ := exists_witness_of_primesBeyondWitnesses p beyond m (by omega) hpm h
    have ha37 : a ≤ 37 := (show ∀ a ∈ witnesses, a ≤ 37 by decide) a ha
    exact ⟨a, ha, by omega, fails⟩

theorem mrTest_iff_prime_of_lt {n : Nat} (h : n < 10000) : mrTest n = true ↔ n.Prime := by
  refine ⟨fun passes => ?_, mrTest_of_prime⟩
  obtain rfl | ⟨h3, odd, passes⟩ := (mrTest_iff n).1 passes
  · exact Nat.prime_two
  · by_contra composite
    obtain ⟨a, ha, hlt, fails⟩ := exists_witness_of_not_prime h3 odd h composite
    have ha1 : 1 ≤ a := (show ∀ a ∈ witnesses, 1 ≤ a by decide) a ha
    exact fails (probablePrime_of_strongProbablePrime (by omega) ha1 (passes a ha hlt))

theorem prime_iff_trialDivision (n : Nat) : n.Prime ↔ 2 ≤ n ∧ ∀ d, 2 ≤ d → d * d ≤ n → ¬ d ∣ n := by
  simp only [Nat.prime_def_le_sqrt, Nat.le_sqrt]

/-- Settles O21: below 10,000 the answer is primality (`mrTest_iff_prime_of_lt`), and primality is trial division. -/
theorem mrtestAgreesWithTrialDivisionBelow10000 : Obligations.MrtestAgreesWithTrialDivisionBelow10000 := by
  intro s hl h
  exact ⟨mrTest s.opa, exec_mrtest hl, (mrTest_iff_prime_of_lt h).trans (prime_iff_trialDivision s.opa)⟩

end Sys2Proof.Machine
end

section
/-! The RSA cipher: RSAXF (42_rsa_cipher.md). -/

namespace Sys2Proof.Machine

/-! ### The range check and the power (42_rsa_cipher.md R170, R171) -/

theorem exec_rsaxf_of_le {s : State} (hl : s.legal = true) (h : s.mod ≤ s.opa) :
    exec .rsaxf s = .next (s.completeError .messageOutOfRange) := by
  rw [exec_of_legal hl, execBody, rsaTransform_of_le h]

theorem exec_rsaxf_of_lt {s : State} (hl : s.legal = true) (h : s.opa < s.mod) :
    exec .rsaxf s = .next (s.setRes (s.opa ^ s.opb % s.mod)).complete := by
  rw [exec_of_legal hl, execBody, rsaTransform_of_lt h, modExp_eq]

/-- Settles O24, by the two sides of the range check. -/
theorem rsaxfChecksTheRangeThenExponentiates : Obligations.RsaxfChecksTheRangeThenExponentiates :=
  ⟨rfl, fun _ hl => ⟨exec_rsaxf_of_le hl, exec_rsaxf_of_lt hl⟩⟩

/-! ### The exponents of a key pair undo each other (42_rsa_cipher.md R175) -/

/-- Fermat's little theorem for an exponent that is 1 modulo `p - 1`; it holds of the multiples of `p` too. -/
theorem pow_modEq_self_of_prime {p k : Nat} (hp : p.Prime) (hk : 1 ≤ k) (h : 1 ≡ k [MOD p - 1]) (m : Nat) :
    m ^ k ≡ m [MOD p] := by
  rw [← Int.natCast_modEq_iff, Nat.cast_pow]
  have hdvd : p - 1 ∣ k - 1 := (Nat.modEq_iff_dvd' hk).1 h
  simpa using Int.ModEq.pow_eq_pow hp hdvd hk Nat.one_pos m

theorem KeyPair.symm {p q e d n : Nat} (h : KeyPair p q e d n) : KeyPair p q d e n :=
  { h with inverse := mul_comm d e ▸ h.inverse }

/-- `p` and `q` are not both 2, so `λ(n)` is not 1 and the product of the exponents is not 0. -/
theorem KeyPair.one_le_mul {p q e d n : Nat} (h : KeyPair p q e d n) : 1 ≤ d * e := by
  refine Nat.one_le_iff_ne_zero.2 fun zero => h.distinct ?_
  have lcm_dvd_one : Nat.lcm (p - 1) (q - 1) ∣ 1 := Nat.modEq_zero_iff_dvd.1 (zero ▸ h.inverse).symm
  have hp : p - 1 = 1 := Nat.dvd_one.1 ((Nat.dvd_lcm_left _ _).trans lcm_dvd_one)
  have hq : q - 1 = 1 := Nat.dvd_one.1 ((Nat.dvd_lcm_right _ _).trans lcm_dvd_one)
  omega

/-- The power is the identity modulo each of the two primes, and so modulo their product. -/
theorem KeyPair.pow_mul_modEq {p q e d n : Nat} (h : KeyPair p q e d n) (m : Nat) : m ^ (d * e) ≡ m [MOD n] := by
  have coprime : Nat.Coprime p q := (Nat.coprime_primes h.primeP h.primeQ).2 h.distinct
  rw [h.modulus, ← Nat.modEq_and_modEq_iff_modEq_mul coprime]
  exact ⟨pow_modEq_self_of_prime h.primeP h.one_le_mul (h.inverse.of_dvd (Nat.dvd_lcm_left _ _)).symm m,
    pow_modEq_self_of_prime h.primeQ h.one_le_mul (h.inverse.of_dvd (Nat.dvd_lcm_right _ _)).symm m⟩

theorem KeyPair.pow_mod_pow_mod {p q e d n : Nat} (h : KeyPair p q e d n) {m : Nat} (hm : m < n) :
    (m ^ e % n) ^ d % n = m := by
  rw [← Nat.pow_mod, ← pow_mul, mul_comm e d, h.pow_mul_modEq m, Nat.mod_eq_of_lt hm]

/-- RSAXF on the result of an RSAXF with the other exponent writes the first operand back. -/
theorem exec_rsaxf_of_opa_eq_pow {p q e d n : Nat} (h : KeyPair p q e d n) {t : State} (hl : t.legal = true)
    (hmod : t.mod = n) {m : Nat} (hm : m < n) (hopa : t.opa = m ^ e % n) (hopb : t.opb = d) :
    exec .rsaxf t = .next (t.setRes m).complete := by
  have hlt : t.opa < t.mod := by rw [hopa, hmod]; exact Nat.mod_lt _ (by omega)
  rw [exec_rsaxf_of_lt hl hlt, hopa, hopb, hmod, h.pow_mod_pow_mod hm]

/-- Settles O26: the second RSAXF is `exec_rsaxf_of_opa_eq_pow`, for the key pair or for the one with its exponents
exchanged. -/
theorem rsaxfRoundTrip : Obligations.RsaxfRoundTrip := by
  intro p q e d n key s hl hmod hlt x y hxy hopb
  have keyXY : KeyPair p q x y n := by
    obtain ⟨rfl, rfl⟩ | ⟨rfl, rfl⟩ := hxy
    · exact key
    · exact key.symm
  have first : exec .rsaxf s = .next (s.setRes (s.opa ^ x % n)).complete := by
    rw [exec_rsaxf_of_lt hl (hmod ▸ hlt), hopb, hmod]
  refine ⟨_, first, rfl, exec_rsaxf_of_opa_eq_pow keyXY ?legal ?mod hlt rfl rfl⟩
  case legal => exact hl
  case mod => exact hmod

end Sys2Proof.Machine
end

section
/-! The setup checks of the PSS commands, and PSSDEC (44_pss.md). -/

namespace Sys2Proof.Machine

/-! ### The setup checks (44_pss.md R192) -/

theorem pssSetup_of_kLen_lt {h : HashSel} {s : State} (hk : s.kLen < 2 * hLen h + 9) :
    pssSetup h s = some .hashTooLong := if_pos hk

theorem pssSetup_of_msglen_gt {h : HashSel} {s : State} (hk : 2 * hLen h + 9 ≤ s.kLen)
    (hm : hashMaxIn h < s.msglen.toNat) : pssSetup h s = some .messageTooLong := by
  rw [pssSetup, if_neg (Nat.not_lt.2 hk), if_pos hm]

theorem pssSetup_of_pssFits {h : HashSel} {s : State} (hf : s.pssFits h) : pssSetup h s = none :=
  (pssSetup_eq_none_iff h s).2 hf

/-- STATUS.ERR reports neither of the two setup errors. -/
def State.PastSetup (t : State) : Prop :=
  t.status.err ≠ ErrorKind.hashTooLong.code ∧ t.status.err ≠ ErrorKind.messageTooLong.code

theorem State.pastSetup_of_err_eq_zero {t : State} (h : t.status.err = 0) : t.PastSetup := by
  rw [State.PastSetup, h]
  decide

theorem State.pastSetup_completeError {k : ErrorKind}
    (hk : k.code ≠ ErrorKind.hashTooLong.code ∧ k.code ≠ ErrorKind.messageTooLong.code) (s : State) :
    (s.completeError k).PastSetup := hk

theorem State.completeDecode_of_none {h : HashSel} {EM : List Byte} {s : State}
    (hd : pssDecode (hash h) (hLen h) s.kLen s.message EM = none) : s.completeDecode h EM = s.complete := by
  rw [State.completeDecode, hd]

theorem State.completeDecode_of_some {h : HashSel} {EM : List Byte} {s : State} {k : ErrorKind}
    (hd : pssDecode (hash h) (hLen h) s.kLen s.message EM = some k) : s.completeDecode h EM = s.completeError k := by
  rw [State.completeDecode, hd]

/-- The decoder's verdicts are not the setup errors. -/
theorem State.pastSetup_completeDecode {s : State} (he : s.status.err = 0) (h : HashSel) (EM : List Byte) :
    (s.completeDecode h EM).PastSetup := by
  rcases pssDecode_cases (hash h) (hLen h) s.kLen s.message EM with hd | hd | hd | hd | hd
  case inl => rw [State.completeDecode_of_none hd]; exact State.pastSetup_of_err_eq_zero he
  all_goals rw [State.completeDecode_of_some hd]; exact State.pastSetup_completeError (by decide) s

/-- What makes `i` a command of R192: its body stands behind the setup checks and reports neither of their errors. -/
structure PssCommand (h : HashSel) (i : Instr) (body : State → State) : Prop where
  execBody_eq : ∀ s : State, execBody i s = s.whenFits h body
  pastSetup : ∀ {s : State}, s.status.err = 0 → (body s).PastSetup

theorem pssCommand_pssenc (h : HashSel) :
    PssCommand h (.pssenc h) fun s => ((s.consumeDraws 1).putEm (s.encodeNext h)).complete where
  execBody_eq _ := rfl
  pastSetup he := State.pastSetup_of_err_eq_zero he

theorem pssCommand_pssdec (h : HashSel) : PssCommand h (.pssdec h) fun s => s.completeDecode h s.encoded where
  execBody_eq _ := rfl
  pastSetup he := State.pastSetup_completeDecode he h _

/-- The body of SIGN behind the setup checks (44_pss.md R201). -/
def State.signBody (h : HashSel) (s : State) : State :=
  match rsaTransform (os2ip (s.encodeNext h)) s.opb s.mod with
  | .error k => (s.consumeDraws 1).completeError k
  | .ok v => ((s.consumeDraws 1).setRes v).complete

theorem pssCommand_sign (h : HashSel) : PssCommand h (.sign h) (State.signBody h) where
  execBody_eq _ := rfl
  pastSetup {s} he := by
    rw [State.signBody]
    rcases Nat.lt_or_ge (os2ip (s.encodeNext h)) s.mod with below | above
    · rw [rsaTransform_of_lt below]
      exact State.pastSetup_of_err_eq_zero he
    · rw [rsaTransform_of_le above]
      exact State.pastSetup_completeError (by decide) _

/-- The body of VERIFY behind the setup checks (44_pss.md R213). -/
def State.verifyBody (h : HashSel) (s : State) : State :=
  match rsaTransform s.opa s.opb s.mod with
  | .error k => s.completeError k
  | .ok v => s.completeDecode h (i2osp v s.kLen)

theorem pssCommand_verify (h : HashSel) : PssCommand h (.verify h) (State.verifyBody h) where
  execBody_eq _ := rfl
  pastSetup {s} he := by
    rw [State.verifyBody]
    rcases Nat.lt_or_ge s.opa s.mod with below | above
    · rw [rsaTransform_of_lt below]
      exact State.pastSetup_completeDecode he h _
    · rw [rsaTransform_of_le above]
      exact State.pastSetup_completeError (by decide) s

theorem exists_pssCommand {h : HashSel} {i : Instr} (hi : i ∈ [Instr.pssenc h, .pssdec h, .sign h, .verify h]) :
    ∃ body, PssCommand h i body := by
  simp only [List.mem_cons, List.not_mem_nil, or_false] at hi
  obtain rfl | rfl | rfl | rfl := hi
  · exact ⟨_, pssCommand_pssenc h⟩
  · exact ⟨_, pssCommand_pssdec h⟩
  · exact ⟨_, pssCommand_sign h⟩
  · exact ⟨_, pssCommand_verify h⟩

theorem PssCommand.exec_of_pssSetup {h : HashSel} {i : Instr} {body : State → State} (hc : PssCommand h i body)
    {s : State} (hl : s.legal = true) {k : ErrorKind} (hs : pssSetup h s = some k) :
    exec i s = .next (s.completeError k) := by
  rw [exec_of_legal hl, hc.execBody_eq, State.whenFits_of_some hs]

theorem PssCommand.exec_of_pssFits {h : HashSel} {i : Instr} {body : State → State} (hc : PssCommand h i body)
    {s : State} (hl : s.legal = true) (hf : s.pssFits h) : exec i s = .next (body s) := by
  rw [exec_of_legal hl, hc.execBody_eq, State.whenFits_of_none (pssSetup_of_pssFits hf)]

/-- Settles O29: each of the four is a `PssCommand`, so a failed check ends it at once, and its body reports neither of
the setup errors. -/
theorem pssSetupChecks : Obligations.PssSetupChecks := by
  intro h i hi s hl
  obtain ⟨body, hc⟩ := exists_pssCommand hi
  refine ⟨fun hk => ?hashTooLong, fun hk hm => ?messageTooLong, fun hk hm he => ?passes⟩
  case hashTooLong => exact hc.exec_of_pssSetup hl (pssSetup_of_kLen_lt hk)
  case messageTooLong => exact hc.exec_of_pssSetup hl (pssSetup_of_msglen_gt hk hm)
  case passes => exact ⟨body s, hc.exec_of_pssFits hl ⟨hk, hm⟩, hc.pastSetup he⟩

/-! ### The four checks of the decoder, in order (44_pss.md R203, R205 to R211) -/

/-- The trailer check (44_pss.md R205). -/
def TrailerOk (kl : Nat) (EM : List Byte) : Prop := EM[kl - 1]?.getD 0 = 0xBC

/-- The leading-bit check (44_pss.md R206). -/
def LeadingBitOk (EM : List Byte) : Prop := EM[0]?.getD 0 &&& 0x80 = 0

/-- The padding check: zeros, then 0x01 (44_pss.md R209). -/
def PaddingOk (kl hl : Nat) (DB : List Byte) : Prop :=
  slice DB 0 (psLen kl hl) = zeros (psLen kl hl) ∧ DB[psLen kl hl]? = some 0x01

/-- The digest check: the digest over the recovered salt is the one in the encoding (44_pss.md R210, R211). -/
abbrev DigestOk (H : List Byte → List Byte) (hl kl : Nat) (M EM : List Byte) : Prop :=
  H (mPrime (H M) (slice (recoverDB H hl kl EM) (dbLen kl hl - hl) (dbLen kl hl))) =
    slice EM (dbLen kl hl) (dbLen kl hl + hl)

/-- The decoder reads a byte beyond DB as 0x00, which is not the 0x01 it looks for. -/
theorem not_paddingOk_iff (kl hl : Nat) (DB : List Byte) : ¬ PaddingOk kl hl DB ↔
    slice DB 0 (psLen kl hl) ≠ zeros (psLen kl hl) ∨ DB[psLen kl hl]?.getD 0 ≠ 0x01 := by
  have mark : DB[psLen kl hl]? = some 0x01 ↔ DB[psLen kl hl]?.getD 0 = 0x01 := by
    cases DB[psLen kl hl]? with
    | none => decide
    | some b => simp
  rw [PaddingOk, mark, not_and_or]

section
variable {H : List Byte → List Byte} {hl kl : Nat} {M EM : List Byte}

theorem pssDecode_of_not_trailerOk (h : ¬ TrailerOk kl EM) : pssDecode H hl kl M EM = some .invalidTrailer := if_pos h

theorem pssDecode_of_not_leadingBitOk (ht : TrailerOk kl EM) (h : ¬ LeadingBitOk EM) :
    pssDecode H hl kl M EM = some .invalidLeadingBit :=
  (if_neg (not_not.2 ht)).trans (if_pos h)

theorem pssDecode_of_not_paddingOk (ht : TrailerOk kl EM) (hb : LeadingBitOk EM)
    (h : ¬ PaddingOk kl hl (recoverDB H hl kl EM)) : pssDecode H hl kl M EM = some .invalidPadding :=
  (if_neg (not_not.2 ht)).trans ((if_neg (not_not.2 hb)).trans (if_pos ((not_paddingOk_iff _ _ _).1 h)))

/-- Past the padding only the digest decides. -/
theorem pssDecode_of_paddingOk (ht : TrailerOk kl EM) (hb : LeadingBitOk EM)
    (hp : PaddingOk kl hl (recoverDB H hl kl EM)) :
    pssDecode H hl kl M EM = if ¬ DigestOk H hl kl M EM then some .hashMismatch else none :=
  (if_neg (not_not.2 ht)).trans ((if_neg (not_not.2 hb)).trans (if_neg (mt (not_paddingOk_iff _ _ _).2 (not_not.2 hp))))

theorem pssDecode_of_not_digestOk (ht : TrailerOk kl EM) (hb : LeadingBitOk EM)
    (hp : PaddingOk kl hl (recoverDB H hl kl EM)) (h : ¬ DigestOk H hl kl M EM) :
    pssDecode H hl kl M EM = some .hashMismatch :=
  (pssDecode_of_paddingOk ht hb hp).trans (if_pos h)

theorem pssDecode_of_digestOk (ht : TrailerOk kl EM) (hb : LeadingBitOk EM)
    (hp : PaddingOk kl hl (recoverDB H hl kl EM)) (h : DigestOk H hl kl M EM) : pssDecode H hl kl M EM = none :=
  (pssDecode_of_paddingOk ht hb hp).trans (if_neg (not_not.2 h))

end

/-! ### PSSDEC (44_pss.md R212) -/

theorem decode_pssdec_word (h : HashSel) : decode (BitVec.ofNat 32 (0xA + 16 * h.code)) = .ok (.pssdec h) := by
  cases h <;> rfl

/-- The decoder's string is EM byte by byte. -/
theorem State.encoded_getD {s : State} {a : Nat} (ha : a < s.kLen) : s.encoded[a]?.getD 0 = s.em.read a := by
  rw [State.encoded, Memory.getElem?_readBytes, if_pos ha, Nat.zero_add, Option.getD_some]

theorem trailerOk_encoded_iff {s : State} (hk : 0 < s.kLen) :
    TrailerOk s.kLen s.encoded ↔ s.em.read (s.kLen - 1) = 0xBC := by
  rw [TrailerOk, State.encoded_getD (Nat.sub_lt hk Nat.one_pos)]

theorem leadingBitOk_encoded_iff {s : State} (hk : 0 < s.kLen) :
    LeadingBitOk s.encoded ↔ s.em.read 0 &&& 0x80 = 0 := by
  rw [LeadingBitOk, State.encoded_getD hk]

section
variable {h : HashSel} {s : State} (hl : s.legal = true) (hf : s.pssFits h)
include hl hf

theorem exec_pssdec_of_some {k : ErrorKind} (hd : pssDecode (hash h) (hLen h) s.kLen s.message s.encoded = some k) :
    exec (.pssdec h) s = .next (s.completeError k) := by
  rw [(pssCommand_pssdec h).exec_of_pssFits hl hf, State.completeDecode_of_some hd]

theorem exec_pssdec_of_none (hd : pssDecode (hash h) (hLen h) s.kLen s.message s.encoded = none) :
    exec (.pssdec h) s = .next s.complete := by
  rw [(pssCommand_pssdec h).exec_of_pssFits hl hf, State.completeDecode_of_none hd]

end

/-- Settles O32, by the decoder's equation for each check that fails first, and for none. -/
theorem pssdecReportsTheFirstFailedCheck : Obligations.PssdecReportsTheFirstFailedCheck := by
  refine ⟨decode_pssdec_word, fun h s hl hf => ?_⟩
  have hk : 0 < s.kLen := (Nat.succ_pos _).trans_le hf.1
  have trailer := trailerOk_encoded_iff hk
  have leadingBit := leadingBitOk_encoded_iff hk
  refine ⟨fun ht => ?invalidTrailer, fun ht hb => ?invalidLeadingBit, fun ht hb hp => ?invalidPadding,
    fun ht hb hp hd => ?hashMismatch, fun ht hb hp hd => ?valid⟩
  case invalidTrailer => exact exec_pssdec_of_some hl hf (pssDecode_of_not_trailerOk (mt trailer.1 ht))
  case invalidLeadingBit =>
    exact exec_pssdec_of_some hl hf (pssDecode_of_not_leadingBitOk (trailer.2 ht) (mt leadingBit.1 hb))
  case invalidPadding =>
    exact exec_pssdec_of_some hl hf (pssDecode_of_not_paddingOk (trailer.2 ht) (leadingBit.2 hb) hp)
  case hashMismatch =>
    exact exec_pssdec_of_some hl hf (pssDecode_of_not_digestOk (trailer.2 ht) (leadingBit.2 hb) hp hd)
  case valid => exact exec_pssdec_of_none hl hf (pssDecode_of_digestOk (trailer.2 ht) (leadingBit.2 hb) hp hd)

end Sys2Proof.Machine
end

section
/-! Command words: decoding and encoding are inverse, and the rows of the opcode map (30_encoding.md). -/

namespace Sys2Proof

/-! ### What the fields of an accepted word say (30_encoding.md R96, R102) -/

/-- The fields of `c` are those of the command `i` (30_encoding.md R96). -/
structure Cmd32.Carries (c : Cmd32) (i : Instr) : Prop where
  op : c.op.toNat = i.op
  hsel : c.hsel.toNat = i.hselField
  reg : c.reg.toNat = i.regField

section
variable {c : Cmd32} {i : Instr}

theorem Cmd32.plain_eq_ok {j : Instr} (h : c.plain j = .ok i) : j = i ∧ c.hsel.toNat = 0 ∧ c.reg.toNat = 0 := by
  unfold Cmd32.plain at h
  split at h
  · cases h
  · next hh =>
    split at h
    · cases h
    · next hr =>
      rw [not_not] at hh hr
      exact ⟨Except.ok.inj h, by rw [hh]; rfl, by rw [hr]; rfl⟩

theorem Cmd32.withHash_eq_ok {f : HashSel → Instr} (h : c.withHash f = .ok i) :
    f (HashSel.ofBits c.hsel) = i ∧ c.reg.toNat = 0 := by
  unfold Cmd32.withHash at h
  split at h
  · cases h
  · next hr =>
    rw [not_not] at hr
    exact ⟨Except.ok.inj h, by rw [hr]; rfl⟩

theorem Cmd32.withReg_eq_ok {f : BigReg → Instr} (h : c.withReg f = .ok i) :
    f (BigReg.ofBits c.reg) = i ∧ c.hsel.toNat = 0 := by
  unfold Cmd32.withReg at h
  split at h
  · cases h
  · next hh =>
    rw [not_not] at hh
    exact ⟨Except.ok.inj h, by rw [hh]; rfl⟩

/-- The selected command has the fields it was selected by. -/
theorem Cmd32.carries_of_select (h : c.select = .ok i) : c.Carries i := by
  unfold Cmd32.select at h
  split at h
  case h_1 | h_2 | h_3 | h_4 | h_5 | h_6 | h_7 =>
    next hop =>
    obtain ⟨rfl, hh, hr⟩ := Cmd32.plain_eq_ok h
    exact ⟨hop, hh, hr⟩
  case h_8 | h_9 | h_10 | h_11 | h_12 =>
    next hop =>
    obtain ⟨rfl, hr⟩ := Cmd32.withHash_eq_ok h
    exact ⟨hop, (HashSel.code_ofBits c.hsel).symm, hr⟩
  case h_13 | h_14 =>
    next hop =>
    obtain ⟨rfl, hh⟩ := Cmd32.withReg_eq_ok h
    exact ⟨hop, hh, (BigReg.code_ofBits c.reg).symm⟩
  case h_15 => cases h

end

theorem decode_of_reserved_ne {w : Word} (h : (Cmd32.ofWord w).reserved ≠ 0) : decode w = .error .reservedBits :=
  if_pos h

theorem decode_of_reserved_eq {w : Word} (h : (Cmd32.ofWord w).reserved = 0) : decode w = (Cmd32.ofWord w).select :=
  if_neg (not_not.2 h)

/-- A word that decodes has no reserved bit and the fields of its command. -/
theorem fields_of_decode {w : Word} {i : Instr} (h : decode w = .ok i) :
    (Cmd32.ofWord w).reserved = 0 ∧ (Cmd32.ofWord w).Carries i := by
  by_cases hres : (Cmd32.ofWord w).reserved = 0
  · rw [decode_of_reserved_eq hres] at h
    exact ⟨hres, Cmd32.carries_of_select h⟩
  · rw [decode_of_reserved_ne hres] at h
    cases h

/-! ### Decoding and encoding are inverse -/

@[simp] theorem decode_encode (i : Instr) : decode (encode i) = .ok i := by
  cases i with
  | mgf1 h | pssenc h | pssdec h | sign h | verify h => cases h <;> rfl
  | importReg r | exportReg r => cases r <;> rfl
  | modadd | modsub | modmul | modexp | mrtest | mrtestr | rsaxf => rfl

/-- The fields of a word make it up, so a word that decodes to `i` is the word of `i`. -/
theorem encode_of_decode {w : Word} {i : Instr} (h : decode w = .ok i) : encode i = w := by
  obtain ⟨hres, hop, hhsel, hreg⟩ := fields_of_decode h
  apply BitVec.eq_of_toNat_eq
  rw [encode_toNat, Cmd32.word_toNat w, hop, hhsel, hreg, hres]
  rfl

/-- Settles O2: `decode_encode` one way, and the other way a word is the sum of its fields (`encode_of_decode`). -/
theorem decodeIsInverseOfEncode : Obligations.DecodeIsInverseOfEncode := by
  intro w i
  exact ⟨encode_of_decode, fun h => h ▸ decode_encode i⟩

/-- Settles O1: each word the spec writes out, by evaluation of the decoder. -/
theorem specWordsDecode : Obligations.SpecWordsDecode :=
  ⟨rfl, rfl, rfl, rfl, rfl, rfl, rfl, rfl, rfl, rfl, rfl, rfl⟩

/-! ### The rows of the opcode map (30_encoding.md R96, R97) -/

/-- The word of a command selects its row and no other. -/
theorem selects_encode (i : Instr) : ∃ row, opcodeRows.filter (fun r => r.selects (encode i)) = [row] := by
  cases i with
  | mgf1 h | pssenc h | pssdec h | sign h | verify h => cases h <;> exact ⟨_, rfl⟩
  | importReg r | exportReg r => cases r <;> exact ⟨_, rfl⟩
  | modadd | modsub | modmul | modexp | mrtest | mrtestr | rsaxf => exact ⟨_, rfl⟩

/-- A word without a bit of 31:8 is below 256. -/
theorem toNat_lt_of_and_eq_zero {w : Word} (h : w &&& 0xFFFFFF00 = 0) : w.toNat < 256 := by
  have low : w = w &&& 0xFF := by
    calc w = w &&& (0xFFFFFF00 ||| 0xFF) := (BitVec.and_allOnes (x := w)).symm
      _ = 0 ||| (w &&& 0xFF) := by rw [BitVec.and_or_distrib_left, h]
      _ = w &&& 0xFF := BitVec.zero_or
  rw [low, BitVec.toNat_and]
  exact Nat.lt_succ_of_le Nat.and_le_right

/-- Each row checks bits 31:8 and wants them 0. -/
theorem toNat_lt_of_selects {row : OpcodeRow} (hrow : row ∈ opcodeRows) {w : Word} (h : row.selects w = true) :
    w.toNat < 256 := by
  have checksHigh : ∀ row ∈ opcodeRows, row.mask &&& 0xFFFFFF00 = 0xFFFFFF00 ∧ row.pattern &&& 0xFFFFFF00 = 0 := by
    decide
  obtain ⟨hmask, hpattern⟩ := checksHigh row hrow
  have hsel : w &&& row.mask = row.pattern := eq_of_beq h
  apply toNat_lt_of_and_eq_zero
  rw [← hmask, ← BitVec.and_assoc, hsel, hpattern]

/-- Among the words below 256 a row selects only words that decode. -/
theorem decode_isOk_of_selects : ∀ n < 256, ∀ row ∈ opcodeRows, row.selects (BitVec.ofNat 32 n) = true →
    (decode (BitVec.ofNat 32 n)).isOk = true := by
  decide +kernel

/-- Settles O3: a word that decodes is a command's word, and `selects_encode` runs through those; a word that a row
selects is below 256 and decodes. -/
theorem decodeAcceptsExactlyTheOpcodeRows : Obligations.DecodeAcceptsExactlyTheOpcodeRows := by
  refine fun w => ⟨fun i hi => ?accepted, fun e he => ?refused⟩
  case accepted => rw [← encode_of_decode hi]; exact selects_encode i
  case refused =>
    refine List.filter_eq_nil_iff.2 fun row hrow hsel => ?_
    have hlt := toNat_lt_of_selects hrow hsel
    have hok := decode_isOk_of_selects w.toNat hlt row hrow (by rwa [BitVec.ofNat_toNat, BitVec.setWidth_eq])
    rw [BitVec.ofNat_toNat, BitVec.setWidth_eq, he] at hok
    cases hok

/-! ### The illegal words (30_encoding.md R97) -/

theorem toNat_ne_zero {n : Nat} {b : BitVec n} (h : b ≠ 0) : b.toNat ≠ 0 := fun e =>
  h (BitVec.eq_of_toNat_eq (by simpa using e))

section
variable (c : Cmd32)

theorem Cmd32.plain_refuses_iff (i : Instr) :
    (∃ e, c.plain i = .error e) ↔ c.hsel.toNat ≠ 0 ∨ c.reg.toNat ≠ 0 := by
  unfold Cmd32.plain
  split_ifs with hh hr
  · exact iff_of_true ⟨_, rfl⟩ (.inl (toNat_ne_zero hh))
  · exact iff_of_true ⟨_, rfl⟩ (.inr (toNat_ne_zero hr))
  · rw [not_not] at hh hr
    exact iff_of_false nofun (by rw [hh, hr]; decide)

theorem Cmd32.withHash_refuses_iff (f : HashSel → Instr) : (∃ e, c.withHash f = .error e) ↔ c.reg.toNat ≠ 0 := by
  unfold Cmd32.withHash
  split_ifs with hr
  · exact iff_of_true ⟨_, rfl⟩ (toNat_ne_zero hr)
  · rw [not_not] at hr
    exact iff_of_false nofun (by rw [hr]; decide)

theorem Cmd32.withReg_refuses_iff (f : BigReg → Instr) : (∃ e, c.withReg f = .error e) ↔ c.hsel.toNat ≠ 0 := by
  unfold Cmd32.withReg
  split_ifs with hh
  · exact iff_of_true ⟨_, rfl⟩ (toNat_ne_zero hh)
  · rw [not_not] at hh
    exact iff_of_false nofun (by rw [hh]; decide)

/-- The fields below bit 8 that make no command. -/
theorem Cmd32.select_refuses_iff : (∃ e, c.select = .error e) ↔
    c.op.toNat = 0x0 ∨ c.op.toNat = 0xF ∨
    (c.hsel.toNat ≠ 0 ∧ ((0x1 ≤ c.op.toNat ∧ c.op.toNat ≤ 0x7) ∨ c.op.toNat = 0xD ∨ c.op.toNat = 0xE)) ∨
    (c.reg.toNat ≠ 0 ∧ 0x1 ≤ c.op.toNat ∧ c.op.toNat ≤ 0xC) := by
  have hlt := c.op.isLt
  unfold Cmd32.select
  split
  case h_1 | h_2 | h_3 | h_4 | h_5 | h_6 | h_7 => rw [Cmd32.plain_refuses_iff]; omega
  case h_8 | h_9 | h_10 | h_11 | h_12 => rw [Cmd32.withHash_refuses_iff]; omega
  case h_13 | h_14 => rw [Cmd32.withReg_refuses_iff]; omega
  case h_15 =>
    simp only [imp_false] at *
    exact iff_of_true ⟨_, rfl⟩ (by omega)

end

theorem decode_refuses_iff (w : Word) : (∃ e, decode w = .error e) ↔
    w.toNat % 16 = 0x0 ∨ w.toNat % 16 = 0xF ∨ w.toNat / 256 ≠ 0 ∨
    (w.toNat / 16 % 4 ≠ 0 ∧ ((0x1 ≤ w.toNat % 16 ∧ w.toNat % 16 ≤ 0x7) ∨ w.toNat % 16 = 0xD ∨ w.toNat % 16 = 0xE)) ∨
    (w.toNat / 64 % 4 ≠ 0 ∧ 0x1 ≤ w.toNat % 16 ∧ w.toNat % 16 ≤ 0xC) := by
  have hres : (Cmd32.ofWord w).reserved = 0 ↔ w.toNat / 256 = 0 := by
    rw [← BitVec.toNat_inj, Cmd32.ofWord_reserved_toNat]; rfl
  by_cases h : (Cmd32.ofWord w).reserved = 0
  · rw [decode_of_reserved_eq h, Cmd32.select_refuses_iff, Cmd32.ofWord_op_toNat, Cmd32.ofWord_hsel_toNat,
      Cmd32.ofWord_reg_toNat, hres.1 h]
    simp only [ne_eq, not_true_eq_false, false_or]
  · rw [decode_of_reserved_ne h]
    exact iff_of_true ⟨_, rfl⟩ (.inr (.inr (.inl (mt hres.2 h))))

end Sys2Proof
end

section
/-! The invariant of the block's state: it holds after reset and every step keeps it (10_state.md R39). -/

namespace Sys2Proof.Machine

/-! ### STATUS -/

@[simp] theorem Status.coherent_running : Status.running.coherent = true := by decide

/-- A coherent STATUS with BUSY = 1 holds nothing else (20_memory.md R70). -/
theorem Status.eq_running_of_busy {t : Status} (h : t.coherent = true) (hb : t.busy = true) : t = Status.running := by
  obtain ⟨busy, done, fatal, prime, err⟩ := t
  obtain rfl : busy = true := hb
  simp only [Status.coherent, Bool.true_or, if_true, Bool.true_and, Bool.and_eq_true, Bool.not_eq_true',
    beq_iff_eq] at h
  obtain ⟨⟨⟨⟨-, ⟨rfl, rfl⟩, rfl⟩, rfl⟩, -⟩, -⟩ := h
  rfl

/-! Each event that ends a running command leaves a coherent STATUS. -/

theorem Status.coherent_complete_running : Status.running.complete.coherent = true := by decide

theorem Status.coherent_completePrime_running (p : Bool) : (Status.running.withPrime p).complete.coherent = true := by
  cases p <;> decide

theorem Status.coherent_completeError_running (k : ErrorKind) : (Status.running.completeError k).coherent = true := by
  cases k <;> decide

theorem Status.coherent_halt_running : Status.running.halt.coherent = true := by decide

/-- An issue outside the fatal halt leaves the STATUS of a running command (20_memory.md R70). -/
theorem Status.issue_eq_running {t : Status} (h : t.fatal = false) : t.issue = Status.running := by
  rw [Status.issue, h]; rfl

/-- The completion event and the write of a register commute. -/
theorem State.complete_setBig_comm (s : State) (r : BigReg) (v : Nat) :
    (s.setBig r v).complete = s.complete.setBig r v := by
  cases r <;> rfl

/-! ### What each update needs to keep the invariant -/

section
variable {s : State} (h : s.Inv)
include h

/-- The invariant does not look at CMD, the round and length registers, and the model's own fields. -/
theorem State.Inv.of_same {t : State}
    (e : t = { s with cmd := t.cmd, mrRounds := t.mrRounds, msglen := t.msglen, outlen := t.outlen,
                      schedule := t.schedule, draws := t.draws, drawPos := t.drawPos, freePos := t.freePos,
                      readData := t.readData }) : t.Inv := by
  rw [e]; exact { h with }

theorem State.Inv.withStatus {st : Status} (hst : st.coherent = true) : State.Inv { s with status := st } :=
  { h with statusCoherent := hst }

theorem State.Inv.setBig (hl : s.legal = true) (r : BigReg) {v : Nat} (hv : v < 2 ^ s.keySize) :
    (s.setBig r v).Inv where
  bigBelow r' _ := by
    rw [State.getBig_setBig, State.setBig_keySize]
    split
    · exact hv
    · exact h.bigBelow r' hl
  bigZero r' hl' := by rw [State.setBig_legal, hl] at hl'; cases hl'
  msgWf := by rw [State.setBig_msg]; exact h.msgWf
  msgBelow := by rw [State.setBig_msg]; exact h.msgBelow
  emWf := by rw [State.setBig_em]; exact h.emWf
  emBelow := by rw [State.setBig_em, State.setBig_legal, State.setBig_kLen]; exact h.emBelow
  outWf := by rw [State.setBig_out]; exact h.outWf
  outBelow := by rw [State.setBig_out]; exact h.outBelow
  statusCoherent := by rw [State.setBig_status]; exact h.statusCoherent

theorem State.Inv.setKeybits (v : Word) : (s.setKeybits v).Inv :=
  { h with
    bigBelow := fun r _ => by cases r <;> exact Nat.two_pow_pos _
    bigZero := fun r _ => by cases r <;> rfl
    emWf := rfl
    emBelow := rfl }

theorem State.Inv.setMsgByte {a : Nat} (ha : a < 2 ^ 64) (b : Byte) : (s.setMsgByte a b).Inv :=
  { h with
    msgWf := Memory.wf_write h.msgWf a b
    msgBelow := Memory.below_write h.msgBelow ha b }

/-- On a legal KEYBITS the bytes of EM are those below kLen. -/
theorem State.Inv.emBelow_kLen (hl : s.legal = true) : s.em.below s.kLen = true := by
  have := h.emBelow
  rwa [if_pos hl] at this

theorem State.Inv.withEm (hl : s.legal = true) {m : Memory} (hwf : m.wf = true) (hm : m.below s.kLen = true) :
    State.Inv { s with em := m } :=
  { h with
    emWf := hwf
    emBelow := by rw [if_pos (show State.legal { s with em := m } = true from hl)]; exact hm }

theorem State.Inv.putEm (hl : s.legal = true) {X : List Byte} (hX : X.length = s.kLen) : (s.putEm X).Inv :=
  h.withEm hl (Memory.wf_writeBytes h.emWf 0 X) (Memory.below_writeBytes (h.emBelow_kLen hl) (by omega))

theorem State.Inv.putOut {X : List Byte} (hX : X.length = s.outlen.toNat) : (s.putOut X).Inv :=
  { h with
    outWf := Memory.wf_writeBytes h.outWf 0 X
    outBelow := Memory.below_writeBytes h.outBelow (by have := s.outlen.isLt; omega) }

/-! ### The moves of a step -/

/-- A command that has written its output completes in the invariant. Between the output and the completion STATUS need
not be coherent, so each case completes first and writes its output then. -/
theorem State.Inv.complete_output (hrun : s.status = Status.running) (hl : s.legal = true) {i : Instr} {u : State}
    (out : Output s i u) : u.complete.Inv := by
  have done : State.Inv s.complete := h.withStatus (by rw [hrun]; exact Status.coherent_complete_running)
  have answered (p : Bool) : State.Inv (s.setPrime p).complete :=
    h.withStatus (by rw [State.setPrime_status, hrun]; exact Status.coherent_completePrime_running p)
  have mod_lt : s.mod < 2 ^ s.keySize := h.bigBelow .mod hl
  cases out with
  | res i v _ below => exact done.setBig hl .res (below.trans mod_lt)
  | sign h v below =>
    exact (done.setBig hl .res (below.trans mod_lt)).of_same rfl
  | mrtest p => exact answered p
  | mrtestr p k => exact (answered p).of_same rfl
  | mgf1 h X len => exact done.putOut len
  | exportReg r X len => exact done.putOut len
  | pssenc h X len => exact (done.putEm hl len).of_same rfl
  | pssdec h => exact done
  | verify h => exact done
  | importReg r v below => rw [State.complete_setBig_comm]; exact done.setBig hl r below

/-- The completion of a running command keeps the invariant. -/
theorem State.Inv.exec (hb : s.status.busy = true) {i : Instr} {t : State} (ht : exec i s = .next t) : t.Inv := by
  have hrun := Status.eq_running_of_busy h.statusCoherent hb
  have failed (k : ErrorKind) : State.Inv (s.completeError k) :=
    h.withStatus (by rw [hrun]; exact Status.coherent_completeError_running k)
  rcases exec_ending ht with ⟨_, rfl⟩ | ⟨hl, ending⟩
  · exact failed _
  · cases ending with
    | error k => exact failed k
    | signError => exact (failed _).of_same rfl
    | halt => exact h.withStatus (by rw [hrun]; exact Status.coherent_halt_running)
    | done u out => exact h.complete_output hrun hl out

theorem State.Inv.completeWord (hb : s.status.busy = true) {t : State} (ht : completeWord s = .next t) : t.Inv := by
  cases hd : decode s.cmd with
  | ok i => rw [completeWord_of_ok hd] at ht; exact h.exec hb ht
  | error e =>
    rw [completeWord_of_error hd] at ht
    obtain rfl := Host.Outcome.next.inj ht
    have hrun := Status.eq_running_of_busy h.statusCoherent hb
    exact h.withStatus (by rw [hrun]; exact Status.coherent_completeError_running _)

theorem State.Inv.readStep (index : Nat) (offset : DWord) : (readStep index offset s).Inv := by
  obtain ⟨v, n, e⟩ := readStep_eq index offset s
  rw [e]; exact h.of_same rfl

end

/-- The state after reset meets the invariant: KEYBITS is 0 there, which is not legal. -/
theorem inv_reset : State.reset.Inv where
  bigBelow r hl := by cases hl
  bigZero r _ := by cases r <;> rfl
  msgWf := rfl
  msgBelow := rfl
  emWf := rfl
  emBelow := rfl
  outWf := rfl
  outBelow := rfl
  statusCoherent := by decide

theorem State.inv_resetEvent (s : State) : s.resetEvent.Inv := by
  obtain ⟨k, n, e, -⟩ := s.resetEvent_eq
  rw [e]; exact inv_reset.of_same rfl

/-- A value that fits a big-integer register of a legal block is below `2 ^ K`. -/
theorem Port.lt_of_fits_big {r : BigReg} {v : Nat} {s : State} (hl : s.legal = true)
    (hf : (Port.big r).fits v s = true) : v < 2 ^ s.keySize := by
  simpa [Port.fits, Port.width, hl] using hf

/-- A host write of a value that fits keeps the invariant, row by row. -/
theorem State.Inv.hostWrite {s : State} (h : s.Inv) {p : Port} {v : Nat} (hf : p.fits v s = true) (offset : DWord) :
    (hostWrite p offset v s).Inv := by
  have effect := hostWrite_effect p offset v s
  generalize Sys2Proof.Machine.hostWrite p offset v s = t at effect ⊢
  cases effect with
  | ignored => exact h
  | reset => exact s.inv_resetEvent
  | issued _ live =>
    have running : State.Inv { s with status := s.status.issue } :=
      h.withStatus (by rw [Status.issue_eq_running live]; exact Status.coherent_running)
    exact running.of_same rfl
  | keybits => exact h.setKeybits _
  | mrRounds | msglen | outlen => exact h.of_same rfl
  | big _ r _ legal => exact h.setBig legal r (Port.lt_of_fits_big legal hf)
  | msg _ a => exact h.setMsgByte a.isLt _
  | em _ a legal inside =>
    exact h.withEm legal (Memory.wf_write h.emWf _ _) (Memory.below_write (h.emBelow_kLen legal) inside _)

/-- Settles O57. -/
theorem resetMeetsTheInvariant : Obligations.ResetMeetsTheInvariant := inv_reset

/-- Settles O58, by the cases of a step (`step_cases`): each kind of move keeps the invariant. -/
theorem stepKeepsTheInvariant : Obligations.StepKeepsTheInvariant := by
  intro s t h hstep
  obtain ⟨rest, -, move⟩ := step_cases hstep
  have h' : State.Inv { s with schedule := rest } := h.of_same rfl
  rcases move with ⟨-, rfl⟩ | ⟨hb, hc⟩ | ⟨index, offset, -, rfl⟩ | ⟨index, offset, v, -, hf, rfl⟩ | ⟨-, rfl⟩
  · exact h'
  · exact h'.completeWord hb hc
  · exact h'.readStep index offset
  · exact h'.hostWrite hf offset
  · exact State.inv_resetEvent _

end Sys2Proof.Machine
end

section
/-! What every command keeps, how it ends, and what it draws (30_encoding.md R95, 60_exceptions.md R250 to R253,
10_state.md R35, R36). -/

namespace Sys2Proof.Machine

/-! ### What a command leaves unchanged (20_memory.md R61) -/

/-- Outside STATUS a command leaves the state with its output written, the state as it was, or (SIGN out of range) the
state after one draw. -/
theorem exec_written {i : Instr} {s t : State} (h : exec i s = .next t) :
    ∃ u, t = { u with status := t.status } ∧ (u = s ∨ u = s.consumeDraws 1 ∨ Output s i u) := by
  rcases exec_ending h with ⟨-, rfl⟩ | ⟨-, ending⟩
  · exact ⟨s, rfl, .inl rfl⟩
  · cases ending with
    | error | halt => exact ⟨s, rfl, .inl rfl⟩
    | signError => exact ⟨_, rfl, .inr (.inl rfl)⟩
    | done u out => exact ⟨u, rfl, .inr (.inr out)⟩

section
variable {s u : State} {i : Instr} (written : Output s i u)
include written

theorem Output.outside : u.cmd = s.cmd ∧ u.keybits = s.keybits ∧ u.mrRounds = s.mrRounds ∧ u.msglen = s.msglen ∧
    u.outlen = s.outlen ∧ u.msg = s.msg ∧ u.schedule = s.schedule ∧ u.freePos = s.freePos ∧
    u.readData = s.readData := by
  cases written with
  | importReg r v => simp
  | _ => exact ⟨rfl, rfl, rfl, rfl, rfl, rfl, rfl, rfl, rfl⟩

theorem Output.getBig {r : BigReg} (hr : writtenReg i ≠ some r) : u.getBig r = s.getBig r := by
  cases written with
  | res i v arith =>
    have toRes : writtenReg i = some .res := (show ∀ j ∈ [Instr.modadd, .modsub, .modmul, .modexp, .rsaxf],
      writtenReg j = some .res by decide) i arith
    cases r with
    | res => exact absurd toRes hr
    | opa | opb | mod => rfl
  | sign h v =>
    cases r with
    | res => exact absurd rfl hr
    | opa | opb | mod => rfl
  | importReg r' v => rw [State.getBig_setBig, if_neg fun e => hr (congrArg some e.symm)]
  | _ => cases r <;> rfl

theorem Output.em : u.em = s.em ∨ (∃ h, i = .pssenc h) ∧ ∃ X, X.length = s.kLen ∧ u.em = s.em.writeBytes 0 X := by
  cases written with
  | pssenc h X len => exact .inr ⟨⟨h, rfl⟩, X, len, rfl⟩
  | importReg r v => exact .inl (State.setBig_em s r v)
  | _ => exact .inl rfl

theorem Output.out : u.out = s.out ∨
    ((∃ h, i = .mgf1 h) ∨ ∃ r, i = .exportReg r) ∧ ∃ X, X.length = s.outlen.toNat ∧ u.out = s.out.writeBytes 0 X := by
  cases written with
  | mgf1 h X len => exact .inr ⟨.inl ⟨h, rfl⟩, X, len, rfl⟩
  | exportReg r X len => exact .inr ⟨.inr ⟨r, rfl⟩, X, len, rfl⟩
  | importReg r v => exact .inl (State.setBig_out s r v)
  | _ => exact .inl rfl

/-- Before the completion event only the primality tests have written STATUS. -/
theorem Output.status : u.status = s.status ∨ (i = .mrtest ∨ i = .mrtestr) ∧ ∃ p, u.status = s.status.withPrime p := by
  cases written with
  | mrtest p => exact .inr ⟨.inl rfl, p, rfl⟩
  | mrtestr p k => exact .inr ⟨.inr rfl, p, rfl⟩
  | importReg r v => exact .inl (State.setBig_status s r v)
  | _ => exact .inl rfl

theorem Output.err : u.status.err = s.status.err := by
  rcases written.status with e | ⟨-, p, e⟩
  · rw [e]
  · rw [e]; rfl

theorem Output.fatal : u.status.fatal = s.status.fatal := by
  rcases written.status with e | ⟨-, p, e⟩
  · rw [e]
  · rw [e]; rfl

end

section
variable {s t : State} {i : Instr} (h : exec i s = .next t)
include h

theorem exec_outside : t.cmd = s.cmd ∧ t.keybits = s.keybits ∧ t.mrRounds = s.mrRounds ∧ t.msglen = s.msglen ∧
    t.outlen = s.outlen ∧ t.msg = s.msg ∧ t.schedule = s.schedule ∧ t.freePos = s.freePos ∧
    t.readData = s.readData := by
  obtain ⟨u, e, rfl | rfl | out⟩ := exec_written h
  case inr.inr => rw [e]; exact out.outside
  all_goals rw [e]; exact ⟨rfl, rfl, rfl, rfl, rfl, rfl, rfl, rfl, rfl⟩

theorem exec_getBig {r : BigReg} (hr : writtenReg i ≠ some r) : t.getBig r = s.getBig r := by
  obtain ⟨u, e, rfl | rfl | out⟩ := exec_written h
  case inr.inr => rw [← out.getBig hr, e]; cases r <;> rfl
  all_goals rw [e]; cases r <;> rfl

theorem exec_em : t.em = s.em ∨ (∃ h, i = .pssenc h) ∧ ∃ X, X.length = s.kLen ∧ t.em = s.em.writeBytes 0 X := by
  obtain ⟨u, e, rfl | rfl | out⟩ := exec_written h
  case inr.inr => rw [e]; exact out.em
  all_goals rw [e]; exact .inl rfl

theorem exec_out : t.out = s.out ∨
    ((∃ h, i = .mgf1 h) ∨ ∃ r, i = .exportReg r) ∧ ∃ X, X.length = s.outlen.toNat ∧ t.out = s.out.writeBytes 0 X := by
  obtain ⟨u, e, rfl | rfl | out⟩ := exec_written h
  case inr.inr => rw [e]; exact out.out
  all_goals rw [e]; exact .inl rfl

theorem exec_prime (h₁ : i ≠ .mrtest) (h₂ : i ≠ .mrtestr) : t.status.prime = s.status.prime := by
  rcases exec_ending h with ⟨-, rfl⟩ | ⟨-, ending⟩
  · rfl
  · cases ending with
    | error | signError | halt => rfl
    | done u out =>
      rcases out.status with e | ⟨test, -⟩
      · rw [State.complete_status, e]; rfl
      · exact absurd test (not_or.2 ⟨h₁, h₂⟩)

end

/-- Settles O40: the registers, buffers and PRIME each by the lemma above; a byte beyond the stored ones is
`Memory.read_writeBytes_of_length_le`. -/
theorem commandsWriteOnlyTheirOutputs : Obligations.CommandsWriteOnlyTheirOutputs := by
  intro i s t h
  obtain ⟨hcmd, hkeybits, hrounds, hmsglen, houtlen, hmsg, hschedule, hfree, hread⟩ := exec_outside h
  refine ⟨hcmd, hkeybits, hrounds, hmsglen, houtlen, hmsg, hschedule, hfree, hread, fun r hr => exec_getBig h hr,
    fun hi a => ?em, fun hi₁ hi₂ a => ?out, fun hwf a ha => ?emBeyond, fun hwf a ha => ?outBeyond, exec_prime h⟩
  case em =>
    rcases exec_em h with e | ⟨⟨g, hg⟩, -⟩
    · rw [e]
    · exact absurd hg (hi g)
  case out =>
    rcases exec_out h with e | ⟨⟨g, hg⟩ | ⟨r, hr⟩, -⟩
    · rw [e]
    · exact absurd hg (hi₁ g)
    · exact absurd hr (hi₂ r)
  case emBeyond =>
    rcases exec_em h with e | ⟨-, X, hX, e⟩
    · rw [e]
    · rw [e]; exact Memory.read_writeBytes_of_length_le hwf (hX ▸ ha)
  case outBeyond =>
    rcases exec_out h with e | ⟨-, X, hX, e⟩
    · rw [e]
    · rw [e]; exact Memory.read_writeBytes_of_length_le hwf (hX ▸ ha)

/-! ### The three outcomes and the errors (60_exceptions.md R250 to R253) -/

theorem ErrorKind.code_ne_zero (k : ErrorKind) : k.code ≠ 0 := by cases k <;> decide

/-- Settles O41, by the ways a command ends (`exec_ending`). -/
theorem commandsEndInExactlyOneOutcome : Obligations.CommandsEndInExactlyOneOutcome := by
  intro i s hrun
  have h := exec_eq i s
  generalize (if s.legal then execBody i s else s.completeError .badConfig) = t at h
  refine ⟨t, h, exec_busy h, ?_⟩
  rcases exec_ending h with ⟨-, rfl⟩ | ⟨-, ending⟩
  · exact .inr (.inl ⟨_, ErrorKind.code_ne_zero .badConfig, by rw [State.completeError, hrun]; rfl⟩)
  · cases ending with
    | error k => exact .inr (.inl ⟨_, k.code_ne_zero, by rw [State.completeError, hrun]; rfl⟩)
    | signError =>
      exact .inr (.inl ⟨_, ErrorKind.code_ne_zero .messageOutOfRange, by
        rw [State.completeError, State.consumeDraws_status, hrun]; rfl⟩)
    | halt arith zero => exact .inr (.inr ⟨by rw [State.halt, hrun]; rfl, zero, arith⟩)
    | done u out => exact .inl ⟨rfl, by rw [State.complete_status, Status.complete_err, out.err, hrun]; rfl,
        by rw [State.complete_status, Status.complete_fatal, out.fatal, hrun]; rfl⟩

/-- How a command that ends with an error has ended. -/
theorem exec_error_cases {i : Instr} {s t : State} (hs : s.status.err = 0) (h : exec i s = .next t)
    (ht : t.status.err ≠ 0) :
    (s.legal = false ∧ t = s.completeError .badConfig) ∨ (s.legal = true ∧ ∃ k ∈ mayRaise i, t = s.completeError k) ∨
    (s.legal = true ∧ ∃ h, i = .sign h ∧ t = (s.consumeDraws 1).completeError .messageOutOfRange) := by
  rcases exec_ending h with ⟨hl, e⟩ | ⟨hl, ending⟩
  · exact .inl ⟨hl, e⟩
  · cases ending with
    | error k mem => exact .inr (.inl ⟨hl, k, mem, rfl⟩)
    | signError g sign => exact .inr (.inr ⟨hl, g, sign, rfl⟩)
    | halt => exact absurd hs ht
    | done u out => exact absurd (out.err.trans hs) ht

/-- Settles O42: each error completion of `exec_error_cases` is the state with STATUS written. -/
theorem errorsWriteNothingButStatus : Obligations.ErrorsWriteNothingButStatus := by
  intro i s t hs h ht
  rcases exec_error_cases hs h ht with ⟨-, rfl⟩ | ⟨-, k, -, rfl⟩ | ⟨-, g, rfl, rfl⟩
  · exact .inl rfl
  · exact .inl rfl
  · exact .inr ⟨⟨g, rfl⟩, rfl, rfl⟩

/-- Settles O43: the table of codes by evaluation, and the errors by `exec_error_cases`. -/
theorem commandsRaiseOnlyTheirErrors : Obligations.CommandsRaiseOnlyTheirErrors := by
  refine ⟨rfl, fun i s t hs h => or_iff_not_imp_left.2 fun ht => ?_⟩
  rcases exec_error_cases hs h ht with ⟨hl, rfl⟩ | ⟨hl, k, mem, rfl⟩ | ⟨hl, g, rfl, rfl⟩
  · exact .inl ⟨hl, rfl⟩
  · exact .inr ⟨hl, k, mem, rfl⟩
  · exact .inr ⟨hl, .messageOutOfRange, by simp [mayRaise], rfl⟩

/-! ### Draws (10_state.md R36) -/

/-- From `s` to `t` exactly `k` draws were consumed. -/
structure State.Drew (s : State) (k : Nat) (t : State) : Prop where
  drawPos : t.drawPos = s.drawPos + k
  draws : t.draws = s.draws.drop k

theorem Output.drew {s u : State} {i : Instr} (out : Output s i u) : ∃ k, k ≤ mostDraws i s ∧ s.Drew k u := by
  cases out with
  | sign h v => exact ⟨1, le_rfl, rfl, rfl⟩
  | pssenc h X => exact ⟨1, le_rfl, rfl, rfl⟩
  | mrtestr p k rounds => exact ⟨k, rounds, rfl, rfl⟩
  | importReg r v => exact ⟨0, le_rfl, State.setBig_drawPos s r v, State.setBig_draws s r v⟩
  | _ => exact ⟨0, Nat.zero_le _, rfl, rfl⟩

/-- No command consumes more draws than `mostDraws`. -/
theorem exec_drew_le {i : Instr} {s t : State} (h : exec i s = .next t) : ∃ k, k ≤ mostDraws i s ∧ s.Drew k t := by
  rcases exec_ending h with ⟨-, rfl⟩ | ⟨-, ending⟩
  · exact ⟨0, Nat.zero_le _, rfl, rfl⟩
  · cases ending with
    | error | halt => exact ⟨0, Nat.zero_le _, rfl, rfl⟩
    | signError g sign => subst sign; exact ⟨1, le_rfl, rfl, rfl⟩
    | done u out =>
      obtain ⟨k, hk, pos, draws⟩ := out.drew
      exact ⟨k, hk, pos, draws⟩

/-- A PSS command that a setup check ends has drawn nothing. -/
theorem PssCommand.drew_of_not_pssFits {h : HashSel} {i : Instr} {body : State → State} (hc : PssCommand h i body)
    {s t : State} (hl : s.legal = true) (hf : ¬ s.pssFits h) (ht : exec i s = .next t) : s.Drew 0 t := by
  obtain ⟨k, hk⟩ := Option.ne_none_iff_exists'.1 (mt (pssSetup_eq_none_iff h s).1 hf)
  rw [hc.exec_of_pssSetup hl hk] at ht
  obtain rfl := Host.Outcome.next.inj ht
  exact ⟨rfl, rfl⟩

/-- PSSENC and SIGN draw one salt behind the setup checks, SIGN before its range check (44_pss.md R201). -/
theorem pssencBody_drew (h : HashSel) (s : State) : s.Drew 1 ((s.consumeDraws 1).putEm (s.encodeNext h)).complete :=
  ⟨rfl, rfl⟩

theorem signBody_drew (h : HashSel) (s : State) : s.Drew 1 (s.signBody h) := by
  rw [State.signBody]
  split <;> exact ⟨rfl, rfl⟩

/-- The salts of a PSS command whose body draws one. -/
theorem PssCommand.drew_salt {h : HashSel} {i : Instr} {body : State → State} (hc : PssCommand h i body)
    (hbody : ∀ s : State, s.Drew 1 (body s)) {s t : State} (hl : s.legal = true) (ht : exec i s = .next t) :
    ∃ k, k ≤ 1 ∧ s.Drew k t ∧ (¬ s.pssFits h → k = 0) ∧ (s.pssFits h → k = 1) := by
  by_cases hf : s.pssFits h
  · rw [hc.exec_of_pssFits hl hf] at ht
    obtain rfl := Host.Outcome.next.inj ht
    exact ⟨1, le_rfl, hbody s, fun h' => absurd hf h', fun _ => rfl⟩
  · exact ⟨0, Nat.zero_le _, hc.drew_of_not_pssFits hl hf ht, fun _ => rfl, fun h' => absurd h' hf⟩

/-- Settles O44. BadConfig draws nothing; MRTESTR draws what its loop counts; PSSENC and SIGN are
`PssCommand.drew_salt`; for the others `mostDraws` says it all. -/
theorem drawsAreConsumedOnlyWhereTheRulesDraw : Obligations.DrawsAreConsumedOnlyWhereTheRulesDraw := by
  intro i s t h
  cases hl : s.legal with
  | false =>
    rw [exec_of_not_legal hl] at h
    obtain rfl := Host.Outcome.next.inj h
    exact ⟨0, Nat.zero_le _, rfl, rfl, fun _ => rfl, fun _ _ => rfl, fun _ _ => ⟨fun _ => rfl, nofun⟩⟩
  | true =>
    cases i with
    | mrtestr =>
      rw [exec_of_legal hl] at h
      obtain rfl := Host.Outcome.next.inj h
      exact ⟨_, mrTestRandom_snd_le _ _ _, rfl, rfl, nofun, fun _ small => mrTestRandom_snd_eq_zero small _ _, nofun⟩
    | pssenc g =>
      obtain ⟨k, hk, ⟨pos, draws⟩, not_fits, fits⟩ := (pssCommand_pssenc g).drew_salt (pssencBody_drew g) hl h
      refine ⟨k, hk, pos, draws, nofun, nofun, ?_⟩
      intro g' hg
      obtain rfl : g = g' := by simpa using hg
      exact ⟨not_fits, fun _ => fits⟩
    | sign g =>
      obtain ⟨k, hk, ⟨pos, draws⟩, not_fits, fits⟩ := (pssCommand_sign g).drew_salt (signBody_drew g) hl h
      refine ⟨k, hk, pos, draws, nofun, nofun, ?_⟩
      intro g' hg
      obtain rfl : g = g' := by simpa using hg
      exact ⟨not_fits, fun _ => fits⟩
    | _ =>
      obtain ⟨k, hk, pos, draws⟩ := exec_drew_le h
      exact ⟨k, hk, pos, draws, nofun, nofun, nofun⟩

end Sys2Proof.Machine
end

section
/-! Configuration and the four modular operations (00_scope.md R5, 40_bigint_modular.md R121 to R127). -/

namespace Sys2Proof.Machine

/-- Settles O10: the definition of a legal key size, and the BadConfig arm every command shares. -/
theorem illegalKeySizeEndsEveryCommandWithBadConfig : Obligations.IllegalKeySizeEndsEveryCommandWithBadConfig :=
  fun i s => ⟨legalKeySize_iff s.keySize, fun hl => exec_of_not_legal hl i⟩

/-- A modular operation on a zero modulus halts the block (40_bigint_modular.md R121). -/
theorem exec_of_modular_zero {i : Instr} {f : Nat → Nat → Nat → Nat} (hi : ∀ s : State, execBody i s = s.modular f)
    {s : State} (hl : s.legal = true) (hm : s.mod = 0) : exec i s = .next s.halt := by
  rw [exec_of_legal hl, hi, State.modular_of_zero hm]

/-! The bodies of the operations, each with its function. -/

theorem execBody_modadd (s : State) : execBody .modadd s = s.modular fun a b m => (a + b) % m := rfl

theorem execBody_modsub (s : State) : execBody .modsub s = s.modular fun a b m => (a % m + m - b % m) % m := rfl

theorem execBody_modmul (s : State) : execBody .modmul s = s.modular fun a b m => (a * b) % m := rfl

theorem execBody_modexp (s : State) : execBody .modexp s = s.modular modExp := rfl

/-- Settles O11: MODADD is a modular operation, on either side of the zero modulus. -/
theorem modaddWritesTheResidueOfTheSum : Obligations.ModaddWritesTheResidueOfTheSum :=
  ⟨rfl, fun _ hl => ⟨exec_of_modular execBody_modadd hl, exec_of_modular_zero execBody_modadd hl⟩⟩

/-- Settles O13: as MODADD. -/
theorem modmulWritesTheResidueOfTheProduct : Obligations.ModmulWritesTheResidueOfTheProduct :=
  ⟨rfl, fun _ hl => ⟨exec_of_modular execBody_modmul hl, exec_of_modular_zero execBody_modmul hl⟩⟩

/-- The difference of two residues, one modulus added, is the residue of the difference. -/
theorem residue_sub_add_modEq {m : Nat} (hm : 0 < m) (a b : Nat) : (a % m + m - b % m) % m + b ≡ a [MOD m] := by
  have hb : b % m ≤ a % m + m := (Nat.mod_lt b hm).le.trans (Nat.le_add_left _ _)
  calc (a % m + m - b % m) % m + b
      ≡ (a % m + m - b % m) + b % m [MOD m] := (Nat.mod_modEq _ _).add (Nat.mod_modEq b m).symm
    _ = a % m + m := Nat.sub_add_cancel hb
    _ ≡ a [MOD m] := by simp [Nat.ModEq]

/-- Settles O12: MODSUB is a modular operation, and its residue is the difference's by `residue_sub_add_modEq`. -/
theorem modsubWritesTheResidueOfTheDifference : Obligations.ModsubWritesTheResidueOfTheDifference := by
  refine ⟨rfl, fun s hl => ⟨fun hm => ?_, exec_of_modular_zero execBody_modsub hl⟩⟩
  have pos : 0 < s.mod := Nat.pos_of_ne_zero hm
  exact ⟨_, rfl, Nat.mod_lt _ pos, residue_sub_add_modEq pos _ _, exec_of_modular execBody_modsub hl hm⟩

/-- Settles O14: the loop of MODEXP computes the power (`modExp_eq`). -/
theorem modexpWritesTheResidueOfThePower : Obligations.ModexpWritesTheResidueOfThePower := by
  refine ⟨rfl, fun s hl => ⟨fun hm => ?_, exec_of_modular_zero execBody_modexp hl⟩⟩
  rw [exec_of_modular execBody_modexp hl hm, modExp_eq]
  rfl

end Sys2Proof.Machine
end

section
/-! The Miller-Rabin engine on primes, and MRTESTR (41_miller_rabin.md R155 to R157). -/

namespace Sys2Proof.Machine

/-- Settles O20: no witness shows a prime composite (`mrTest_of_prime`). -/
theorem mrtestAcceptsEveryPrime : Obligations.MrtestAcceptsEveryPrime := by
  intro s hl hp
  rw [exec_mrtest hl, mrTest_of_prime hp]

/-! ### The answer of MRTESTR and its draws -/

/-- MRTESTR writes PRIME and consumes its draws, and nothing else (41_miller_rabin.md R156). -/
theorem exec_mrtestr {s : State} (hl : s.legal = true) {p : Bool} {k : Nat}
    (h : mrTestRandom s.opa s.mrRounds.toNat s.draw = (p, k)) : exec .mrtestr s =
      .next { s.consumeDraws k with status := { s.status with busy := false, done := true, prime := p } } := by
  rw [exec_of_legal hl, execBody, h]
  rfl

theorem mrTestRandom_of_two_or_three {n : Nat} (h : n = 2 ∨ n = 3) (R : Nat) (draw : Nat → Nat) :
    mrTestRandom n R draw = (true, 0) := by
  rcases h with rfl | rfl <;> rfl

theorem preCheck_of_lt_two {n : Nat} (h : n < 2) : preCheck n = .reject := if_pos h

theorem mrTestRandom_of_rejected {n : Nat} (h : n < 2 ∨ (n ≠ 2 ∧ n % 2 = 0)) (R : Nat) (draw : Nat → Nat) :
    mrTestRandom n R draw = (false, 0) := by
  have rejected : preCheck n = .reject := by
    rcases h with small | ⟨h2, even⟩
    · exact preCheck_of_lt_two small
    · exact preCheck_of_even h2 even
  rw [mrTestRandom, if_neg (by omega), rejected]

section
variable {n : Nat} (h5 : 5 ≤ n) (odd : n % 2 = 1)
include h5 odd

theorem mrTestRandom_of_odd (R : Nat) (draw : Nat → Nat) :
    mrTestRandom n R draw = baseLoop n (decompose n).1 (decompose n).2 draw R 0 := by
  rw [mrTestRandom, if_neg (by omega), preCheck_of_odd (by omega) odd]

/-- MRTESTR passes with every round inconclusive, or stops at the first composite verdict (41_miller_rabin.md R156). -/
theorem mrTestRandom_cases (R : Nat) (draw : Nat → Nat) :
    (mrTestRandom n R draw = (true, R) ∧ ∀ j < R, strongProbablePrime n (drawNat 2 (n - 2) (draw j))) ∨
    ∃ j < R, mrTestRandom n R draw = (false, j + 1) ∧ ¬ strongProbablePrime n (drawNat 2 (n - 2) (draw j)) ∧
      ∀ j' < j, strongProbablePrime n (drawNat 2 (n - 2) (draw j')) := by
  have round (a : Nat) := mrRound_decompose_iff (show 2 ≤ n by omega) odd a
  rw [mrTestRandom_of_odd h5 odd]
  rcases baseLoop_spec n (decompose n).1 (decompose n).2 draw R 0 with ⟨verdict, used, pass⟩ | ⟨j, hj, e, fails, pass⟩
  · simp only [Nat.zero_add, round] at used pass
    exact .inl ⟨Prod.ext verdict used, pass⟩
  · simp only [Nat.zero_add, round] at e pass
    rw [Nat.zero_add] at fails
    exact .inr ⟨j, hj, e, by rw [← round, fails]; decide, pass⟩

theorem mrTestRandom_of_pass {R : Nat} {draw : Nat → Nat}
    (pass : ∀ j < R, strongProbablePrime n (drawNat 2 (n - 2) (draw j))) : mrTestRandom n R draw = (true, R) := by
  rcases mrTestRandom_cases h5 odd R draw with ⟨e, -⟩ | ⟨j, hj, -, fails, -⟩
  · exact e
  · exact absurd (pass j hj) fails

theorem mrTestRandom_of_fail {R : Nat} {draw : Nat → Nat} {j : Nat} (hj : j < R)
    (fails : ¬ strongProbablePrime n (drawNat 2 (n - 2) (draw j)))
    (pass : ∀ j' < j, strongProbablePrime n (drawNat 2 (n - 2) (draw j'))) :
    mrTestRandom n R draw = (false, j + 1) := by
  rcases mrTestRandom_cases h5 odd R draw with ⟨-, all⟩ | ⟨i, -, e, fails', pass'⟩
  · exact absurd (all j hj) fails
  · have first : i = j := by
      rcases lt_trichotomy i j with lt | eq | gt
      · exact absurd (pass i lt) fails'
      · exact eq
      · exact absurd (pass' j gt) fails
    rw [e, first]

end

/-- Settles O22: a base lies in its range (`drawNat_mem`), and the answer is that of the special cases or the rounds. -/
theorem mrtestrAnswersByItsDraws : Obligations.MrtestrAnswersByItsDraws := by
  refine ⟨rfl, fun n a h5 => ⟨drawNat_mem (by omega) a, drawNat_of_mem⟩, fun s hl => ⟨fun h => ?special,
    fun h => ?rejected, fun h5 odd => ⟨fun pass => ?passes, fun j hj fails pass => ?fails⟩⟩⟩
  case special => exact exec_mrtestr hl (mrTestRandom_of_two_or_three h _ _)
  case rejected => exact exec_mrtestr hl (mrTestRandom_of_rejected h _ _)
  case passes => exact exec_mrtestr hl (mrTestRandom_of_pass h5 odd pass)
  case fails => exact exec_mrtestr hl (mrTestRandom_of_fail h5 odd hj fails pass)

/-- For a prime every base in the range is inconclusive. -/
theorem mrTestRandom_of_prime {n : Nat} (hn : n.Prime) (R : Nat) (draw : Nat → Nat) :
    (mrTestRandom n R draw).1 = true := by
  rcases Nat.lt_or_ge n 5 with small | h5
  · have h : n = 2 ∨ n = 3 := (show ∀ n < 5, n.Prime → n = 2 ∨ n = 3 by decide) n small hn
    rw [mrTestRandom_of_two_or_three h]
  · have odd : n % 2 = 1 := hn.eq_two_or_odd.resolve_left (by omega)
    have pass : ∀ j < R, strongProbablePrime n (drawNat 2 (n - 2) (draw j)) := fun j _ => by
      obtain ⟨low, high⟩ := drawNat_mem (show 2 ≤ n - 2 by omega) (draw j)
      exact strongProbablePrime_of_prime hn (by omega) (by omega)
    rw [mrTestRandom_of_pass h5 odd pass]

/-- Settles O23, by `mrTestRandom_of_prime`. -/
theorem mrtestrAcceptsEveryPrimeForEveryDraw : Obligations.MrtestrAcceptsEveryPrimeForEveryDraw := by
  intro s hl hp
  exact ⟨_, exec_mrtestr hl rfl, mrTestRandom_of_prime hp _ _, rfl, rfl⟩

end Sys2Proof.Machine
end

section
/-! The mask generator: MGF1 (43_mgf1.md). -/

namespace Sys2Proof.Machine

theorem decode_mgf1_word (h : HashSel) : decode (BitVec.ofNat 32 (0x8 + 16 * h.code)) = .ok (.mgf1 h) := by
  cases h <;> rfl

theorem exec_mgf1_of_gt {h : HashSel} {s : State} (hl : s.legal = true) (hL : 2 ^ 32 * hLen h < s.outlen.toNat) :
    exec (.mgf1 h) s = .next (s.completeError .maskTooLong) := by
  rw [exec_of_legal hl, execBody, if_pos hL]

theorem exec_mgf1_of_le {h : HashSel} {s : State} (hl : s.legal = true) (hL : s.outlen.toNat ≤ 2 ^ 32 * hLen h) :
    exec (.mgf1 h) s = .next (s.putOut (mgf (hash h) s.message s.outlen.toNat)).complete := by
  rw [exec_of_legal hl, execBody, if_neg (Nat.not_lt.2 hL)]

/-- The bytes of OUT below OUTLEN are those of the mask (43_mgf1.md R181). -/
theorem read_writeBytes_mgf {m : Memory} (hwf : m.wf = true) (h : HashSel) (seed : List Byte) {L a : Nat} (ha : a < L) :
    (m.writeBytes 0 (mgf (hash h) seed L)).read a = (hash h (seed ++ i2osp (a / hLen h) 4))[a % hLen h]?.getD 0 := by
  rw [Memory.read_writeBytes hwf, length_mgf_hash, Nat.zero_add, if_pos ⟨Nat.zero_le a, ha⟩, Nat.sub_zero,
    mgf_getElem? (length_hash h) (hLen_pos h) seed ha]

/-- Settles O27, by the two sides of the length check. The mask bytes are the model's for every seed, an admitted one
among them. -/
theorem mgf1WritesTheMask : Obligations.Mgf1WritesTheMask := by
  refine ⟨decode_mgf1_word, fun h s hl hwf => ⟨exec_mgf1_of_gt hl, fun hL => ?_⟩⟩
  refine ⟨_, exec_mgf1_of_le hl hL, fun a ha => ?_, fun _ a ha => read_writeBytes_mgf hwf h s.message ha⟩
  exact Memory.read_writeBytes_of_length_le hwf (by rwa [length_mgf_hash])

/-- A shorter mask is the front of a longer one: byte `j` does not depend on the length (43_mgf1.md R183). -/
theorem mgf_eq_take_mgf (h : HashSel) (seed : List Byte) {L₁ L₂ : Nat} (hL : L₁ ≤ L₂) :
    mgf (hash h) seed L₁ = (mgf (hash h) seed L₂).take L₁ := by
  apply List.ext_getElem?
  intro j
  rcases Nat.lt_or_ge j L₁ with hj | hj
  · rw [List.getElem?_take_of_lt hj, mgf_getElem? (length_hash h) (hLen_pos h) seed hj,
      mgf_getElem? (length_hash h) (hLen_pos h) seed (hj.trans_le hL)]
  · rw [List.getElem?_take_eq_none hj, List.getElem?_eq_none (by rwa [length_mgf_hash])]

/-- Settles O28, by `mgf_eq_take_mgf`. -/
theorem shorterMaskIsPrefix : Obligations.ShorterMaskIsPrefix := by
  intro h seed L₁ L₂ hL
  refine ⟨length_mgf_hash h seed L₁, (mgf (hash h) seed L₂).drop L₁, ?_⟩
  rw [mgf_eq_take_mgf h seed hL, List.take_append_drop]

end Sys2Proof.Machine
end

section
/-! The encoding of PSS: its form, and that the decoder accepts it (44_pss.md R199, R214). -/

namespace Sys2Proof.Machine

/-- A string whose first bit is clear is below half of its range. -/
theorem os2ip_lt_of_head {X : List Byte} (hX : X ≠ []) (h : X[0]?.getD 0 &&& 0x80 = 0) :
    os2ip X < 2 ^ (8 * X.length - 1) := by
  cases X with
  | nil => exact absurd rfl hX
  | cons b X =>
    have hb : b.toNat < 128 := (show ∀ b : Byte, b &&& 0x80 = 0 → b.toNat < 128 by decide) b h
    have range : 2 ^ (8 * (b :: X).length - 1) = 128 * 256 ^ X.length := by
      rw [List.length_cons, show 8 * (X.length + 1) - 1 = 7 + 8 * X.length by omega, pow_add, pow_mul]
      norm_num
    have hX := os2ip_lt X
    rw [range, os2ip_cons]
    calc b.toNat * 256 ^ X.length + os2ip X < (b.toNat + 1) * 256 ^ X.length := by rw [Nat.succ_mul]; omega
      _ ≤ 128 * 256 ^ X.length := Nat.mul_le_mul_right _ hb

section
variable {h : HashSel} {kl : Nat} (hk : 2 * hLen h + 9 ≤ kl) (M : List Byte) {salt : List Byte}
  (hs : salt.length = hLen h)
include hk hs

theorem length_encoding : (pssEncode (hash h) (hLen h) kl M salt).length = kl :=
  length_pssEncode (length_hash h) (hLen_pos h) M hs (by omega)

/-- The encoding as the decoder takes it apart. -/
theorem encoding_eq_masked : pssEncode (hash h) (hLen h) kl M salt =
    maskedEncoding (hash h) (hLen h) kl (dataBlock kl (hLen h) salt) (hash h (mPrime (hash h M) salt)) :=
  pssEncode_eq_masked (length_hash h) (hLen_pos h) M hs (by omega)

/-- The last byte of the encoding is 0xBC (44_pss.md R199). -/
theorem getElem?_encoding_last : (pssEncode (hash h) (hLen h) kl M salt)[kl - 1]? = some 0xBC := by
  have hlen := length_encoding hk M hs
  rw [encoding_eq_masked hk M hs, maskedEncoding] at hlen ⊢
  rw [List.length_append, List.length_singleton] at hlen
  rw [List.getElem?_append_right (by omega), show kl - 1 - _ = 0 by omega]
  rfl

/-- The digest stands before the trailer (44_pss.md R199, R207). -/
theorem slice_encoding_digest : slice (pssEncode (hash h) (hLen h) kl M salt) (dbLen kl (hLen h))
    (dbLen kl (hLen h) + hLen h) = hash h (mPrime (hash h M) salt) := by
  rw [encoding_eq_masked hk M hs]
  exact slice_maskedEncoding (length_hash h) (hLen_pos h) (length_dataBlock hs (by omega)) (length_hash h _)

omit hk hs in
/-- The first bit of the encoding is clear (44_pss.md R199). -/
theorem encoding_head : (pssEncode (hash h) (hLen h) kl M salt)[0]?.getD 0 &&& 0x80 = 0 := clearTopBit_head _

theorem os2ip_encoding_lt : os2ip (pssEncode (hash h) (hLen h) kl M salt) < 2 ^ (8 * kl - 1) := by
  have hlen := length_encoding hk M hs
  have bound := os2ip_lt_of_head (X := pssEncode (hash h) (hLen h) kl M salt)
    (List.ne_nil_of_length_pos (by omega)) (encoding_head M)
  rwa [hlen] at bound

/-! ### The decoder on an encoding (44_pss.md R205 to R211) -/

/-- The data block is recovered from the encoding: its first byte is a zero of the padding. -/
theorem recoverDB_encoding :
    recoverDB (hash h) (hLen h) kl (pssEncode (hash h) (hLen h) kl M salt) = dataBlock kl (hLen h) salt := by
  rw [encoding_eq_masked hk M hs]
  obtain ⟨n, hn⟩ : ∃ n, psLen kl (hLen h) = n + 1 := Nat.exists_eq_succ_of_ne_zero (by unfold psLen; omega)
  have front : dataBlock kl (hLen h) salt = 0 :: (zeros n ++ [0x01] ++ salt) := by rw [dataBlock, hn]; rfl
  have hlen := length_dataBlock hs (show 2 * hLen h + 2 ≤ kl by omega)
  rw [front] at hlen ⊢
  exact recoverDB_maskedEncoding (length_hash h) (hLen_pos h) (by decide) hlen (length_hash h _)

omit hk hs in
theorem paddingOk_dataBlock : PaddingOk kl (hLen h) (dataBlock kl (hLen h) salt) := by
  refine ⟨?zeros, ?mark⟩
  case zeros => rw [dataBlock, List.append_assoc]; exact slice_front (length_zeros _)
  case mark =>
    rw [dataBlock, List.append_assoc, List.getElem?_append_right (length_zeros _).le, length_zeros, Nat.sub_self]
    rfl

/-- The salt is the end of the data block. -/
theorem slice_dataBlock_salt :
    slice (dataBlock kl (hLen h) salt) (dbLen kl (hLen h) - hLen h) (dbLen kl (hLen h)) = salt := by
  have ends : psLen kl (hLen h) + 1 = dbLen kl (hLen h) - hLen h := by unfold psLen dbLen; omega
  have whole : dbLen kl (hLen h) - hLen h + hLen h = dbLen kl (hLen h) := by unfold dbLen; omega
  rw [dataBlock, ← List.append_nil (zeros _ ++ [0x01] ++ salt)]
  exact slice_middle (by simp [ends]) (by rw [hs, whole])

/-- The decoder accepts what the encoder builds, whatever the salt (44_pss.md R214). -/
theorem pssDecode_encoding :
    pssDecode (hash h) (hLen h) kl M (pssEncode (hash h) (hLen h) kl M salt) = none := by
  refine pssDecode_of_digestOk ?trailer (encoding_head M) ?padding ?digest
  case trailer => rw [TrailerOk, getElem?_encoding_last hk M hs]; rfl
  case padding => rw [recoverDB_encoding hk M hs]; exact paddingOk_dataBlock
  case digest => rw [DigestOk, recoverDB_encoding hk M hs, slice_dataBlock_salt hk hs, slice_encoding_digest hk M hs]

end

/-- Settles O31: the four parts are lemmas on `maskedEncoding`, the bound follows from the clear first bit. -/
theorem encodingEndsInTrailerAndStaysBelowTopBit : Obligations.EncodingEndsInTrailerAndStaysBelowTopBit := by
  intro h kl M salt hk hs
  have digest := slice_encoding_digest hk M hs
  rw [show dbLen kl (hLen h) + hLen h = kl - 1 by unfold dbLen; omega] at digest
  exact ⟨length_encoding hk M hs, getElem?_encoding_last hk M hs, digest, encoding_head M, os2ip_encoding_lt hk M hs⟩

end Sys2Proof.Machine
end

section
/-! PSSENC, SIGN and VERIFY (44_pss.md R200, R201, R213, R214). -/

namespace Sys2Proof.Machine

/-! ### PSSENC (44_pss.md R200) -/

theorem decode_pssenc_word (h : HashSel) : decode (BitVec.ofNat 32 (0x9 + 16 * h.code)) = .ok (.pssenc h) := by
  cases h <;> rfl

section
variable {h : HashSel} {s : State} (hf : s.pssFits h)
include hf

theorem State.length_encodeNext : (s.encodeNext h).length = s.kLen :=
  length_encoding hf.1 _ (length_drawBytes _ _)

theorem State.pssDecode_encodeNext : pssDecode (hash h) (hLen h) s.kLen s.message (s.encodeNext h) = none :=
  pssDecode_encoding hf.1 _ (length_drawBytes _ _)

/-- The encoding is below `2^(K-1)` (44_pss.md R199). -/
theorem State.os2ip_encodeNext_lt (hl : s.legal = true) : os2ip (s.encodeNext h) < 2 ^ (s.keySize - 1) := by
  obtain ⟨-, h8, -⟩ := (legalKeySize_iff _).1 hl
  have hk : 8 * s.kLen = s.keySize := Nat.mul_div_cancel' (Nat.dvd_of_mod_eq_zero h8)
  rw [← hk]
  exact os2ip_encoding_lt hf.1 _ (length_drawBytes _ _)

theorem exec_pssenc (hl : s.legal = true) :
    exec (.pssenc h) s = .next ((s.consumeDraws 1).putEm (s.encodeNext h)).complete :=
  (pssCommand_pssenc h).exec_of_pssFits hl hf

theorem readBytes_writeBytes_encodeNext (hwf : s.em.wf = true) :
    (s.em.writeBytes 0 (s.encodeNext h)).readBytes 0 s.kLen = s.encodeNext h := by
  have back := Memory.readBytes_writeBytes hwf 0 (s.encodeNext h)
  rwa [State.length_encodeNext hf] at back

/-- PSSDEC and RSAXF find the encoding in EM after PSSENC. -/
theorem encoded_of_pssenc (hwf : s.em.wf = true) :
    ((s.consumeDraws 1).putEm (s.encodeNext h)).complete.encoded = s.encodeNext h := by
  simp only [State.encoded, State.complete_em, State.putEm_em, State.consumeDraws_em, State.complete_kLen,
    State.putEm_kLen, State.consumeDraws_kLen]
  exact readBytes_writeBytes_encodeNext hf hwf

end

/-- Settles O30: EM reads back as the encoding, and its bytes from kLen on stay. -/
theorem pssencWritesTheEncoding : Obligations.PssencWritesTheEncoding := by
  refine ⟨decode_pssenc_word, fun h s hl hf hwf => ?_⟩
  intro M salt H DB mask
  have encoding : s.encodeNext h = clearTopBit (xorBytes DB mask ++ H ++ [0xBC]) := rfl
  refine ⟨s.em.writeBytes 0 (s.encodeNext h), exec_pssenc hf hl, ?_, fun a ha => ?_⟩
  · rw [← encoding]; exact readBytes_writeBytes_encodeNext hf hwf
  · exact Memory.read_writeBytes_of_length_le hwf (by rwa [State.length_encodeNext hf])

/-- `t` is `s` with the encoding in EM, and done: what the commands after PSSENC find. -/
structure State.EncodedFrom (h : HashSel) (s t : State) : Prop where
  encoded : t.encoded = s.encodeNext h
  status : t.status = s.status.complete
  drawPos : t.drawPos = s.drawPos + 1
  opb : t.opb = s.opb
  res : t.res = s.res
  mod : t.mod = s.mod
  legal : t.legal = s.legal
  kLen : t.kLen = s.kLen
  message : t.message = s.message
  fits : t.pssFits h

theorem exec_pssenc_encodedFrom {h : HashSel} {s : State} (hl : s.legal = true) (hf : s.pssFits h)
    (hwf : s.em.wf = true) :
    ∃ t, exec (.pssenc h) s = .next t ∧ s.EncodedFrom h t :=
  ⟨_, exec_pssenc hf hl,
    { encoded := encoded_of_pssenc hf hwf
      status := by simp
      drawPos := by simp
      opb := by simp
      res := by simp
      mod := by simp
      legal := by simp
      kLen := by simp
      message := by simp
      fits := by simpa [State.pssFits] using hf }⟩

/-- Settles O33: EM reads back as the encoding, which the decoder accepts (`pssDecode_encoding`). -/
theorem pssdecAcceptsTheOutputOfPssenc : Obligations.PssdecAcceptsTheOutputOfPssenc := by
  intro h s hl hf hwf
  obtain ⟨t, ht, enc⟩ := exec_pssenc_encodedFrom hl hf hwf
  have valid : pssDecode (hash h) (hLen h) t.kLen t.message t.encoded = none := by
    rw [enc.kLen, enc.message, enc.encoded]; exact State.pssDecode_encodeNext hf
  exact ⟨t, ht, exec_pssdec_of_none (enc.legal.trans hl) enc.fits valid, by rw [enc.status, Status.complete_err]⟩

/-! ### SIGN (44_pss.md R201) -/

theorem decode_sign_word (h : HashSel) : decode (BitVec.ofNat 32 (0xB + 16 * h.code)) = .ok (.sign h) := by
  cases h <;> rfl

theorem State.signBody_of_lt {h : HashSel} {s : State} (hm : os2ip (s.encodeNext h) < s.mod) :
    s.signBody h = ((s.consumeDraws 1).setRes (os2ip (s.encodeNext h) ^ s.opb % s.mod)).complete := by
  rw [State.signBody, rsaTransform_of_lt hm, modExp_eq]

theorem State.signBody_of_le {h : HashSel} {s : State} (hm : s.mod ≤ os2ip (s.encodeNext h)) :
    s.signBody h = (s.consumeDraws 1).completeError .messageOutOfRange := by
  rw [State.signBody, rsaTransform_of_le hm]

section
variable {h : HashSel} {s : State} (hl : s.legal = true) (hf : s.pssFits h)
include hl hf

theorem exec_sign_of_lt (hm : os2ip (s.encodeNext h) < s.mod) : exec (.sign h) s =
    .next ((s.consumeDraws 1).setRes (os2ip (s.encodeNext h) ^ s.opb % s.mod)).complete := by
  rw [(pssCommand_sign h).exec_of_pssFits hl hf, State.signBody_of_lt hm]

theorem exec_sign_of_le (hm : s.mod ≤ os2ip (s.encodeNext h)) : exec (.sign h) s =
    .next ((s.consumeDraws 1).completeError .messageOutOfRange) := by
  rw [(pssCommand_sign h).exec_of_pssFits hl hf, State.signBody_of_le hm]

end

/-- Settles O34, by the two sides of the range check. -/
theorem signExponentiatesTheEncoding : Obligations.SignExponentiatesTheEncoding :=
  ⟨decode_sign_word, fun _ _ hl hf => ⟨exec_sign_of_le hl hf, exec_sign_of_lt hl hf⟩⟩

/-- Settles O35: the encoding is below `2^(K-1)`, and so below the modulus. -/
theorem signSucceedsForAFullLengthModulus : Obligations.SignSucceedsForAFullLengthModulus := by
  intro h s hl hf hmod
  have hm : os2ip (s.encodeNext h) < s.mod := (State.os2ip_encodeNext_lt hf hl).trans_le hmod
  exact ⟨_, Nat.mod_lt _ (by omega), exec_sign_of_lt hl hf hm⟩

/-- Settles O36: RSAXF finds the encoding in OPA, and both make the same range check on it. -/
theorem signIsPssencThenRsaxf : Obligations.SignIsPssencThenRsaxf := by
  intro h s hl hf hwf
  obtain ⟨t, ht, enc⟩ := exec_pssenc_encodedFrom hl hf hwf
  let u : State := { t with opa := os2ip t.encoded }
  have legal : u.legal = true := enc.legal.trans hl
  rcases Nat.lt_or_ge (os2ip (s.encodeNext h)) s.mod with below | above
  · have range : os2ip t.encoded < t.mod := by rwa [enc.encoded, enc.mod]
    refine ⟨t, _, _, ht, exec_rsaxf_of_lt (s := u) legal range, exec_sign_of_lt hl hf below, ?_, ?_, enc.drawPos.symm⟩
    · show os2ip (s.encodeNext h) ^ s.opb % s.mod = os2ip t.encoded ^ t.opb % t.mod
      rw [enc.encoded, enc.opb, enc.mod]
    · show s.status.complete = t.status.complete
      rw [enc.status]; rfl
  · have range : t.mod ≤ os2ip t.encoded := by rwa [enc.encoded, enc.mod]
    refine ⟨t, _, _, ht, exec_rsaxf_of_le (s := u) legal range, exec_sign_of_le hl hf above, ?_, ?_, enc.drawPos.symm⟩
    · exact enc.res.symm
    · show s.status.completeError _ = t.status.completeError _
      rw [enc.status]; rfl

/-! ### VERIFY (44_pss.md R213) -/

theorem decode_verify_word (h : HashSel) : decode (BitVec.ofNat 32 (0xC + 16 * h.code)) = .ok (.verify h) := by
  cases h <;> rfl

theorem State.verifyBody_of_lt {h : HashSel} {s : State} (hm : s.opa < s.mod) :
    s.verifyBody h = s.completeDecode h (i2osp (s.opa ^ s.opb % s.mod) s.kLen) := by
  rw [State.verifyBody, rsaTransform_of_lt hm, modExp_eq]

theorem State.verifyBody_of_le {h : HashSel} {s : State} (hm : s.mod ≤ s.opa) :
    s.verifyBody h = s.completeError .messageOutOfRange := by
  rw [State.verifyBody, rsaTransform_of_le hm]

section
variable {h : HashSel} {s : State} (hl : s.legal = true) (hf : s.pssFits h)
include hl hf

theorem exec_verify_of_lt (hm : s.opa < s.mod) : exec (.verify h) s =
    .next (s.completeDecode h (i2osp (s.opa ^ s.opb % s.mod) s.kLen)) := by
  rw [(pssCommand_verify h).exec_of_pssFits hl hf, State.verifyBody_of_lt hm]

theorem exec_verify_of_le (hm : s.mod ≤ s.opa) : exec (.verify h) s = .next (s.completeError .messageOutOfRange) := by
  rw [(pssCommand_verify h).exec_of_pssFits hl hf, State.verifyBody_of_le hm]

end

/-- Settles O25: no operand is below a zero modulus. -/
theorem zeroModulusIsOutOfRangeForTheCipher : Obligations.ZeroModulusIsOutOfRangeForTheCipher := by
  intro h s hl hmod
  have out_of_range (v : Nat) : s.mod ≤ v := hmod ▸ Nat.zero_le v
  exact ⟨exec_rsaxf_of_le hl (out_of_range _), fun hf =>
    ⟨exec_verify_of_le hl hf (out_of_range _), exec_sign_of_le hl hf (out_of_range _)⟩⟩

/-- Settles O37: PSSDEC reads the recovered encoding back from EM and gives the verdict VERIFY gives. -/
theorem verifyDecodesTheRecoveredEncoding : Obligations.VerifyDecodesTheRecoveredEncoding := by
  refine ⟨decode_verify_word, fun h s hl hf => ⟨exec_verify_of_le hl hf, fun hm => ?_⟩⟩
  let EM := i2osp (s.opa ^ s.opb % s.mod) s.kLen
  let u : State := { s with em := Memory.writeBytes [] 0 EM }
  have encoded : u.encoded = EM := by
    have back := Memory.readBytes_writeBytes Memory.wf_nil 0 EM
    rwa [length_i2osp] at back
  cases hd : pssDecode (hash h) (hLen h) s.kLen s.message EM with
  | none =>
    refine ⟨u.complete, exec_pssdec_of_none (s := u) hl hf (by rw [encoded]; exact hd), ?_⟩
    rw [exec_verify_of_lt hl hf hm, State.completeDecode_of_none hd]
    rfl
  | some k =>
    refine ⟨u.completeError k, exec_pssdec_of_some (s := u) hl hf (by rw [encoded]; exact hd), ?_⟩
    rw [exec_verify_of_lt hl hf hm, State.completeDecode_of_some hd]
    rfl

/-- VERIFY accepts a signature in OPA that OPB raises to the integer of a valid encoding. -/
theorem exec_verify_of_valid {h : HashSel} {s : State} (hl : s.legal = true) (hf : s.pssFits h) (hm : s.opa < s.mod)
    {EM : List Byte} (hlen : EM.length = s.kLen) (hpow : s.opa ^ s.opb % s.mod = os2ip EM)
    (hd : pssDecode (hash h) (hLen h) s.kLen s.message EM = none) : exec (.verify h) s = .next s.complete := by
  rw [exec_verify_of_lt hl hf hm, hpow, ← hlen, i2osp_os2ip, State.completeDecode_of_none hd]

/-- Settles O38: RES is the encoding raised to `d`, the public exponent gives the encoding back, and the decoder accepts
it. -/
theorem verifyAcceptsTheOutputOfSign : Obligations.VerifyAcceptsTheOutputOfSign := by
  intro p q e d n key h s hl hf hn hmod hopb
  have below : os2ip (s.encodeNext h) < n := (State.os2ip_encodeNext_lt hf hl).trans_le hn.1
  have signed : exec (.sign h) s = .next ((s.consumeDraws 1).setRes (os2ip (s.encodeNext h) ^ d % n)).complete := by
    rw [exec_sign_of_lt hl hf (hmod ▸ below), hopb, hmod]
  refine ⟨_, signed, rfl, exec_verify_of_valid (EM := s.encodeNext h) hl hf ?range (State.length_encodeNext hf) ?power
    (State.pssDecode_encodeNext hf)⟩
  case range => exact hmod ▸ Nat.mod_lt _ (by omega)
  case power => exact hmod ▸ key.symm.pow_mod_pow_mod below

end Sys2Proof.Machine
end

section
/-! Valid key pairs (45_host_keygen.md R231 to R233). -/

namespace Sys2Proof.Machine

/-- A number of exactly `K` bits has its bit `K - 1` set. -/
theorem exactBits.testBit {K n : Nat} (h : exactBits K n) : n.testBit (K - 1) = true := by
  obtain ⟨top, below⟩ := h
  have hK : K ≠ 0 := by
    rintro rfl
    exact Nat.not_lt.2 top below
  have quotient : n / 2 ^ (K - 1) = 1 := by
    refine Nat.div_eq_of_lt_le (by rwa [one_mul]) ?_
    show n < 2 * 2 ^ (K - 1)
    rwa [← pow_succ', Nat.sub_add_cancel (Nat.pos_of_ne_zero hK)]
  rw [Nat.testBit_eq_decide_div_mod_eq, quotient]
  rfl

/-- `2 ^ K = 256 ^ (K / 8)` for whole bytes (45_host_keygen.md R233). -/
theorem two_pow_of_whole_bytes {K : Nat} (h : K % 8 = 0) : 2 ^ K = 256 ^ (K / 8) := by
  rw [show (256 : Nat) = 2 ^ 8 from rfl, ← pow_mul, Nat.mul_div_cancel' (Nat.dvd_of_mod_eq_zero h)]

/-- Settles O39: an odd product has odd factors, an exponent with an inverse is coprime to `λ(n)`, and a value below
`256 ^ (K / 8)` is determined by its bytes. -/
theorem validKeyPairsHaveOddModuliOfExactLength : Obligations.ValidKeyPairsHaveOddModuliOfExactLength := by
  intro K p q e d n key
  have odd : (p * q) % 2 = 1 := key.modulus ▸ key.modulusForm.odd
  obtain ⟨oddP, oddQ⟩ := Nat.odd_mul.1 (Nat.odd_iff.2 odd)
  refine ⟨key.modulusForm.length.testBit, Nat.testBit_zero n ▸ decide_eq_true key.modulusForm.odd, Nat.odd_iff.1 oddP,
    Nat.odd_iff.1 oddQ, ?coprime, fun h8 x hx => ?bytes⟩
  case coprime => exact Nat.coprime_of_mul_modEq_one d (mul_comm d e ▸ key.inverse)
  case bytes =>
    have whole := two_pow_of_whole_bytes h8
    have fits : x < 256 ^ (K / 8) := by
      simp only [List.mem_cons, List.not_mem_nil, or_false] at hx
      obtain rfl | rfl | rfl := hx
      · exact key.widths.1
      · exact key.widths.2
      · exact whole ▸ key.modulusForm.length.2
    exact ⟨whole ▸ fits, os2ip_i2osp_of_lt fits⟩

end Sys2Proof.Machine
end

section
/-! The outcome of a command depends on its operands and the draws only (10_state.md R35). -/

namespace Sys2Proof.Machine

/-- `s` with OUT, CMD, RES and the host's side of `e`: what the outcome of a command must not depend on. -/
def State.besides (s e : State) : State :=
  { s with out := e.out, cmd := e.cmd, res := e.res, schedule := e.schedule, freePos := e.freePos,
           readData := e.readData }

/-- The commands that write OUT (20_memory.md R61). -/
def writesOut : Instr → Bool
  | .mgf1 _ | .exportReg _ => true
  | .modadd | .modsub | .modmul | .modexp | .mrtest | .mrtestr | .rsaxf | .pssenc _ | .pssdec _ | .sign _ | .verify _
  | .importReg _ => false

theorem writesOut_of_mgf1_or_exportReg {i : Instr} (h : (∃ h, i = .mgf1 h) ∨ ∃ r, i = .exportReg r) :
    writesOut i = true := by
  rcases h with ⟨g, rfl⟩ | ⟨r, rfl⟩ <;> rfl

/-- The command `i` ends from `s` and from `s'` by writing the same: STATUS alone, a register, EM or OUT. -/
inductive SameEnding (s s' : State) (i : Instr) : State → State → Prop
  | status (k : Nat) (st : Status) (failed : writesOut i = true → st.err ≠ 0) :
      SameEnding s s' i { s.consumeDraws k with status := st } { s'.consumeDraws k with status := st }
  | reg (k : Nat) (r : BigReg) (v : Nat) (silent : writesOut i = false) :
      SameEnding s s' i ((s.consumeDraws k).setBig r v).complete ((s'.consumeDraws k).setBig r v).complete
  | em (k : Nat) (X : List Byte) (silent : writesOut i = false) :
      SameEnding s s' i ((s.consumeDraws k).putEm X).complete ((s'.consumeDraws k).putEm X).complete
  | out (X : List Byte) (len : X.length = s.outlen.toNat) :
      SameEnding s s' i (s.putOut X).complete (s'.putOut X).complete

/-! ### Both runs end in the same way -/

section
variable {s e : State} {i : Instr}

theorem SameEnding.error (k : ErrorKind) :
    SameEnding s (s.besides e) i (s.completeError k) ((s.besides e).completeError k) :=
  .status 0 (s.status.completeError k) fun _ => k.code_ne_zero

theorem SameEnding.modular (hi : writesOut i = false) (f : Nat → Nat → Nat → Nat) :
    SameEnding s (s.besides e) i (s.modular f) ((s.besides e).modular f) := by
  by_cases hm : s.mod = 0
  · rw [State.modular_of_zero hm, State.modular_of_zero (s := s.besides e) hm]
    exact .status 0 s.status.halt (by simp [hi])
  · rw [State.modular_of_pos hm, State.modular_of_pos (s := s.besides e) hm]
    exact .reg 0 .res (f s.opa s.opb s.mod) hi

theorem SameEnding.whenFits {h : HashSel} {body : State → State}
    (hbody : SameEnding s (s.besides e) i (body s) (body (s.besides e))) :
    SameEnding s (s.besides e) i (s.whenFits h body) ((s.besides e).whenFits h body) := by
  cases hs : pssSetup h s with
  | none => rwa [State.whenFits_of_none hs, State.whenFits_of_none (s := s.besides e) hs]
  | some k =>
    rw [State.whenFits_of_some hs, State.whenFits_of_some (s := s.besides e) hs]
    exact .error k

theorem SameEnding.completeDecode (hi : writesOut i = false) (h : HashSel) (EM : List Byte) :
    SameEnding s (s.besides e) i (s.completeDecode h EM) ((s.besides e).completeDecode h EM) := by
  cases hd : pssDecode (hash h) (hLen h) s.kLen s.message EM with
  | none =>
    rw [State.completeDecode_of_none hd, State.completeDecode_of_none (s := s.besides e) hd]
    exact .status 0 s.status.complete (by simp [hi])
  | some k =>
    rw [State.completeDecode_of_some hd, State.completeDecode_of_some (s := s.besides e) hd]
    exact .error k

end

/-- A register reads the same beside another RES, unless it is RES. -/
theorem State.getBig_besides {s e : State} {r : BigReg} (hr : r = .res → e.res = s.res) :
    (s.besides e).getBig r = s.getBig r := by
  cases r with
  | res => exact hr rfl
  | opa | opb | mod => rfl

theorem execBody_rsaxf_of_lt {s : State} (h : s.opa < s.mod) :
    execBody .rsaxf s = (s.setRes (s.opa ^ s.opb % s.mod)).complete := by
  rw [execBody, rsaTransform_of_lt h, modExp_eq]

theorem execBody_rsaxf_of_le {s : State} (h : s.mod ≤ s.opa) :
    execBody .rsaxf s = s.completeError .messageOutOfRange := by
  rw [execBody, rsaTransform_of_le h]

/-- The operands, the range and length checks, and the draws are read from fields that `besides` keeps. -/
theorem execBody_sameEnding (i : Instr) (s e : State) (hres : i = .exportReg .res → e.res = s.res) :
    SameEnding s (s.besides e) i (execBody i s) (execBody i (s.besides e)) := by
  cases i with
  | modadd | modsub | modmul | modexp =>
    rw [execBody, execBody]
    exact .modular rfl _
  | mrtest => exact .status 0 (s.status.withPrime (mrTest s.opa)).complete nofun
  | mrtestr =>
    exact .status (mrTestRandom s.opa s.mrRounds.toNat s.draw).2
      (s.status.withPrime (mrTestRandom s.opa s.mrRounds.toNat s.draw).1).complete nofun
  | rsaxf =>
    rcases Nat.lt_or_ge s.opa s.mod with below | above
    · rw [execBody_rsaxf_of_lt below, execBody_rsaxf_of_lt (s := s.besides e) below]
      exact .reg 0 .res (s.opa ^ s.opb % s.mod) rfl
    · rw [execBody_rsaxf_of_le above, execBody_rsaxf_of_le (s := s.besides e) above]
      exact .error _
  | mgf1 h =>
    by_cases long : 2 ^ 32 * hLen h < s.outlen.toNat
    · rw [execBody, execBody, if_pos long, if_pos (show 2 ^ 32 * hLen h < (s.besides e).outlen.toNat from long)]
      exact .error _
    · rw [execBody, execBody, if_neg long, if_neg (show ¬ 2 ^ 32 * hLen h < (s.besides e).outlen.toNat from long)]
      exact .out (mgf (hash h) s.message s.outlen.toNat) (length_mgf_hash _ _ _)
  | pssenc h =>
    rw [execBody, execBody]
    exact .whenFits (.em 1 (s.encodeNext h) rfl)
  | pssdec h => exact .whenFits (.completeDecode rfl h s.encoded)
  | sign h =>
    refine SameEnding.whenFits (body := State.signBody h) ?_
    rcases Nat.lt_or_ge (os2ip (s.encodeNext h)) s.mod with below | above
    · rw [State.signBody_of_lt below, State.signBody_of_lt (s := s.besides e) below]
      exact .reg 1 .res (os2ip (s.encodeNext h) ^ s.opb % s.mod) rfl
    · rw [State.signBody_of_le above, State.signBody_of_le (s := s.besides e) above]
      exact .status 1 (s.status.completeError .messageOutOfRange) nofun
  | verify h =>
    refine SameEnding.whenFits (body := State.verifyBody h) ?_
    rcases Nat.lt_or_ge s.opa s.mod with below | above
    · rw [State.verifyBody_of_lt below, State.verifyBody_of_lt (s := s.besides e) below]
      exact .completeDecode rfl h (i2osp (s.opa ^ s.opb % s.mod) s.kLen)
    · rw [State.verifyBody_of_le above, State.verifyBody_of_le (s := s.besides e) above]
      exact .error _
  | importReg r =>
    by_cases wide : 2 ^ s.keySize ≤ os2ip s.message
    · rw [execBody, execBody, if_pos wide,
        if_pos (show 2 ^ (s.besides e).keySize ≤ os2ip (s.besides e).message from wide)]
      exact .error _
    · rw [execBody, execBody, if_neg wide,
        if_neg (show ¬ 2 ^ (s.besides e).keySize ≤ os2ip (s.besides e).message from wide)]
      exact .reg 0 r (os2ip s.message) rfl
  | exportReg r =>
    have same : (s.besides e).getBig r = s.getBig r := State.getBig_besides fun hr => hres (congrArg _ hr)
    by_cases wide : 256 ^ s.outlen.toNat ≤ s.getBig r
    · rw [execBody, execBody, same, if_pos wide, if_pos (show 256 ^ (s.besides e).outlen.toNat ≤ s.getBig r from wide)]
      exact .error _
    · rw [execBody, execBody, same, if_neg wide,
        if_neg (show ¬ 256 ^ (s.besides e).outlen.toNat ≤ s.getBig r from wide)]
      exact .out (i2osp (s.getBig r) s.outlen.toNat) (length_i2osp _ _)

/-- Both runs are errors of the configuration, or end in the same way. -/
theorem exec_sameEnding {i : Instr} {s t : State} (e : State) (hres : i = .exportReg .res → e.res = s.res)
    (h : exec i s = .next t) : ∃ t', exec i (s.besides e) = .next t' ∧ SameEnding s (s.besides e) i t t' := by
  cases hl : s.legal with
  | false =>
    rw [exec_of_not_legal hl] at h
    obtain rfl := Host.Outcome.next.inj h
    exact ⟨_, exec_of_not_legal (s := s.besides e) hl i, .error .badConfig⟩
  | true =>
    rw [exec_of_legal hl] at h
    obtain rfl := Host.Outcome.next.inj h
    exact ⟨_, exec_of_legal (s := s.besides e) hl i, execBody_sameEnding i s e hres⟩

/-! ### What two runs that end in the same way have in common -/

section
variable {s e t t' : State} {i : Instr} (h : SameEnding s (s.besides e) i t t')
include h

theorem SameEnding.agree : t'.status = t.status ∧ t'.opa = t.opa ∧ t'.opb = t.opb ∧ t'.mod = t.mod ∧ t'.em = t.em ∧
    (t'.res = t.res ∨ (t'.res = e.res ∧ t.res = s.res)) ∧ t'.draws = t.draws ∧ t'.drawPos = t.drawPos := by
  cases h with
  | status | em | out => exact ⟨rfl, rfl, rfl, rfl, rfl, .inr ⟨rfl, rfl⟩, rfl, rfl⟩
  | reg k r v =>
    cases r with
    | res => exact ⟨rfl, rfl, rfl, rfl, rfl, .inl rfl, rfl, rfl⟩
    | opa | opb | mod => exact ⟨rfl, rfl, rfl, rfl, rfl, .inr ⟨rfl, rfl⟩, rfl, rfl⟩

/-- OUT is left alone by both runs, or the same OUTLEN bytes are written over it. -/
theorem SameEnding.out_cases : (t.out = s.out ∧ t'.out = e.out ∧ (writesOut i = true → t.status.err ≠ 0)) ∨
    ∃ X, X.length = s.outlen.toNat ∧ t.out = s.out.writeBytes 0 X ∧ t'.out = e.out.writeBytes 0 X := by
  cases h with
  | status k st failed => exact .inl ⟨rfl, rfl, failed⟩
  | reg k r v silent =>
    exact .inl ⟨State.setBig_out _ _ _, State.setBig_out _ _ _, fun hw => absurd hw (by rw [silent]; decide)⟩
  | em k X silent => exact .inl ⟨rfl, rfl, fun hw => absurd hw (by rw [silent]; decide)⟩
  | out X len => exact .inr ⟨X, len, rfl, rfl⟩

theorem SameEnding.read_out (hs : s.out.wf = true) (he : e.out.wf = true) (a : Nat) :
    (t'.out.read a = t.out.read a ∨ (t'.out.read a = e.out.read a ∧ t.out.read a = s.out.read a)) ∧
    (writesOut i = true → t.status.err = 0 → a < s.outlen.toNat → t'.out.read a = t.out.read a) := by
  rcases h.out_cases with ⟨ht, ht', failed⟩ | ⟨X, len, ht, ht'⟩
  · rw [ht, ht']
    exact ⟨.inr ⟨rfl, rfl⟩, fun hw h0 _ => absurd h0 (failed hw)⟩
  · rw [ht, ht', Memory.read_writeBytes hs, Memory.read_writeBytes he, len, Nat.zero_add]
    by_cases ha : a < s.outlen.toNat
    · rw [if_pos ⟨Nat.zero_le a, ha⟩, if_pos ⟨Nat.zero_le a, ha⟩]
      exact ⟨.inl rfl, fun _ _ _ => rfl⟩
    · rw [if_neg (mt And.right ha), if_neg (mt And.right ha)]
      exact ⟨.inr ⟨rfl, rfl⟩, fun _ _ ha' => absurd ha' ha⟩

end

/-- Settles O45: the second state is `s.besides e`, and the command ends in the same way from both. -/
theorem outcomesDependOnlyOnOperandsAndDraws : Obligations.OutcomesDependOnlyOnOperandsAndDraws := by
  intro i s t o c ms fp rd v hv h
  obtain ⟨t', h', same⟩ :=
    exec_sameEnding { s with out := o, cmd := c, schedule := ms, freePos := fp, readData := rd, res := v } hv h
  obtain ⟨hstatus, hopa, hopb, hmod, hem, hres, hdraws, hpos⟩ := same.agree
  refine ⟨t', h', hstatus, hopa, hopb, hmod, hem, hres, hdraws, hpos, fun hs ho a => ?_⟩
  obtain ⟨bytes, written⟩ := same.read_out hs ho a
  exact ⟨bytes, fun hi _ ht ha => written (writesOut_of_mgf1_or_exportReg hi) ht ha⟩

end Sys2Proof.Machine
end

section
/-! Steps: issue, completion, the fatal halt and reset (20_memory.md R70, 10_state.md R25, R40, 70_reset_and_hazards.md
R290, R291, R299). -/

namespace Sys2Proof.Machine

/-! ### The moves of a step -/

theorem blockStep_of_busy {s : State} (hb : s.status.busy = true) : blockStep s = completeWord s := if_pos hb

theorem blockStep_of_idle {s : State} (hb : s.status.busy = false) : blockStep s = .next s := by
  rw [blockStep, hb]; rfl

/-- With no move left a running block completes its command (70_reset_and_hazards.md R299). -/
theorem step_nil_of_busy {s : State} (hb : s.status.busy = true) (hs : s.schedule = []) : step s = completeWord s :=
  (step_nil hs).trans (blockStep_of_busy hb)

section
variable {s : State} {rest : List Move}

theorem step_block_of_busy (hb : s.status.busy = true) (hs : s.schedule = .block :: rest) :
    step s = completeWord { s with schedule := rest } :=
  (step_cons hs).trans (blockStep_of_busy hb)

theorem step_read {index : Nat} {offset : DWord} (hs : s.schedule = .read index offset :: rest) :
    step s = .next (readStep index offset { s with schedule := rest }) :=
  step_cons hs

/-- The widths of the ports do not depend on the moves to come. -/
theorem Port.fits_schedule (p : Port) (v : Nat) : p.fits v { s with schedule := rest } = p.fits v s := by
  cases p <;> rfl

theorem step_write {index : Nat} {offset : DWord} {v : Nat} (hs : s.schedule = .write index offset v :: rest)
    (hf : (Port.ofIndex index).fits v s = true) :
    step s = .next (hostWrite (Port.ofIndex index) offset v { s with schedule := rest }) :=
  (step_cons hs).trans (if_pos ((Port.fits_schedule _ v).trans hf))

theorem step_write_of_not_fits {index : Nat} {offset : DWord} {v : Nat}
    (hs : s.schedule = .write index offset v :: rest) (hf : (Port.ofIndex index).fits v s = false) :
    step s = .fault .hostValueTooWide :=
  (step_cons hs).trans (if_neg (by rw [Port.fits_schedule, hf]; decide))

end

/-! ### Illegal words and commands in flight (30_encoding.md R97, 20_memory.md R70) -/

/-- Settles O4: the decoder's refusals (`decode_refuses_iff`), and the completion event of a refused word. -/
theorem illegalWordsCompleteWithIllegalCommand : Obligations.IllegalWordsCompleteWithIllegalCommand := by
  refine ⟨decode_refuses_iff, fun s rest e hb hs he => ?block, fun s e hb hs he => ?nil⟩
  case block => rw [step_block_of_busy hb hs]; exact completeWord_of_error he
  case nil => rw [step_nil_of_busy hb hs]; exact completeWord_of_error he

/-- Settles O5: the completion event of the decoded word, in each of the three places. -/
theorem stepRunsTheCommandInFlight : Obligations.StepRunsTheCommandInFlight := by
  refine ⟨fun s rest i hb hi hs => ?block, fun s i hb hi hs => ?nil, fun s i hi => ?placed⟩
  case block => rw [step_block_of_busy hb hs]; exact completeWord_of_ok hi
  case nil => rw [step_nil_of_busy hb hs]; exact completeWord_of_ok hi
  case placed =>
    have word : BitVec.ofNat 32 ((encode i).toNat % 2 ^ 32) = encode i := by
      rw [Nat.mod_eq_of_lt (encode i).isLt, BitVec.ofNat_toNat, BitVec.setWidth_eq]
    rw [State.withFetchWord, word, step_block_of_busy rfl rfl]
    exact completeWord_of_ok hi

/-- A word written to CMD of an idle block that is not halted is issued (10_state.md R25). -/
theorem step_write_cmd {s : State} {rest : List Move} {offset : DWord} {v : Nat}
    (hs : s.schedule = .write 0x02 offset v :: rest) (hv : v < 2 ^ 32) (hb : s.status.busy = false) (hf : s.status.fatal = false) :
    step s = .next (State.issue (BitVec.ofNat 32 v) { s with schedule := rest }) := by
  have issued : State.writeCmd (BitVec.ofNat 32 v) { s with schedule := rest } =
      State.issue (BitVec.ofNat 32 v) { s with schedule := rest } := by rw [State.writeCmd, hf]; rfl
  rw [step_write hs (decide_eq_true hv), ← issued]
  exact congrArg _ (State.ifIdle_of_idle (s := { s with schedule := rest }) hb _)

/-- A word written to CMD of a running or halted block is ignored (10_state.md R25). -/
theorem step_write_cmd_ignored {s : State} {rest : List Move} {offset : DWord} {v : Nat}
    (hs : s.schedule = .write 0x02 offset v :: rest) (hv : v < 2 ^ 32)
    (h : s.status.busy = true ∨ s.status.fatal = true) :
    step s = .next { s with schedule := rest } := by
  rw [step_write hs (decide_eq_true hv)]
  have effect := hostWrite_effect .cmd offset v { s with schedule := rest }
  rw [show Port.ofIndex 0x02 = .cmd from rfl]
  generalize hostWrite .cmd offset v { s with schedule := rest } = t at effect ⊢
  cases effect with
  | ignored => rfl
  | issued idle live =>
    rcases h with hb | hf
    · exact absurd (idle.symm.trans hb) (by decide)
    · exact absurd (live.symm.trans hf) (by decide)

/-- Settles O6: a CMD write issues or is ignored; a read of CMD and its reset value are by definition. -/
theorem cmdWriteIssuesUnlessBusyOrHalted : Obligations.CmdWriteIssuesUnlessBusyOrHalted :=
  ⟨fun _ _ _ _ hs hv => ⟨step_write_cmd hs hv, step_write_cmd_ignored hs hv⟩, fun _ _ _ hs => step_read hs, rfl⟩

/-- Settles O7: the issue step, then the completion of the word it placed in CMD. -/
theorem issueThenCompletionRunsTheCommand : Obligations.IssueThenCompletionRunsTheCommand := by
  intro s rest offset i hs hb hf
  refine ⟨_, step_write_cmd hs (encode i).isLt hb hf, ?_⟩
  rw [step_block_of_busy rfl rfl, BitVec.ofNat_toNat, BitVec.setWidth_eq]
  exact completeWord_of_ok (decode_encode i)

/-! ### What stops the machine (20_memory.md R77) -/

/-- A value does not fit exactly when the port has a width and the value needs more bits. -/
theorem Port.fits_eq_false_iff {p : Port} {v : Nat} {s : State} :
    p.fits v s = false ↔ ∃ n, p.width s = some n ∧ 2 ^ n ≤ v := by
  unfold Port.fits
  cases p.width s <;> simp

theorem blockStep_next (s : State) : ∃ t, blockStep s = .next t := by
  cases hb : s.status.busy with
  | true => rw [blockStep_of_busy hb]; exact completeWord_next s
  | false => exact ⟨s, blockStep_of_idle hb⟩

/-- A step answers a next state, or its move is a write that does not fit. -/
theorem step_next_or_fault (s : State) : (∃ t, step s = .next t) ∨
    ∃ index offset v rest, s.schedule = .write index offset v :: rest ∧ (Port.ofIndex index).fits v s = false := by
  cases hs : s.schedule with
  | nil => rw [step_nil hs]; exact .inl (blockStep_next s)
  | cons mv rest =>
    cases mv with
    | write index offset v =>
      cases hf : (Port.ofIndex index).fits v s with
      | true => exact .inl ⟨_, step_write hs hf⟩
      | false => exact .inr ⟨index, offset, v, rest, rfl, hf⟩
    | read index offset => exact .inl ⟨_, step_read hs⟩
    | block => rw [step_cons hs]; exact .inl (blockStep_next _)
    | hardwareReset => exact .inl ⟨_, step_cons hs⟩

/-- Settles O9, by `step_next_or_fault`; the converse is the fault of a write that does not fit. -/
theorem onlyTooWideHostWritesStopTheMachine : Obligations.OnlyTooWideHostWritesStopTheMachine := by
  refine fun s => ⟨fun r hr => ?refused, fun ⟨f, hf⟩ => ?only, fun ⟨index, offset, v, rest, hs, wide⟩ => ?does⟩
  case refused =>
    rcases step_next_or_fault s with ⟨t, ht⟩ | ⟨index, offset, v, rest, hs, hf⟩
    · rw [ht] at hr; cases hr
    · rw [step_write_of_not_fits hs hf] at hr; cases hr
  case only =>
    rcases step_next_or_fault s with ⟨t, ht⟩ | ⟨index, offset, v, rest, hs, hfits⟩
    · rw [ht] at hf; cases hf
    · exact ⟨index, offset, v, rest, hs, Port.fits_eq_false_iff.1 hfits⟩
  case does => exact ⟨_, step_write_of_not_fits hs (Port.fits_eq_false_iff.2 wide)⟩

/-! ### The fatal halt (10_state.md R40) -/

theorem exec_fatal {i : Instr} {s t : State} (h : exec i s = .next t) (hf : s.status.fatal = true) :
    t.status.fatal = true := by
  rcases exec_ending h with ⟨-, rfl⟩ | ⟨-, ending⟩
  · exact hf
  · cases ending with
    | error | signError => exact hf
    | halt => rfl
    | done u out => exact out.fatal.trans hf

/-- A completion event does not clear FATAL and does not write CMD. -/
theorem completeWord_fatal {s t : State} (h : completeWord s = .next t) (hf : s.status.fatal = true) :
    t.status.fatal = true ∧ t.cmd = s.cmd := by
  cases hd : decode s.cmd with
  | ok i =>
    rw [completeWord_of_ok hd] at h
    exact ⟨exec_fatal h hf, (exec_outside h).1⟩
  | error e =>
    rw [completeWord_of_error hd] at h
    obtain rfl := Host.Outcome.next.inj h
    exact ⟨hf, rfl⟩

/-- In the fatal halt a host write resets the block or leaves STATUS and CMD alone. -/
theorem WriteEffect.of_fatal {s t : State} {v : Nat} {p : Port} (effect : WriteEffect s v p t)
    (hf : s.status.fatal = true) : (p = .ctrl ∧ v % 2 = 1) ∨ (t.status = s.status ∧ t.cmd = s.cmd) := by
  cases effect with
  | reset odd => exact .inl ⟨rfl, odd⟩
  | issued _ live => exact absurd (live.symm.trans hf) (by decide)
  | big _ r => exact .inr ⟨State.setBig_status s r v, State.setBig_cmd s r v⟩
  | _ => exact .inr ⟨rfl, rfl⟩

theorem Move.isReset_write_iff {index : Nat} {offset : DWord} {v : Nat} :
    (Move.write index offset v).isReset = true ↔ Port.ofIndex index = .ctrl ∧ v % 2 = 1 := by
  simp [Move.isReset]

/-- Settles O16, by the cases of a step (`step_cases`). -/
theorem fatalStaysUntilReset : Obligations.FatalStaysUntilReset := by
  intro s t hf hstep
  obtain ⟨rest, -, move⟩ := step_cases hstep
  rcases move with ⟨-, rfl⟩ | ⟨hb, hc⟩ | ⟨index, offset, -, rfl⟩ | ⟨index, offset, v, hs, -, rfl⟩ | ⟨hs, -⟩
  · exact .inl ⟨hf, rfl, id⟩
  · obtain ⟨fatal, cmd⟩ := completeWord_fatal hc hf
    exact .inl ⟨fatal, cmd, fun _ => completeWord_busy hc⟩
  · obtain ⟨x, n, e⟩ := readStep_eq index offset { s with schedule := rest }
    rw [e]
    exact .inl ⟨hf, rfl, id⟩
  · rcases (hostWrite_effect (Port.ofIndex index) offset v { s with schedule := rest }).of_fatal hf with
      reset | ⟨status, cmd⟩
    · exact .inr ⟨_, rest, hs, Move.isReset_write_iff.2 reset⟩
    · exact .inl ⟨by rw [status]; exact hf, cmd, fun hb => by rw [status]; exact hb⟩
  · exact .inr ⟨_, rest, hs, rfl⟩

/-! ### Runs of a command in flight (70_reset_and_hazards.md R299) -/

theorem run_succ_of_next {s t : State} (h : step s = .next t) (k : Nat) :
    Host.Core.run Sys2Proof.core (k + 1) s = Host.Core.run Sys2Proof.core k t := by
  simp only [Host.Core.run, show Sys2Proof.core.step s = .next t from h]

theorem run_one (s : State) : Host.Core.run Sys2Proof.core 1 s = step s := by
  cases h : step s with
  | next t => exact run_succ_of_next h 0
  | fault r =>
    simp only [Host.Core.run, show Sys2Proof.core.step s = .fault r from h]
    rfl
  | refused r =>
    simp only [Host.Core.run, show Sys2Proof.core.step s = .refused r from h]
    rfl

/-- While a command runs, a host write that is no reset is ignored (20_memory.md R71). -/
theorem hostWrite_of_busy_of_not_reset {s : State} (hb : s.status.busy = true) {index : Nat} {offset : DWord} {v : Nat}
    (hr : (Move.write index offset v).isReset = false) : hostWrite (Port.ofIndex index) offset v s = s := by
  have no_reset := mt Move.isReset_write_iff.2 (Bool.eq_false_iff.1 hr)
  by_cases hc : Port.ofIndex index = .ctrl
  · rw [hc]
    exact if_neg fun odd => no_reset ⟨hc, odd⟩
  · exact hostWrite_of_busy hb hc offset v

/-- What the oldest move does to a running block. -/
theorem step_of_busy {s : State} (hb : s.status.busy = true) {mv : Move} {rest : List Move}
    (hs : s.schedule = mv :: rest) :
    (mv.isReset = false ∧
      ((∃ t, completeWord { s with schedule := rest } = .next t ∧ step s = .next t) ∨
       (∃ n rd, step s = .next { s with schedule := rest, freePos := n, readData := rd }) ∨
       step s = .fault .hostValueTooWide)) ∨
    (mv.isReset = true ∧ (step s = .fault .hostValueTooWide ∨ ∃ t, step s = .next t ∧ t.status.busy = false)) := by
  cases mv with
  | block =>
    obtain ⟨t, ht⟩ := completeWord_next { s with schedule := rest }
    exact .inl ⟨rfl, .inl ⟨t, ht, by rw [step_block_of_busy hb hs, ht]⟩⟩
  | read index offset =>
    obtain ⟨x, n, e⟩ := readStep_eq index offset { s with schedule := rest }
    exact .inl ⟨rfl, .inr (.inl ⟨n, some x, by rw [step_read hs, e]⟩)⟩
  | hardwareReset => exact .inr ⟨rfl, .inr ⟨_, step_cons hs, rfl⟩⟩
  | write index offset v =>
    cases hf : (Port.ofIndex index).fits v s with
    | false =>
      have fault := step_write_of_not_fits hs hf
      cases hr : (Move.write index offset v).isReset with
      | false => exact .inl ⟨rfl, .inr (.inr fault)⟩
      | true => exact .inr ⟨rfl, .inl fault⟩
    | true =>
      have next := step_write hs hf
      cases hr : (Move.write index offset v).isReset with
      | false =>
        rw [hostWrite_of_busy_of_not_reset (s := { s with schedule := rest }) hb hr] at next
        exact .inl ⟨rfl, .inr (.inl ⟨s.freePos, s.readData, next⟩)⟩
      | true =>
        obtain ⟨ctrl, odd⟩ := Move.isReset_write_iff.1 hr
        rw [ctrl] at next
        exact .inr ⟨rfl, .inr ⟨_, next, congrArg (fun u : State => u.status.busy) (if_pos odd)⟩⟩

/-- The completion event of `s` once `rest` is left, and the host has read what it has read. -/
abbrev State.CompletesAs (s : State) (rest : List Move) (n : Nat) (rd : Option Nat) (t : State) : Prop :=
  completeWord { s with schedule := rest, freePos := n, readData := rd } = .next t

/-- Without a reset among the moves, a running block reaches its completion event or a write that is no access. -/
theorem run_completes : ∀ (ms : List Move) (s : State), s.schedule = ms → s.status.busy = true →
    (∀ mv ∈ ms, mv.isReset = false) →
    (∃ k rest n rd, k ≤ ms.length ∧ ∃ t, s.CompletesAs rest n rd t ∧ Host.Core.run Sys2Proof.core (k + 1) s = .next t) ∨
    ∃ k, k ≤ ms.length ∧ Host.Core.run Sys2Proof.core k s = .fault Fault.hostValueTooWide
  | [], s, hs, hb, _ => by
    obtain ⟨t, ht⟩ := completeWord_next s
    refine .inl ⟨0, [], s.freePos, s.readData, le_rfl, t, ?_, ?_⟩
    · rw [State.CompletesAs, ← hs]; exact ht
    · exact (run_one s).trans ((step_nil_of_busy hb hs).trans ht)
  | mv :: ms, s, hs, hb, hno => by
    rcases step_of_busy hb hs with ⟨-, ⟨t, ht, next⟩ | ⟨n, rd, next⟩ | fault⟩ | ⟨reset, -⟩
    · exact .inl ⟨0, ms, s.freePos, s.readData, Nat.zero_le _, t, ht, (run_one s).trans next⟩
    · let u : State := { s with schedule := ms, freePos := n, readData := rd }
      rcases run_completes ms u rfl hb fun mv hmv => hno mv (List.mem_cons_of_mem _ hmv) with
        ⟨k, rest, n', rd', hk, t, ht, run⟩ | ⟨k, hk, run⟩
      · exact .inl ⟨k + 1, rest, n', rd', Nat.succ_le_succ hk, t, ht, (run_succ_of_next next _).trans run⟩
      · exact .inr ⟨k + 1, Nat.succ_le_succ hk, (run_succ_of_next next _).trans run⟩
    · exact .inr ⟨1, Nat.succ_le_succ (Nat.zero_le _), (run_one s).trans fault⟩
    · exact absurd reset (by rw [hno mv List.mem_cons_self]; decide)

/-- Whatever the moves left, a running block is idle again once they are done, or a write that is no access stops it. -/
theorem run_gets_idle : ∀ (ms : List Move) (s : State), s.schedule = ms → s.status.busy = true →
    ∃ k, k ≤ ms.length + 1 ∧ ((∃ t : State, Host.Core.run Sys2Proof.core k s = .next t ∧ t.status.busy = false) ∨
      Host.Core.run Sys2Proof.core k s = .fault Fault.hostValueTooWide)
  | [], s, hs, hb => by
    obtain ⟨t, ht⟩ := completeWord_next s
    exact ⟨1, le_rfl, .inl ⟨t, (run_one s).trans ((step_nil_of_busy hb hs).trans ht), completeWord_busy ht⟩⟩
  | mv :: ms, s, hs, hb => by
    have one_le : 1 ≤ (mv :: ms).length + 1 := Nat.succ_le_succ (Nat.zero_le _)
    rcases step_of_busy hb hs with ⟨-, ⟨t, ht, next⟩ | ⟨n, rd, next⟩ | fault⟩ | ⟨-, fault | ⟨t, next, idle⟩⟩
    · exact ⟨1, one_le, .inl ⟨t, (run_one s).trans next, completeWord_busy ht⟩⟩
    · obtain ⟨k, hk, run⟩ := run_gets_idle ms { s with schedule := ms, freePos := n, readData := rd } rfl hb
      exact ⟨k + 1, Nat.succ_le_succ hk, by rw [run_succ_of_next next]; exact run⟩
    · exact ⟨1, one_le, .inr ((run_one s).trans fault)⟩
    · exact ⟨1, one_le, .inr ((run_one s).trans fault)⟩
    · exact ⟨1, one_le, .inl ⟨t, (run_one s).trans next, idle⟩⟩

/-- Settles O8, by induction on the moves left (`run_completes`, `run_gets_idle`). -/
theorem issuedCommandsComplete : Obligations.IssuedCommandsComplete := by
  intro s hb
  refine ⟨fun hno => ?_, run_gets_idle s.schedule s rfl hb⟩
  rcases run_completes s.schedule s rfl hb hno with ⟨k, rest, n, rd, hk, t, ht, run⟩ | fault
  · exact .inl ⟨k, rest, n, rd, hk, t, ht, run, completeWord_busy ht, completeWord_ended ht⟩
  · exact .inr fault

/-! ### Reset (70_reset_and_hazards.md R290, R291) -/

/-- Settles O47: both resets are one event (`step_reset`), whose state is `State.resetEvent_eq`. -/
theorem resetIsAcceptedInEveryState : Obligations.ResetIsAcceptedInEveryState := by
  refine fun s rest offset v hv => ⟨fun h => ?reset, fun hs even => ?even, fun hs => step_read hs⟩
  case reset =>
    obtain ⟨k, n, e, hk, hn⟩ := State.resetEvent_eq { s with schedule := rest }
    refine ⟨k, n, by rw [step_reset hv h, e], fun idle => ?_⟩
    have none := State.pendingDraws_of_idle (s := { s with schedule := rest }) idle
    exact ⟨Nat.le_zero.1 (hk.trans none.le), hn none⟩
  case even =>
    rw [step_write hs (decide_eq_true hv)]
    exact congrArg _ (if_neg (by omega))

/-- Settles O48: the draws the reset leaves consumed are bounded by those of the completion event
(`State.pendingDraws_of_next`). -/
theorem resetAbandonsTheCommandInFlight : Obligations.ResetAbandonsTheCommandInFlight := by
  intro s rest offset v hb hv h
  obtain ⟨k, n, e, hk, hn⟩ := State.resetEvent_eq { s with schedule := rest }
  refine ⟨k, n, _, rfl, by rw [step_reset hv h, e], blockStep_of_idle rfl, fun u hu => ?_⟩
  have pending : State.pendingDraws { s with schedule := rest } = u.drawPos - s.drawPos :=
    State.pendingDraws_of_next (s := { s with schedule := rest }) hb hu
  have forward : s.drawPos ≤ u.drawPos := completeWord_drawPos_le (s := { s with schedule := rest }) hu
  exact ⟨by omega, fun same => hn (by omega)⟩

end Sys2Proof.Machine
end

section
/-! The host's accesses of the registers and buffers (10_state.md R21 to R38, 20_memory.md R64, R66, R71). -/

namespace Sys2Proof.Machine

/-! ### One rule per kind of access -/

theorem hostRead_schedule (p : Port) (offset : DWord) (s : State) (rest : List Move) :
    hostRead p offset { s with schedule := rest } = hostRead p offset s := by
  cases p with
  | big r => cases r <;> rfl
  | _ => rfl

section
variable {s : State} {rest : List Move} {index : Nat} {offset : DWord}

/-- A read of a specified value returns it and changes nothing else (20_memory.md R66). -/
theorem step_read_of_some {x : Nat} (hs : s.schedule = .read index offset :: rest)
    (hx : hostRead (Port.ofIndex index) offset s = some x) :
    step s = .next { s with schedule := rest, readData := some x } := by
  rw [step_read hs, readStep, hostRead_schedule, hx]

/-- A read of an unspecified value takes a free value and changes nothing else (20_memory.md R71). -/
theorem step_read_of_none (hs : s.schedule = .read index offset :: rest)
    (hx : hostRead (Port.ofIndex index) offset s = none) :
    ∃ x, step s = .next { s with schedule := rest, readData := some x, freePos := s.freePos + 1 } := by
  rw [step_read hs, readStep, hostRead_schedule, hx]
  exact ⟨_, rfl⟩

/-- A write that a running block ignores does what `f` says in an idle one (20_memory.md R71). -/
theorem step_write_of_idle {v : Nat} (f : State → State) (hs : s.schedule = .write index offset v :: rest)
    (hf : (Port.ofIndex index).fits v s = true) (hb : s.status.busy = false)
    (hw : ∀ u : State, hostWrite (Port.ofIndex index) offset v u = u.ifIdle f) :
    step s = .next (f { s with schedule := rest }) := by
  rw [step_write hs hf, hw, State.ifIdle_of_idle (s := { s with schedule := rest }) hb]

theorem step_write_of_busy {v : Nat} (hs : s.schedule = .write index offset v :: rest)
    (hf : (Port.ofIndex index).fits v s = true) (hb : s.status.busy = true) (hp : Port.ofIndex index ≠ .ctrl) :
    step s = .next { s with schedule := rest } := by
  rw [step_write hs hf, hostWrite_of_busy (s := { s with schedule := rest }) hb hp]

/-- A write to STATUS, OUT, a reserved index or (in an idle block) RES is ignored (10_state.md R38). -/
theorem step_write_ignored {v : Nat} (hs : s.schedule = .write index offset v :: rest)
    (hf : (Port.ofIndex index).fits v s = true)
    (hp : Port.ofIndex index ∈ [Port.status, .big .res, .out, .reserved]) :
    step s = .next { s with schedule := rest } := by
  rw [step_write hs hf]
  simp only [List.mem_cons, List.not_mem_nil, or_false] at hp
  obtain e | e | e | e := hp
  · rw [e]; rfl
  · rw [e]; exact congrArg _ (ite_self _)
  · rw [e]; rfl
  · rw [e]; rfl

end

theorem Port.ofIndex_ne_ctrl {index : Nat} (h : index ≠ 0x00) : Port.ofIndex index ≠ .ctrl := by
  unfold Port.ofIndex
  split <;> simp_all

/-- The indices outside the table (10_state.md R38). -/
theorem Port.ofIndex_eq_reserved {index : Nat} (h : index ∉ [0x00, 0x01, 0x02, 0x03, 0x04, 0x05, 0x06, 0x10, 0x11, 0x12,
    0x13, 0x20, 0x21, 0x22]) : Port.ofIndex index = .reserved := by
  unfold Port.ofIndex
  split <;> simp_all

/-- In the invariant a big-integer register reads as its value, KEYBITS being legal or not (10_state.md R33). -/
theorem State.Inv.ite_legal_getBig {s : State} (h : s.Inv) (r : BigReg) :
    (if s.legal then s.getBig r else 0) = s.getBig r := by
  cases hl : s.legal with
  | true => exact if_pos rfl
  | false => exact (h.bigZero r hl).symm

/-! ### Accesses while BUSY = 1 (20_memory.md R71) -/

/-- A read of RES, EM or OUT of a running block is unspecified. -/
theorem hostRead_of_busy {s : State} (hb : s.status.busy = true) (offset : DWord) :
    ∀ p ∈ [Port.big .res, .em, .out], hostRead p offset s = none := by
  have none_of_busy (x : Option Nat) : (if s.status.busy then none else x) = none := if_pos hb
  simp only [List.mem_cons, List.not_mem_nil, or_false]
  rintro p (rfl | rfl | rfl) <;> exact none_of_busy _

/-- Settles O49: a write is ignored, a read of an input returns the stored value (a big-integer register's by the
invariant), and a read of an output is unspecified. -/
theorem accessesWhileBusy : Obligations.AccessesWhileBusy := by
  refine fun s rest index offset v hb h => ⟨fun hs hne hf => ?write, fun x hx hs => ?read, fun hx hs => ?unspecified⟩
  case write => exact step_write_of_busy hs hf hb (Port.ofIndex_ne_ctrl hne)
  case read =>
    refine step_read_of_some hs ?_
    have opa := h.ite_legal_getBig .opa
    have opb := h.ite_legal_getBig .opb
    have mod := h.ite_legal_getBig .mod
    obtain ⟨rfl, rfl⟩ | ⟨rfl, rfl⟩ | ⟨rfl, rfl⟩ | ⟨rfl, rfl⟩ | ⟨rfl, rfl⟩ | ⟨rfl, rfl⟩ | ⟨rfl, rfl⟩ | ⟨rfl, rfl⟩ |
      ⟨rfl, rfl⟩ | ⟨rfl, rfl⟩ := hx
    exacts [rfl, rfl, rfl, rfl, rfl, rfl, congrArg some opa, congrArg some opb, congrArg some mod, rfl]
  case unspecified =>
    refine step_read_of_none hs (hostRead_of_busy hb offset _ ?_)
    obtain rfl | rfl | rfl := hx <;> simp [Port.ofIndex]

/-! ### The control registers (10_state.md R26 to R29) -/

/-- Settles O50, by the rules for an idle and for a running block. -/
theorem keybitsWriteClearsTheOperands : Obligations.KeybitsWriteClearsTheOperands := by
  refine ⟨fun s rest offset v hs hv => ⟨fun idle => ?idle, fun busy => ?busy⟩, fun s rest offset hs => ?read⟩
  case idle =>
    exact ⟨[], Memory.read_nil, step_write_of_idle (State.setKeybits (BitVec.ofNat 32 v)) hs (decide_eq_true hv) idle
      fun _ => rfl⟩
  case busy => exact step_write_of_busy hs (decide_eq_true hv) busy (by decide)
  case read => exact step_read_of_some hs rfl

/-- Settles O52, register by register. -/
theorem roundAndLengthRegistersStoreEveryValue : Obligations.RoundAndLengthRegistersStoreEveryValue := by
  refine fun s rest offset v idle => ⟨fun hs hv => ?rounds, fun hs hv => ?msglen, fun hs hv => ?outlen,
    fun hs => step_read_of_some hs rfl, fun hs => step_read_of_some hs rfl, fun hs => step_read_of_some hs rfl⟩
  case rounds =>
    exact ⟨BitVec.ofNat 32 v, by rw [BitVec.toNat_ofNat, Nat.mod_eq_of_lt hv],
      step_write_of_idle (State.setMrRounds _) hs (decide_eq_true hv) idle fun _ => rfl⟩
  case msglen =>
    exact ⟨BitVec.ofNat 64 v, by rw [BitVec.toNat_ofNat, Nat.mod_eq_of_lt hv],
      step_write_of_idle (State.setMsglen _) hs (decide_eq_true hv) idle fun _ => rfl⟩
  case outlen =>
    exact ⟨BitVec.ofNat 64 v, by rw [BitVec.toNat_ofNat, Nat.mod_eq_of_lt hv],
      step_write_of_idle (State.setOutlen _) hs (decide_eq_true hv) idle fun _ => rfl⟩

/-! ### The big-integer registers (10_state.md R33) -/

/-- The index of a big-integer register a host can write (10_state.md R38). -/
def WritableAt (r : BigReg) (index : Nat) : Prop :=
  (index = 0x10 ∧ r = .opa) ∨ (index = 0x11 ∧ r = .opb) ∨ (index = 0x12 ∧ r = .mod)

theorem WritableAt.ofIndex {r : BigReg} {index : Nat} (h : WritableAt r index) :
    Port.ofIndex index = .big r ∧ r ≠ .res := by
  obtain ⟨rfl, rfl⟩ | ⟨rfl, rfl⟩ | ⟨rfl, rfl⟩ := h <;> exact ⟨rfl, by decide⟩

theorem State.hostSetBig_of_legal {s : State} (hl : s.legal = true) {r : BigReg} (hr : r ≠ .res) (v : Nat) :
    s.hostSetBig r v = s.setBig r v := by
  cases r with
  | res => exact absurd rfl hr
  | opa | opb | mod => exact if_pos hl

theorem State.hostSetBig_of_not_legal {s : State} (hl : s.legal = false) (r : BigReg) (v : Nat) :
    s.hostSetBig r v = s := by
  cases r with
  | res => rfl
  | opa | opb | mod => exact if_neg (by rw [hl]; decide)

theorem Port.fits_big_of_legal {s : State} (hl : s.legal = true) {r : BigReg} {v : Nat} (hv : v < 2 ^ s.keySize) :
    (Port.big r).fits v s = true := by
  simpa [Port.fits, Port.width, hl] using hv

theorem Port.fits_big_of_not_legal {s : State} (hl : s.legal = false) (r : BigReg) (v : Nat) :
    (Port.big r).fits v s = true := by
  simp [Port.fits, Port.width, hl]

theorem State.setBig_schedule_comm (s : State) (r : BigReg) (v : Nat) (rest : List Move) :
    State.setBig { s with schedule := rest } r v = { s.setBig r v with schedule := rest } := by
  cases r <;> rfl

/-- A host read of a big-integer register of an idle block (10_state.md R33). -/
theorem hostRead_big_of_idle {s : State} (hb : s.status.busy = false) (r : BigReg) (offset : DWord) :
    hostRead (.big r) offset s = some (if s.legal then s.getBig r else 0) := by
  cases r with
  | res => exact if_neg (by rw [hb]; decide)
  | opa | opb | mod => rfl

/-- A byte written to EM is stored below kLen on a legal KEYBITS only (10_state.md R31, R33). -/
theorem State.setEmByte_of_legal {s : State} (hl : s.legal = true) {a : Nat} (ha : a < s.kLen) (b : Byte) :
    s.setEmByte a b = { s with em := s.em.write a b } :=
  if_pos (by rw [hl, decide_eq_true ha]; rfl)

theorem State.setEmByte_ignored {s : State} {a : Nat} (h : s.legal = false ∨ s.kLen ≤ a) (b : Byte) :
    s.setEmByte a b = s := by
  refine if_neg fun both => ?_
  obtain ⟨hl, ha⟩ := Bool.and_eq_true_iff.1 both
  rcases h with h | h
  · exact absurd (h.symm.trans hl) (by decide)
  · exact absurd (of_decide_eq_true ha) (Nat.not_lt.2 h)

theorem hostRead_em_of_idle {s : State} (hb : s.status.busy = false) (offset : DWord) :
    hostRead .em offset s =
      some (if s.legal && decide (offset.toNat < s.kLen) then (s.em.read offset.toNat).toNat else 0) :=
  if_neg (by rw [hb]; decide)

/-- Settles O51, by the rules above for a register that is writable at its index. -/
theorem hostAccessOfBigRegisters : Obligations.HostAccessOfBigRegisters := by
  intro s rest offset v r index idle hr
  obtain ⟨port, notRes⟩ := WritableAt.ofIndex hr
  have write (u : State) : hostWrite (Port.ofIndex index) offset v u = u.ifIdle (State.hostSetBig r v) := by
    rw [port]; rfl
  refine ⟨fun hl hv hs => ⟨?store, ?bytes⟩, fun hl hs => ?ignored, fun hl hs hv => ?emIgnored, fun hs => ?read,
    fun hs => ?readRes, fun hl hs => ?readEm⟩
  case store =>
    rw [step_write_of_idle _ hs (port ▸ Port.fits_big_of_legal hl hv) idle write,
      State.hostSetBig_of_legal (s := { s with schedule := rest }) hl notRes, State.setBig_schedule_comm]
  case bytes => exact os2ip_i2osp_of_lt (State.two_pow_keySize hl ▸ hv)
  case ignored =>
    rw [step_write_of_idle _ hs (port ▸ Port.fits_big_of_not_legal hl r v) idle write,
      State.hostSetBig_of_not_legal (s := { s with schedule := rest }) hl]
  case emIgnored =>
    rw [step_write_of_idle (State.setEmByte offset.toNat (BitVec.ofNat 8 v)) hs (decide_eq_true hv) idle fun _ => rfl,
      State.setEmByte_ignored (s := { s with schedule := rest }) (.inl hl)]
  case read => exact step_read_of_some hs (by rw [port]; exact hostRead_big_of_idle idle r offset)
  case readRes => exact step_read_of_some hs (hostRead_big_of_idle idle .res offset)
  case readEm => exact step_read_of_some hs ((hostRead_em_of_idle idle offset).trans (by rw [hl]; rfl))

/-! ### The buffers (10_state.md R30 to R32, 20_memory.md R64) -/

/-- A byte written by the host is read back, and every other byte is as before. -/
theorem Memory.toNat_read_write {m : Memory} (hwf : m.wf = true) {v : Nat} (hv : v < 256) (a x : Nat) :
    ((m.write a (BitVec.ofNat 8 v)).read x).toNat = if x = a then v else (m.read x).toNat := by
  rw [Memory.read_write hwf, apply_ite BitVec.toNat, BitVec.toNat_ofNat, Nat.mod_eq_of_lt hv]

/-- Settles O53, buffer by buffer: the bytes by `Memory.toNat_read_write`. -/
theorem hostAccessOfBuffers : Obligations.HostAccessOfBuffers := by
  intro s rest offset v idle h hv
  have emWrite (hs : s.schedule = .write 0x21 offset v :: rest) :
      step s = .next (State.setEmByte offset.toNat (BitVec.ofNat 8 v) { s with schedule := rest }) :=
    step_write_of_idle _ hs (decide_eq_true hv) idle fun _ => rfl
  refine ⟨fun hs => ?msg, fun hs hl ha => ?em, fun hs ha => ?emIgnored, fun hs => ?out, fun hs => ?readMsg,
    fun hs hl => ?readEm, fun hs => ?readOut⟩
  case msg =>
    exact ⟨_, step_write_of_idle (State.setMsgByte offset.toNat (BitVec.ofNat 8 v)) hs (decide_eq_true hv) idle
      fun _ => rfl, Memory.toNat_read_write h.msgWf hv offset.toNat⟩
  case em =>
    refine ⟨_, ?_, Memory.toNat_read_write h.emWf hv offset.toNat⟩
    rw [emWrite hs, State.setEmByte_of_legal (s := { s with schedule := rest }) hl ha]
  case emIgnored => rw [emWrite hs, State.setEmByte_ignored (s := { s with schedule := rest }) (.inr ha)]
  case out => exact step_write_ignored hs (decide_eq_true hv) (by decide)
  case readMsg => exact step_read_of_some hs rfl
  case readEm =>
    refine ⟨_, rfl, step_read_of_some hs ((hostRead_em_of_idle idle offset).trans ?_)⟩
    rw [hl, Bool.true_and]
    simp only [decide_eq_true_eq]
  case readOut => exact step_read_of_some hs (if_neg (by rw [idle]; decide))

/-- Settles O54: each of these indices is a port whose writes are ignored. -/
theorem readOnlyAndReservedIndices : Obligations.ReadOnlyAndReservedIndices := by
  intro s rest index offset v reserved
  refine ⟨fun hs hr => ?write, fun hs hi hf => ?readOnly, fun hs hr => ?read⟩
  case write =>
    have port := Port.ofIndex_eq_reserved hr
    exact step_write_ignored hs (by rw [port]; rfl) (by rw [port]; decide)
  case readOnly => exact step_write_ignored hs hf (by obtain rfl | rfl | rfl := hi <;> decide)
  case read => exact step_read_of_some hs (by rw [Port.ofIndex_eq_reserved hr]; rfl)

/-- Every value of an idle block is specified (20_memory.md R71). -/
theorem hostRead_of_idle {s : State} (hb : s.status.busy = false) (p : Port) (offset : DWord) :
    ∃ x, hostRead p offset s = some x := by
  cases p with
  | big r => exact ⟨_, hostRead_big_of_idle hb r offset⟩
  | em => exact ⟨_, hostRead_em_of_idle hb offset⟩
  | out => exact ⟨_, if_neg (by rw [hb]; decide)⟩
  | _ => exact ⟨_, rfl⟩

/-- Settles O55: a read writes what the host has read, and takes a free value only where the value is unspecified. -/
theorem readsHaveNoSideEffect : Obligations.ReadsHaveNoSideEffect := by
  intro s rest index offset hs
  cases hx : hostRead (Port.ofIndex index) offset s with
  | some x => exact ⟨x, s.freePos, step_read_of_some hs hx, fun _ => rfl⟩
  | none =>
    obtain ⟨x, next⟩ := step_read_of_none hs hx
    refine ⟨x, s.freePos + 1, next, fun idle => ?_⟩
    obtain ⟨y, hy⟩ := hostRead_of_idle idle (Port.ofIndex index) offset
    rw [hx] at hy
    cases hy

/-! ### The view of STATUS (10_state.md R23) -/

/-- Bits 7:0 of the STATUS word. -/
def Status.flags (t : Status) : Nat := t.busy.toNat + 2 * t.done.toNat + 4 * t.fatal.toNat + 8 * t.prime.toNat

theorem Status.flags_lt (t : Status) : t.flags < 2 ^ 4 := by
  have := t.busy.toNat_le
  have := t.done.toNat_le
  have := t.fatal.toNat_le
  have := t.prime.toNat_le
  unfold Status.flags
  omega

theorem Status.testBit_flags (t : Status) : t.flags.testBit 0 = t.busy ∧ t.flags.testBit 1 = t.done ∧
    t.flags.testBit 2 = t.fatal ∧ t.flags.testBit 3 = t.prime := by
  obtain ⟨busy, done, fatal, prime, err⟩ := t
  exact (show ∀ b d f p : Bool, (b.toNat + 2 * d.toNat + 4 * f.toNat + 8 * p.toNat).testBit 0 = b ∧
    (b.toNat + 2 * d.toNat + 4 * f.toNat + 8 * p.toNat).testBit 1 = d ∧
    (b.toNat + 2 * d.toNat + 4 * f.toNat + 8 * p.toNat).testBit 2 = f ∧
    (b.toNat + 2 * d.toNat + 4 * f.toNat + 8 * p.toNat).testBit 3 = p by decide) busy done fatal prime

theorem Status.word_toNat (t : Status) : t.word.toNat = 2 ^ 8 * t.err.toNat + t.flags := by
  have hf := t.flags_lt
  have he := t.err.isLt
  rw [Status.word, BitVec.toNat_ofNat, Nat.mod_eq_of_lt]
  · rw [Status.flags]; ring
  · show t.flags + 256 * t.err.toNat < 2 ^ 32
    omega

/-- The bits of the word: the flags below bit 8, ERR from there on. -/
theorem Status.getLsbD_word (t : Status) (j : Nat) :
    t.word.getLsbD j = if j < 8 then t.flags.testBit j else t.err.getLsbD (j - 8) := by
  rw [← BitVec.testBit_toNat, Status.word_toNat, Nat.testBit_two_pow_mul_add _ (t.flags_lt.trans (by decide)),
    BitVec.testBit_toNat]

/-- Settles O56, by the two parts of the word. -/
theorem statusWordLayout : Obligations.StatusWordLayout := by
  refine ⟨fun t => ?_, fun s rest offset hs => step_read_of_some hs rfl⟩
  obtain ⟨busy, done, fatal, prime⟩ := t.testBit_flags
  refine ⟨by rw [t.getLsbD_word]; exact busy, by rw [t.getLsbD_word]; exact done, by rw [t.getLsbD_word]; exact fatal,
    by rw [t.getLsbD_word]; exact prime, fun j h4 h7 => ?reserved, ?err, fun j h16 => ?high⟩
  case reserved =>
    rw [t.getLsbD_word, if_pos (by omega)]
    exact Nat.testBit_lt_two_pow (t.flags_lt.trans_le (Nat.pow_le_pow_right (by decide) h4))
  case err =>
    refine BitVec.eq_of_getLsbD_eq fun j hj => ?_
    rw [BitVec.getLsbD_extractLsb', t.getLsbD_word, if_neg (by omega), Nat.add_sub_cancel_left, decide_eq_true hj,
      Bool.true_and]
  case high =>
    rw [t.getLsbD_word, if_neg (by omega)]
    exact BitVec.getLsbD_of_ge _ _ (by omega)

end Sys2Proof.Machine
end
